-- ==== Sys2Proof/Word.lean ====
section
/-! DEFINITION. The bit-vector types of the interface: bytes, chip register addresses, bus device addresses. -/

namespace Sys2Proof

/-- An 8-bit unsigned value (R9). -/
abbrev Byte := BitVec 8

/-- A chip register address, 0..255 (R33, `REG_ADDR_BITS` = 8). -/
abbrev RegAddr := BitVec 8

/-- A bus device address (R32, `DEV_ADDR_BITS` = 7). -/
abbrev DevAddr := BitVec 7

end Sys2Proof
end

