-- ==== Sys2Proof/Machine/Constants.lean ====
section
/-! DEFINITION. The block's fixed constants (R7): "fixed hardware-wiring facts, not tunable parameters". -/

namespace Sys2Proof.Machine

/-- R7 `NUM_MOTORS`: motor indices 0..3. -/
def numMotors : Nat := 4

/-- R7 `BANK_BASE0`: first register of motor 0's bank. -/
def bankBase0 : Nat := 6

/-- R7 `BANK_STRIDE`: register distance between consecutive banks. -/
def bankStride : Nat := 16

/-- R7 `BANK_LEN`: registers written per command. -/
def bankLen : Nat := 12

/-- R7 `SUBBLOCK_LEN`: registers per logical signal. -/
def subblockLen : Nat := 4

/-- R7 `VEL_LIMIT`: a velocity is accepted iff its magnitude is below this. -/
def velLimit : Nat := 4095

/-- R7 `DUTY_FULL`: duty = `DUTY_FULL` - |v|. -/
def dutyFull : Nat := 4095

/-- R7 `DUTY_BITS`: width of the duty value (`dutyBlock` takes a `BitVec 12`). -/
def dutyBits : Nat := 12

/-- R7 `DEV_ADDR`: bus address of the chip. -/
def devAddr : DevAddr := 0x40

/-- R7 `ON_BYTE`: level byte of an H-bridge input that is on. -/
def onByte : Byte := 0xFF

/-- R7 `OFF_BYTE`: level byte of an H-bridge input that is off. -/
def offByte : Byte := 0x00

/-- R7 `PAD_BYTE`: every unused byte of a sub-block. -/
def padByte : Byte := 0x00

/-- Number of chip registers, addresses 0..255 (R33). -/
def registerCount : Nat := 256

end Sys2Proof.Machine
end

