-- ==== Sys2Proof/Config.lean ====
section
/-! DEFINITION. The parameters of R8 as plain data, their defaults, and the values the spec leaves open:
opaque constants with no body, so that no proof can see what they are. -/

namespace Sys2Proof

/-- A 4-register group of a bank (R14, `SUBBLOCK_LEN` = 4), lowest register first. -/
structure SubBlock where
  b0 : Byte
  b1 : Byte
  b2 : Byte
  b3 : Byte
  deriving DecidableEq, Repr

/-- The four bytes of a sub-block, lowest register first. -/
def SubBlock.bytes (b : SubBlock) : List Byte := [b.b0, b.b1, b.b2, b.b3]

/-- What happens after a failed release during shutdown (R114, D12). -/
inductive ShutdownPolicy where
  | bestEffort
  | stopAtFirstError
  deriving DecidableEq, Repr

/-- The three outcomes of a transaction (R95): the bus answers Ok, answers Err, or never returns. -/
inductive BusOutcome where
  | ok
  | err
  | never
  deriving DecidableEq, Repr, Inhabited

/-- One transaction of `InitTransactions` (R8, D3). R58 gives the operands: an 8-bit start and a list of bytes,
not empty (R90). Every byte has a register (R33), and none of them is a bank register or a fourth slot
(R26, R41, R74: registers 6..69). DEDUCED, safe: assumption log 2. -/
structure InitWrite where
  start : RegAddr
  bytes : List Byte
  nonempty : bytes ≠ []
  fits : start.toNat + bytes.length ≤ 256
  offBanks : start.toNat + bytes.length ≤ 6 ∨ 70 ≤ start.toNat
  deriving DecidableEq, Repr

/-- The parameters of R8. A run never changes them (R7, R137); a claim may quantify over them.
DESIGN CHOICE (held as data in the state), safe: assumption log 3. -/
structure Params where
  /-- `InputBlock(on)` (R53, D1). -/
  inputOn : SubBlock
  /-- `InputBlock(off)` (R53, D1). -/
  inputOff : SubBlock
  /-- The two levels can be told apart (R60). DEDUCED, safe: assumption log 3. -/
  inputsDiffer : inputOn ≠ inputOff
  /-- `MAX_BLOCK`, the largest chunk of a frame (R93, D4). -/
  maxBlock : Nat
  maxBlockPos : 1 ≤ maxBlock
  /-- `InitTransactions`, in order (R69, D3). -/
  initWrites : List InitWrite
  /-- `initialize` writes something (R69). DEDUCED, safe: assumption log 2. -/
  initWritesNonempty : initWrites ≠ []
  /-- `SHUTDOWN_POLICY` (R114, D12). -/
  shutdownPolicy : ShutdownPolicy
  /-- `SHUTDOWN_AFTER_BUSERROR` (R115, D11). -/
  shutdownAfterBusError : Bool
  /-- `SIGNAL_SHUTDOWN` (R116, D18). -/
  signalShutdown : Bool
  deriving DecidableEq, Repr

/-- The OPEN place of the mode registers (D3, N1). `MODE_START` and `MODE_START+1` are two registers of the chip
outside registers 6..69 (R26, R41, R74): 0..4 or 70..254 can start the pair, 190 places.
Free value: assumption log 2. -/
opaque Config.modeSlot : Fin 190

/-- The OPEN value `MODE1_VAL` (D3). Free value: assumption log 2. -/
opaque Config.mode1Val : Byte

/-- The OPEN value `MODE2_VAL` (D3). Free value: assumption log 2. -/
opaque Config.mode2Val : Byte

/-- The OPEN parameter `SIGNAL_SHUTDOWN` (D18). Free value: assumption log 3. -/
opaque Config.signalShutdown : Bool

/-- The outcome of the n-th transaction, a free draw of the environment under no law (R95).
Free value: assumption log 4. -/
opaque Config.busOutcome : Nat → BusOutcome

/-- The number of the register a slot stands for: slots 0..4 are registers 0..4, slot 5 is register 70, and so on. -/
def Config.slotRegister (k : Fin 190) : Nat := if k.val < 5 then k.val else k.val + 65

/-- `MODE_START` (D3). -/
def Config.modeStart : RegAddr := BitVec.ofNat 8 (Config.slotRegister Config.modeSlot)

theorem Config.slotRegister_cases (k : Fin 190) :
    Config.slotRegister k ≤ 4 ∨ (70 ≤ Config.slotRegister k ∧ Config.slotRegister k ≤ 254) := by
  unfold Config.slotRegister
  split <;> omega

theorem Config.modeStart_toNat : Config.modeStart.toNat = Config.slotRegister Config.modeSlot := by
  have h := Config.slotRegister_cases Config.modeSlot
  rw [Config.modeStart, BitVec.toNat_ofNat]
  omega

/-- The default shape of `InitTransactions` (R8, R69): one transaction `(MODE_START, [MODE1_VAL, MODE2_VAL])`. -/
def Config.modeWrite : InitWrite where
  start := Config.modeStart
  bytes := [Config.mode1Val, Config.mode2Val]
  nonempty := by simp
  fits := by
    have h := Config.slotRegister_cases Config.modeSlot
    rw [Config.modeStart_toNat]
    simp only [List.length_cons, List.length_nil]
    omega
  offBanks := by
    have h := Config.slotRegister_cases Config.modeSlot
    rw [Config.modeStart_toNat]
    simp only [List.length_cons, List.length_nil]
    omega

/-- The spec's defaults (R8): D1's input blocks, a `MAX_BLOCK` that splits nothing (12 stands for every value of at
least 12: a frame has 12 bytes), the default mode transaction, `best_effort`, no shutdown after a fatal `BusError`. -/
def Config.defaultParams : Params where
  inputOn := ⟨Machine.onByte, Machine.padByte, Machine.padByte, Machine.padByte⟩
  inputOff := ⟨Machine.offByte, Machine.padByte, Machine.padByte, Machine.padByte⟩
  inputsDiffer := by decide
  maxBlock := 12
  maxBlockPos := by decide
  initWrites := [Config.modeWrite]
  initWritesNonempty := by simp
  shutdownPolicy := .bestEffort
  shutdownAfterBusError := false
  signalShutdown := Config.signalShutdown

end Sys2Proof
end

