-- ==== Sys2Proof/OperandTypes.lean ====
section
/-! DEFINITION. The operands instructions carry, as types that say what the spec accepts. -/

namespace Sys2Proof

/-- An accepted motor index, 0..3 (R14, R77). -/
abbrev Motor := Fin 4

/-- An accepted nonzero speed, the magnitude |v| of a velocity: 1..4094 (R77, R82, R83). -/
structure Speed where
  val : Nat
  pos : 1 ≤ val
  lt : val < 4095
  deriving DecidableEq, Repr

/-- The four cases of a command (R14, R50). `forward m` is `some m`, `reverse m` is `some (-m)`. -/
inductive Case where
  | release
  | brake
  | forward (m : Speed)
  | reverse (m : Speed)
  deriving DecidableEq, Repr

/-- The velocity a case stands for (R10, R50). -/
def Case.velocity : Case → Option Int
  | .release => none
  | .brake => some 0
  | .forward m => some (m.val : Int)
  | .reverse m => some (-(m.val : Int))

/-- The state of one H-bridge input (R14). -/
inductive Level where
  | on
  | off
  deriving DecidableEq, Repr

/-- A 12-byte bank image, sub-block by sub-block (R51). -/
structure Frame where
  duty : SubBlock
  input1 : SubBlock
  input2 : SubBlock
  deriving DecidableEq, Repr

/-- The frame's twelve bytes in register order (R12, R51). -/
def Frame.bytes (f : Frame) : List Byte := f.duty.bytes ++ f.input1.bytes ++ f.input2.bytes

/-- What one transaction carries: consecutive bytes for consecutive registers from `start` (R36, R58). -/
structure Block where
  start : RegAddr
  bytes : List Byte
  deriving DecidableEq, Repr

/-- The block of an initialization transaction. -/
def InitWrite.block (w : InitWrite) : Block := ⟨w.start, w.bytes⟩

/-- A token of a host line (R103, R104): numeric with its value, or any other text. -/
inductive Token where
  | num (v : Int)
  | word (text : List Byte)
  deriving DecidableEq, Repr

/-- The recorded value of `OutOfRange` (R120): the offending operand. -/
inductive OutOfRangeInfo where
  | motorIndex (i : Int)
  | velocity (v : Int)
  deriving DecidableEq, Repr

/-- The logical state of a motor (R24). -/
inductive Logical where
  | floating
  | braking
  | drivingForward (magnitude : Nat)
  | drivingReverse (magnitude : Nat)
  deriving DecidableEq, Repr

/-- The logical state a case writes (R50). -/
def Case.logical : Case → Logical
  | .release => .floating
  | .brake => .braking
  | .forward m => .drivingForward m.val
  | .reverse m => .drivingReverse m.val

end Sys2Proof
end

