-- ==== Sys2Proof/Machine/Operands.lean ====
section
/-! DEFINITION. Operand validation, bank addressing and frames: everything a request's bytes depend on. -/

namespace Sys2Proof.Machine

/-! ## Validation and case selection (R50, R77, R79) -/

/-- The motor index check: accepted in [0,3] (R77). -/
def selectMotor (i : Int) : Except OutOfRangeInfo Motor :=
  if h : 0 ≤ i ∧ i ≤ 3 then .ok ⟨i.toNat, by omega⟩ else .error (.motorIndex i)

/-- The velocity check, |v| < 4095 (R77), and the case it selects (R50). -/
def selectCase (vel : Option Int) : Except OutOfRangeInfo Case :=
  match vel with
  | none => .ok .release
  | some v =>
    if hb : 4095 ≤ v.natAbs then .error (.velocity v)
    else if hz : v = 0 then .ok .brake
    else if 0 < v then .ok (.forward ⟨v.natAbs, by omega, by omega⟩)
    else .ok (.reverse ⟨v.natAbs, by omega, by omega⟩)

/-- Validation in the spec's order, index first (R79, R125), and case selection (R50). -/
def validate (i : Int) (vel : Option Int) : Except OutOfRangeInfo (Motor × Case) :=
  match selectMotor i with
  | .error e => .error e
  | .ok m =>
    match selectCase vel with
    | .error e => .error e
    | .ok c => .ok (m, c)

/-! ## Bank addressing (R64 to R68) -/

/-- `base_register` on its domain (R64): 6 + 16 * i. -/
def bankStart (i : Motor) : RegAddr := BitVec.ofNat 8 (bankBase0 + bankStride * i.val)

/-- `base_register` on every integer (R65): nothing outside 0..3. -/
def baseRegister (i : Int) : Option RegAddr :=
  match selectMotor i with
  | .ok m => some (bankStart m)
  | .error _ => none

/-- The motor whose bank starts at a register, if any (R66). -/
def motorOfBank (start : RegAddr) : Option Motor :=
  if start = bankStart 0 then some 0
  else if start = bankStart 1 then some 1
  else if start = bankStart 2 then some 2
  else if start = bankStart 3 then some 3
  else none

/-- The first register of chip channel `c`, 0..15 (R42). -/
def channelStart (c : Fin 16) : Nat := bankBase0 + subblockLen * c.val

/-! ## Frames (R51 to R56) -/

/-- The input sub-block of a level (R53), through the `InputBlock` parameter (D1). -/
def inputBlock (p : Params) : Level → SubBlock
  | .on => p.inputOn
  | .off => p.inputOff

/-- The duty sub-block (R52): low byte, zero-extended high nibble, two pads. -/
def dutyBlock (d : BitVec 12) : SubBlock :=
  ⟨d.extractLsb' 0 8, (d.extractLsb' 8 4).zeroExtend 8, padByte, padByte⟩

/-- The inverted duty of a speed (R55, R84): 4095 - |v|. -/
def dutyOfSpeed (m : Speed) : BitVec 12 := BitVec.ofNat 12 (dutyFull - m.val)

/-- R80: zero duty, both inputs off. -/
def releaseFrame (p : Params) : Frame := ⟨dutyBlock 0, inputBlock p .off, inputBlock p .off⟩

/-- R81: zero duty, both inputs on. -/
def brakeFrame (p : Params) : Frame := ⟨dutyBlock 0, inputBlock p .on, inputBlock p .on⟩

/-- R82: duty 4095 - v, input 1 off, input 2 on. -/
def forwardFrame (p : Params) (m : Speed) : Frame :=
  ⟨dutyBlock (dutyOfSpeed m), inputBlock p .off, inputBlock p .on⟩

/-- R83: duty 4095 - |v|, input 1 on, input 2 off. -/
def reverseFrame (p : Params) (m : Speed) : Frame :=
  ⟨dutyBlock (dutyOfSpeed m), inputBlock p .on, inputBlock p .off⟩

/-- The frame of a case (R56). -/
def frameOf (p : Params) : Case → Frame
  | .release => releaseFrame p
  | .brake => brakeFrame p
  | .forward m => forwardFrame p m
  | .reverse m => reverseFrame p m

/-! ## Splitting (R93) -/

/-- Consecutive chunks of at most `size` bytes; `fuel` bounds their count. -/
def chunksFrom (size : Nat) : Nat → RegAddr → List Byte → List Block
  | 0, _, _ => []
  | fuel + 1, start, bytes =>
    if bytes.isEmpty then []
    else ⟨start, bytes.take size⟩ ::
      chunksFrom size fuel (start + BitVec.ofNat 8 size) (bytes.drop size)

/-- The transactions `Emit` sends for the bytes at `start` (R93): one if they fit in `MAX_BLOCK`. -/
def splitBlock (p : Params) (start : RegAddr) (bytes : List Byte) : List Block :=
  chunksFrom p.maxBlock bytes.length start bytes

end Sys2Proof.Machine
end

