-- ==== Sys2Proof/Machine/Text.lean ====
section
/-! DEFINITION. The text of the host's language: lines, tokens and integers over ASCII bytes (R102 to R104, D13, D21, D23),
read and written. -/

namespace Sys2Proof.Machine

/-- The newline 0x0A that ends a line (R102). -/
def newline : Byte := 0x0A

/-- The whitespace of R103: space, tab, vertical tab, form feed, carriage return. -/
def isSpace (b : Byte) : Bool := b = 0x20 || b = 0x09 || b = 0x0B || b = 0x0C || b = 0x0D

/-- The value of an ASCII decimal digit (R104). -/
def digitValue (b : Byte) : Option Nat :=
  if 0x30 ≤ b.toNat ∧ b.toNat ≤ 0x39 then some (b.toNat - 0x30) else none

/-- The value of a run of digits, read after a number `acc`. -/
def digitsValue (acc : Nat) : List Byte → Option Nat
  | [] => some acc
  | b :: rest =>
    match digitValue b with
    | some d => digitsValue (10 * acc + d) rest
    | none => none

/-- The value of one or more digits, `[0-9]+`. -/
def naturalValue (text : List Byte) : Option Nat :=
  match text with
  | [] => none
  | _ :: _ => digitsValue 0 text

/-- The value of a numeric token, `[+-]?[0-9]+` (R104); `none` for every other text. -/
def numericValue (text : List Byte) : Option Int :=
  match text with
  | [] => none
  | b :: rest =>
    if b = 0x2D then (naturalValue rest).map fun (n : Nat) => -(n : Int)
    else if b = 0x2B then (naturalValue rest).map fun (n : Nat) => (n : Int)
    else (naturalValue text).map fun (n : Nat) => (n : Int)

/-- R104: a token is its value if it is numeric, else its text. -/
def readToken (text : List Byte) : Token :=
  match numericValue text with
  | some v => .num v
  | none => .word text

/-- Splits a line on runs of whitespace (R103); `current` holds the bytes of the token being read. -/
def splitFrom (current : List Byte) : List Byte → List (List Byte)
  | [] => if current.isEmpty then [] else [current]
  | b :: rest =>
    if isSpace b then
      if current.isEmpty then splitFrom [] rest else current :: splitFrom [] rest
    else splitFrom (current ++ [b]) rest

/-- The tokens of a line (R103, R104). -/
def lineTokens (line : List Byte) : List Token := (splitFrom [] line).map readToken

/-- The first line of a stream and what follows its newline, if the stream has a newline (R102). -/
def takeLine : List Byte → Option (List Byte × List Byte)
  | [] => none
  | b :: rest =>
    if b = newline then some ([], rest)
    else (takeLine rest).map fun p => (b :: p.1, p.2)

/-- The ASCII digit of a value below ten. -/
def digitByte (d : Nat) : Byte := BitVec.ofNat 8 (0x30 + d)

/-- The decimal digits of a number, most significant first; `fuel` bounds their count. -/
def digitsText : Nat → Nat → List Byte
  | 0, _ => []
  | fuel + 1, n =>
    if n < 10 then [digitByte n] else digitsText fuel (n / 10) ++ [digitByte (n % 10)]

/-- A natural number in decimal. -/
def naturalText (n : Nat) : List Byte := digitsText (n + 1) n

/-- An integer in decimal, with a sign only if it is negative. -/
def integerText : Int → List Byte
  | .ofNat n => naturalText n
  | .negSucc n => 0x2D :: naturalText (n + 1)

/-- A token as text. -/
def tokenText : Token → List Byte
  | .num v => integerText v
  | .word text => text

/-- Tokens as a line, one space between two of them. -/
def lineText : List Token → List Byte
  | [] => []
  | [t] => tokenText t
  | t :: rest => tokenText t ++ 0x20 :: lineText rest

end Sys2Proof.Machine
end

