-- ==== Sys2Proof/Syntax.lean ====
section
/-! DEFINITION. The instructions: one constructor for each row of spec/opcode_table.json, in the table's order. -/

namespace Sys2Proof

/-- The block's requests and their cases, the two interface functions, and the host's line forms. -/
inductive Instr where
  /-- INITIALIZE (R69): the request `Initialize(bus)`. -/
  | initializeChip
  /-- CMD_RELEASE (R80): `Command(bus, i, none)`. -/
  | cmdRelease (i : Motor)
  /-- CMD_BRAKE (R81): `Command(bus, i, some 0)`. -/
  | cmdBrake (i : Motor)
  /-- CMD_FORWARD (R82): `Command(bus, i, some m)`, 1 <= m <= 4094. -/
  | cmdForward (i : Motor) (m : Speed)
  /-- CMD_REVERSE (R83): `Command(bus, i, some (-m))`, 1 <= m <= 4094. -/
  | cmdReverse (i : Motor) (m : Speed)
  /-- REJECT_OUT_OF_RANGE (R79): `Command(bus, i, vel)` with an operand outside its range. -/
  | rejectOutOfRange (i : Int) (vel : Option Int)
  /-- BASE_REGISTER (R64): the internal function `base_register(i)`. -/
  | baseRegister (i : Int)
  /-- WRITE_BLOCK (R90): one call `write_block(dev, start, bytes)`. -/
  | writeBlock (dev : DevAddr) (start : RegAddr) (bytes : List Byte)
  /-- RELEASE_ALL (R106): a line of 0 tokens. -/
  | releaseAll
  /-- RELEASE_ONE (R107): a line of 1 token. -/
  | releaseOne (t0 : Token)
  /-- SET_ONE (R108): a line of 2 tokens. -/
  | setOne (t0 t1 : Token)
  /-- SET_ALL (R109): a line of 4 tokens. -/
  | setAll (t0 t1 t2 t3 : Token)
  /-- MALFORMED (R110): a line of 3 tokens, or of 5 or more. -/
  | malformed (tokens : List Token)
  /-- END_OF_STREAM (R113): the end of the input. -/
  | endOfStream
  deriving DecidableEq, Repr

end Sys2Proof
end

