-- ==== Sys2Proof/WellFormed.lean ====
section
/-! DEFINITION. Which instruction terms are instructions of the spec. A motor index and a speed carry their own range;
the checks here are those the types do not make. -/

namespace Sys2Proof

/-- A token as a line can hold it (R103, R104): a number, or non-empty text with no whitespace and no newline
that is not numeric. -/
def Token.wf : Token → Bool
  | .num _ => true
  | .word text =>
    !text.isEmpty && text.all (fun b => !Machine.isSpace b && b != Machine.newline) &&
      (Machine.numericValue text).isNone

/-- The operands of a rejected request (R59, R79): the index or the velocity is out of its range. -/
def outOfRangeOperands (i : Int) (vel : Option Int) : Bool :=
  match Machine.validate i vel with
  | .error _ => true
  | .ok _ => false

/-- The operands of `write_block` (R90, R91, R33): the device 0x40, a non-empty list, a register for every byte. -/
def blockOperands (dev : DevAddr) (start : RegAddr) (bytes : List Byte) : Bool :=
  dev = Machine.devAddr && !bytes.isEmpty && decide (start.toNat + bytes.length ≤ Machine.registerCount)

/-- Well-formed instructions. -/
def Instr.wf : Instr → Bool
  | .initializeChip => true
  | .cmdRelease _ => true
  | .cmdBrake _ => true
  | .cmdForward _ _ => true
  | .cmdReverse _ _ => true
  | .rejectOutOfRange i vel => outOfRangeOperands i vel
  | .baseRegister _ => true
  | .writeBlock dev start bytes => blockOperands dev start bytes
  | .releaseAll => true
  | .releaseOne t0 => t0.wf
  | .setOne t0 t1 => t0.wf && t1.wf
  | .setAll t0 t1 t2 t3 => t0.wf && t1.wf && t2.wf && t3.wf
  | .malformed ts => (ts.length == 3 || decide (5 ≤ ts.length)) && ts.all Token.wf
  | .endOfStream => true

end Sys2Proof
end

