-- ==== Sys2Proof/Decode.lean ====
section
/-! DEFINITION. The decoder and the encoder. The block has no binary instruction word: its interface has the three
encodings of 30_encoding.md (typed requests, 12-byte frames, transactions), and the host's lines of text. An `Item` is one
encoded instruction in any of them. -/

namespace Sys2Proof

/-- One encoded instruction. -/
inductive Item where
  /-- The request `Initialize(bus)` (R49). -/
  | initRequest
  /-- The request `Command(bus, i, vel)` (R49); its operands may be out of range. -/
  | command (i : Int) (vel : Option Int)
  /-- A call of `base_register` (R64). -/
  | baseCall (i : Int)
  /-- A call of `write_block` (R58, R90). -/
  | blockCall (dev : DevAddr) (start : RegAddr) (bytes : List Byte)
  /-- A register image with its start register, keyed as the opcode table keys the commands (R57, R60). -/
  | image (start : RegAddr) (bytes : List Byte)
  /-- A line of the input stream, without its newline (R102). -/
  | line (text : List Byte)
  /-- The end of the input stream (R113). -/
  | streamEnd
  deriving DecidableEq, Repr

/-- Why an item is no instruction. -/
inductive DecodeError where
  /-- R62: a command frame has exactly 12 bytes. -/
  | frameLength (n : Nat)
  /-- R61: a padding byte of the duty sub-block is non-zero. -/
  | dutyPadding
  /-- R61: bits 7..4 of byte 1 are non-zero. -/
  | dutyHighNibble
  /-- R61: an input sub-block is neither `InputBlock(on)` nor `InputBlock(off)`. -/
  | inputLevel
  /-- R61: the levels are equal but the duty is non-zero. -/
  | equalLevelsDuty (d : Nat)
  /-- R61: the levels are complementary but the duty is 0 or 4095. -/
  | drivingDuty (d : Nat)
  /-- R39, R66: no bank and no mode transaction starts there. -/
  | startRegister (start : RegAddr)
  /-- R91: a device other than 0x40. -/
  | foreignDevice (dev : DevAddr)
  /-- R90: an empty list of bytes. -/
  | emptyBlock
  /-- R33: a byte past register 255. -/
  | pastLastRegister
  deriving DecidableEq, Repr

open Machine in
/-- The level an input sub-block stands for (R53). -/
def levelOf (p : Params) (b : SubBlock) : Option Level :=
  if b = inputBlock p .off then some .off
  else if b = inputBlock p .on then some .on
  else none

/-- The case of a duty and a level pair (R60, R61). -/
def caseOfImage (d : Nat) (l1 l2 : Level) : Except DecodeError Case :=
  match l1, l2 with
  | .off, .off => if d = 0 then .ok .release else .error (.equalLevelsDuty d)
  | .on, .on => if d = 0 then .ok .brake else .error (.equalLevelsDuty d)
  | .off, .on =>
    if h : 1 ≤ d ∧ d < 4095 then .ok (.forward ⟨4095 - d, by omega, by omega⟩) else .error (.drivingDuty d)
  | .on, .off =>
    if h : 1 ≤ d ∧ d < 4095 then .ok (.reverse ⟨4095 - d, by omega, by omega⟩) else .error (.drivingDuty d)

/-- Decodes a bank image back to its case (R60); an image the block never writes is refused (R61, D28). -/
def decodeFrame (p : Params) (bytes : List Byte) : Except DecodeError Case :=
  match bytes with
  | [d0, d1, d2, d3, a0, a1, a2, a3, b0, b1, b2, b3] =>
    if d2 ≠ Machine.padByte ∨ d3 ≠ Machine.padByte then .error .dutyPadding
    else if 16 ≤ d1.toNat then .error .dutyHighNibble
    else
      match levelOf p ⟨a0, a1, a2, a3⟩, levelOf p ⟨b0, b1, b2, b3⟩ with
      | some l1, some l2 => caseOfImage (d0.toNat + 256 * d1.toNat) l1 l2
      | _, _ => .error .inputLevel
  | _ => .error (.frameLength bytes.length)

/-- The instruction of an accepted command (R50). -/
def caseInstr (m : Motor) : Case → Instr
  | .release => .cmdRelease m
  | .brake => .cmdBrake m
  | .forward s => .cmdForward m s
  | .reverse s => .cmdReverse m s

/-- Decodes the request `Command(bus, i, vel)`: validation, then case selection (R50, R79). -/
def decodeCommand (i : Int) (vel : Option Int) : Instr :=
  match Machine.validate i vel with
  | .ok (m, c) => caseInstr m c
  | .error _ => .rejectOutOfRange i vel

/-- Decodes a line by its token count (R105). -/
def decodeLine (text : List Byte) : Instr :=
  match Machine.lineTokens text with
  | [] => .releaseAll
  | [t0] => .releaseOne t0
  | [t0, t1] => .setOne t0 t1
  | [t0, t1, t2, t3] => .setAll t0 t1 t2 t3
  | ts => .malformed ts

/-- Decodes a `write_block` call, refusing operands outside R90's ranges by name. -/
def decodeBlockCall (dev : DevAddr) (start : RegAddr) (bytes : List Byte) : Except DecodeError Instr :=
  if dev ≠ Machine.devAddr then .error (.foreignDevice dev)
  else if bytes.isEmpty then .error .emptyBlock
  else if Machine.registerCount < start.toNat + bytes.length then .error .pastLastRegister
  else .ok (.writeBlock dev start bytes)

/-- Decodes a register image: a bank image by its frame (R60), the mode transaction by the parameters (R69). -/
def decodeImage (p : Params) (start : RegAddr) (bytes : List Byte) : Except DecodeError Instr :=
  match Machine.motorOfBank start with
  | some m =>
    match decodeFrame p bytes with
    | .ok c => .ok (caseInstr m c)
    | .error e => .error e
  | none =>
    if p.initWrites.map InitWrite.block = [⟨start, bytes⟩] then .ok .initializeChip
    else .error (.startRegister start)

/-- The decoder, total on every item. -/
def decode (p : Params) : Item → Except DecodeError Instr
  | .initRequest => .ok .initializeChip
  | .command i vel => .ok (decodeCommand i vel)
  | .baseCall i => .ok (.baseRegister i)
  | .blockCall dev start bytes => decodeBlockCall dev start bytes
  | .image start bytes => decodeImage p start bytes
  | .line text => .ok (decodeLine text)
  | .streamEnd => .ok .endOfStream

/-! ## The encoder -/

/-- The item of an instruction: its request, its call, or its line. -/
def encode : Instr → Item
  | .initializeChip => .initRequest
  | .cmdRelease i => .command i.val none
  | .cmdBrake i => .command i.val (some 0)
  | .cmdForward i m => .command i.val (some m.val)
  | .cmdReverse i m => .command i.val (some (-(m.val : Int)))
  | .rejectOutOfRange i vel => .command i vel
  | .baseRegister i => .baseCall i
  | .writeBlock dev start bytes => .blockCall dev start bytes
  | .releaseAll => .line []
  | .releaseOne t0 => .line (Machine.lineText [t0])
  | .setOne t0 t1 => .line (Machine.lineText [t0, t1])
  | .setAll t0 t1 t2 t3 => .line (Machine.lineText [t0, t1, t2, t3])
  | .malformed ts => .line (Machine.lineText ts)
  | .endOfStream => .streamEnd

/-- The register image of an accepted command (R56, R58). -/
def encodeImage (p : Params) (m : Motor) (c : Case) : Item :=
  .image (Machine.bankStart m) (Machine.frameOf p c).bytes

/-! ## Words numbered as the opcode table numbers them -/

/-- The first `n` bytes of a word, least significant first. -/
def wordBytes : Nat → Nat → List Byte
  | 0, _ => []
  | n + 1, w => BitVec.ofNat 8 w :: wordBytes n (w / 256)

/-- The item a word stands for. 96 bits are a 12-byte frame (R57); the motor index has no bits in the table, so it is 0.
No bits are the end of the stream. Any other width is text: the line up to its newline.
DESIGN CHOICE, safe: assumption log 9. -/
def tableItem (nbits w : Nat) : Item :=
  if nbits = 96 then .image (Machine.bankStart 0) (wordBytes Machine.bankLen w)
  else if nbits = 0 then .streamEnd
  else
    let text := wordBytes ((nbits + 7) / 8) w
    match Machine.takeLine text with
    | some (line, _) => .line line
    | none => .line text

/-- The instruction the decoder reads from a word, under the spec's default parameters. -/
def decodeTableWord (nbits w : Nat) : Option Instr :=
  match decode Config.defaultParams (tableItem nbits w) with
  | .ok i => some i
  | .error _ => none

end Sys2Proof
end

