-- ==== Sys2Proof/Machine/State.lean ====
section
/-! DEFINITION. The state, as plain data: the spec's sequencing monitor (R19) with the chip's register image, the bus, the
caller's side of the request interface, the host, and the parameters; and the reasons a step can stop. -/

namespace Sys2Proof.Machine

/-- The phases of the sequencing monitor (R19). -/
inductive Phase where
  /-- `initialize` has not yet succeeded and has not failed. -/
  | fresh
  /-- `initialize` succeeded. -/
  | ready
  /-- A `BusError` occurred (fatal). -/
  | dead
  deriving DecidableEq, Repr

/-- The model faults of R124. A request that meets one records it in the state and has no other effect;
the machine goes on (95_test_vectors.md P8). -/
inductive ModelFault where
  /-- `command` while `phase = Fresh`. -/
  | notInitialized
  /-- `initialize` while `phase = Ready`. -/
  | reInitialized
  /-- Any request while `phase = Dead`, except a shutdown attempt. -/
  | afterBusError
  /-- `base_register` reached with an index outside 0..3. -/
  | baseRegisterDomain
  deriving DecidableEq, Repr

/-- The register image (R19): address and byte of every register whose contents are known. Addresses rise strictly and are
below 256 (`Memory.wf`). An address not listed reads as `none`, unknown (R28, D19): assumption log 1. -/
abbrev Memory := List Host.Cell

/-- The outcome a transaction record shows (R20). -/
inductive TxOutcome where
  | ok
  | err
  deriving DecidableEq, Repr

/-- A transaction record `(dev, start, bytes, outcome)` (R20). -/
structure Transaction where
  dev : DevAddr
  start : RegAddr
  bytes : List Byte
  outcome : TxOutcome
  deriving DecidableEq, Repr

/-- The result of a request (R18). -/
inductive Result where
  | ok
  | outOfRange (info : OutOfRangeInfo)
  | busError
  deriving DecidableEq, Repr

/-- The sequencing monitor of R19: the record of what the source allows, and of what the block wrote. -/
structure Monitor where
  phase : Phase
  /-- The recorded faults, a set: no repeats, in the order of R124's table (assumption log 5). -/
  faults : List ModelFault
  regs : Memory
  /-- Every transaction that returned, in issue order. -/
  trace : List Transaction
  /-- `initialize` has succeeded (R70, R139): R36 may be relied on. `phase` forgets it when a `BusError` makes it Dead. -/
  configured : Bool
  deriving DecidableEq, Repr

/-- How a run ended (R152). -/
inductive EndKind where
  /-- (a) Every line processed, the shutdown completed or abandoned under `SHUTDOWN_POLICY`. -/
  | normal
  /-- (b) A `BusError` outside shutdown. -/
  | fatalBusError
  /-- (c) `initialize` failed. -/
  | fatalInitialize
  /-- (d) An interrupt signal. -/
  | signalled
  deriving DecidableEq, Repr

/-- What a request sends (R92): `InitTransactions` (R69), or the frame of an accepted command on a motor (R85). -/
inductive Sending where
  | modes
  | frame (m : Motor) (c : Case)
  deriving DecidableEq, Repr

/-- Who waits for a request's result. -/
inductive Waiting where
  /-- A caller that handed the request over directly (R131). -/
  | caller
  /-- The host, at its startup (R101). -/
  | startup
  /-- The host, in a line (R117 `sub`). -/
  | line
  /-- The host, in its shutdown (R117 `shutdown_sub`): the motor released, those still to be released, how the run then ends. -/
  | shutdown (i : Int) (rest : List Int) (how : EndKind)
  deriving DecidableEq, Repr

/-- A request some of whose transactions have been sent and some not (R93, R144): its next transaction is a step of its own. -/
structure Transfer where
  what : Sending
  /-- How many of its transactions have been sent: `j` of R93's loop. -/
  sent : Nat
  waiting : Waiting
  deriving DecidableEq, Repr

/-- The bus as the environment (R95). The model's own fields: assumption log 4. -/
structure BusState where
  /-- The outcomes the bus will give next, as far as they are known; after them every outcome is a free draw. -/
  outcomes : List BusOutcome
  /-- How many outcomes have been used; the free draws are numbered by it. -/
  draws : Nat
  /-- A transaction never returned: the block and the host are blocked for ever (R95, R146). -/
  blocked : Bool
  /-- The request whose transactions are being sent; `none` between requests. At most one (R45, R97). -/
  transfer : Option Transfer
  deriving DecidableEq, Repr

/-- The caller's side of the request interface (R16, R18): assumption log 6 and 7. -/
structure CallState where
  /-- Requests handed over and not yet taken, oldest first (95_test_vectors.md P8). -/
  inbox : List Item
  /-- The result of the last request; `none` before any, while a request's transactions are being sent,
  and after one that recorded a fault or never returned. -/
  answer : Option Result
  /-- The register offset the last `base_register` call gave (R64). -/
  offset : Option RegAddr
  deriving DecidableEq, Repr

/-- The kinds of diagnostics (R112). -/
inductive DiagKind where
  | parseError
  | outOfRangeMotorIndex
  | outOfRangeVelocity
  | busError
  deriving DecidableEq, Repr

/-- The line field of a diagnostic (R112): a line number, or the end-of-stream marker `eos`. -/
inductive DiagLine where
  | line (n : Nat)
  | eos
  deriving DecidableEq, Repr

/-- A diagnostic `Diag(kind, line_number, value?)` (R112, D20). -/
structure Diag where
  kind : DiagKind
  line : DiagLine
  value : Option Int
  deriving DecidableEq, Repr

/-- Where the host is in its loop (R101, R117). -/
inductive HostStage where
  | startup
  | reading
  /-- The shutdown release-all (R113, R117 `shutdown_sub`): the motors still to be released, and how the run then ends. -/
  | stopping (rest : List Int) (how : EndKind)
  | ended (how : EndKind)
  deriving DecidableEq, Repr

/-- The host (R100 to R119). -/
structure HostState where
  stage : HostStage
  /-- The bytes that have arrived and are not yet read (R102). -/
  stream : List Byte
  /-- The input ends after `stream` (assumption log 8). -/
  inputEnded : Bool
  /-- The number of the line taken last, the line being processed unless another was handed over meanwhile (assumption log 7); the
  first is 1. -/
  line : Nat
  /-- The requests of that line that are still to be issued, in order (R48, R105). -/
  pending : List (Int × Option Int)
  diags : List Diag
  /-- An interrupt signal arrives after this many more host requests and `ParseError` lines; `none`: no signal (R116, assumption
  log 10). -/
  signalIn : Option Nat
  deriving DecidableEq, Repr

/-- The machine's state. -/
structure State where
  params : Params
  mon : Monitor
  bus : BusState
  call : CallState
  host : HostState
  deriving DecidableEq, Repr

/-- Why the machine stops with a fault. Raised by WRITE_BLOCK alone, on operands outside R90's ranges, for which the spec
gives no effect (91_not_in_source.md N8). Safe: the model stops where the chip might do anything (assumption log 12). -/
inductive Fault where
  /-- WRITE_BLOCK to a device other than 0x40 (R91). Safe. -/
  | noSuchDevice
  /-- WRITE_BLOCK of an empty list (R90). Safe. -/
  | emptyBlock
  /-- WRITE_BLOCK with a byte past register 255 (R33). Safe. -/
  | noSuchRegister
  deriving DecidableEq, Repr

/-- Why an instruction has no meaning. -/
inductive Refusal where
  /-- An instruction not modelled yet: raised by no arm. Safe. -/
  | notModelled (mnemonic : String)
  /-- The step's item is no instruction (R61, D28): raised by `runItem`. Safe. -/
  | undecodable (e : DecodeError)
  /-- REJECT_OUT_OF_RANGE on operands that are in range, which is no request of the row: raised by its meaning. Safe. -/
  | nothingToReject
  deriving DecidableEq, Repr

/-- The state at process start under given parameters (R28, R137). The host's own fields: DESIGN CHOICE, assumption log 8, 10
and 25; the bus and the inbox: assumption log 4 and 7. -/
def State.resetWith (p : Params) : State where
  params := p
  mon := { phase := .fresh, faults := [], regs := [], trace := [], configured := false }
  bus := { outcomes := [], draws := 0, blocked := false, transfer := none }
  call := { inbox := [], answer := none, offset := none }
  host := { stage := .startup, stream := [], inputEnded := false, line := 0, pending := [], diags := [], signalIn := none }

/-- The state at process start under the spec's default parameters. -/
def State.reset : State := State.resetWith Config.defaultParams

end Sys2Proof.Machine
end

