-- ==== Sys2Proof/Machine/Flags.lean ====
section
/-! DEFINITION. The block has no flags (R18): a request's typed result takes their place. This file classifies results and
diagnostics by error kind and gives the kinds their codes. -/

namespace Sys2Proof.Machine

/-- The error kinds of R120. -/
inductive ErrorKind where
  | ok
  | outOfRange
  | parseError
  | busError
  deriving DecidableEq, Repr

/-- The codes of R120 (D16), labels only. -/
def ErrorKind.code : ErrorKind → Nat
  | .ok => 0
  | .outOfRange => 1
  | .parseError => 2
  | .busError => 3

/-- Only a `BusError` is fatal (R120). -/
def ErrorKind.fatal : ErrorKind → Bool
  | .busError => true
  | _ => false

/-- The kind of a result (R18). -/
def Result.kind : Result → ErrorKind
  | .ok => .ok
  | .outOfRange _ => .outOfRange
  | .busError => .busError

/-- The kind a diagnostic reports (R112). -/
def DiagKind.kind : DiagKind → ErrorKind
  | .parseError => .parseError
  | .outOfRangeMotorIndex => .outOfRange
  | .outOfRangeVelocity => .outOfRange
  | .busError => .busError

/-- The diagnostic of a rejected sub-command of line `n`, with its offending value (R111, R112). -/
def outOfRangeDiag (n : Nat) : OutOfRangeInfo → Diag
  | .motorIndex i => ⟨.outOfRangeMotorIndex, .line n, some i⟩
  | .velocity v => ⟨.outOfRangeVelocity, .line n, some v⟩

end Sys2Proof.Machine
end

