-- ==== Sys2Proof/Machine/Ops.lean ====
section
/-! DEFINITION. The named operations: the register image, recording a fault, answering a request, a bus transaction, `Emit`,
the phase check, and the whole `command` operation of R78. -/

namespace Sys2Proof.Machine

/-! ## The register image -/

/-- What is known of a register (R19). -/
def Memory.read (m : Memory) (a : Nat) : Option Byte :=
  match m with
  | [] => none
  | (k, b) :: rest => if k = a then some b else Memory.read rest a

/-- A register takes a byte (R11 `MemWrite`). -/
def Memory.write (m : Memory) (a : Nat) (b : Byte) : Memory :=
  match m with
  | [] => [(a, b)]
  | (k, c) :: rest =>
    if a < k then (a, b) :: (k, c) :: rest
    else if a = k then (a, b) :: rest
    else (k, c) :: Memory.write rest a b

/-- A register becomes unknown. -/
def Memory.forget (m : Memory) (a : Nat) : Memory :=
  match m with
  | [] => []
  | (k, c) :: rest => if k = a then Memory.forget rest a else (k, c) :: Memory.forget rest a

/-- Consecutive registers take consecutive bytes (R36). -/
def Memory.writeBytes (m : Memory) (a : Nat) : List Byte → Memory
  | [] => m
  | b :: rest => Memory.writeBytes (Memory.write m a b) (a + 1) rest

/-- `n` consecutive registers become unknown (R95). -/
def Memory.forgetRange (m : Memory) (a : Nat) : Nat → Memory
  | 0 => m
  | n + 1 => Memory.forgetRange (Memory.forget m a) (a + 1) n

/-- The canonical form from address `lo` on: strictly rising addresses below 256. -/
def Memory.wfFrom (lo : Nat) : Memory → Bool
  | [] => true
  | (a, _) :: rest => decide (lo ≤ a) && decide (a < registerCount) && Memory.wfFrom (a + 1) rest

/-- The canonical form of the register image. -/
def Memory.wf (m : Memory) : Bool := Memory.wfFrom 0 m

/-- What a transaction does to the register image (R95): on Ok every targeted register takes its byte, on Err every
targeted register becomes unknown. -/
def applyTransaction (m : Memory) (t : Transaction) : Memory :=
  match t.outcome with
  | .ok => Memory.writeBytes m t.start.toNat t.bytes
  | .err => Memory.forgetRange m t.start.toNat t.bytes.length

/-- The register image a list of transactions leaves, from an unknown chip (R45). -/
def replay (ts : List Transaction) : Memory := ts.foldl applyTransaction []

/-! ## Faults, results, diagnostics -/

/-- Adds a fault to the set: no repeats, in the order of R124's table. -/
def addFault (f : ModelFault) (fs : List ModelFault) : List ModelFault :=
  [ModelFault.notInitialized, .reInitialized, .afterBusError, .baseRegisterDomain].filter
    fun g => decide (g = f) || decide (g ∈ fs)

/-- The caller receives a result (R18). -/
def State.answerWith (r : Option Result) (s : State) : State :=
  { s with call := { s.call with answer := r } }

/-- A request records a model fault (R124): nothing else changes, and it has no result. The machine goes on.
DEDUCED, safe: assumption log 11. -/
def State.recordFault (f : ModelFault) (s : State) : State :=
  State.answerWith none { s with mon := { s.mon with faults := addFault f s.mon.faults } }

/-- The host writes a diagnostic (R112). -/
def State.addDiag (d : Diag) (s : State) : State :=
  { s with host := { s.host with diags := s.host.diags ++ [d] } }

/-- The phase of the monitor changes (R19). -/
def State.setPhase (p : Phase) (s : State) : State := { s with mon := { s.mon with phase := p } }

/-- `initialize` has succeeded: the phase becomes Ready, from Fresh alone (R19, R69), and R36 may be relied on from now on (R139). -/
def State.configure (s : State) : State :=
  match s.mon.phase with
  | .fresh => { s with mon := { s.mon with phase := .ready, configured := true } }
  | .ready => s
  | .dead => s

/-- A transaction does not return (R95): the machine is blocked for ever (R146). DEDUCED, safe: assumption log 13. -/
def State.block (s : State) : State := { s with bus := { s.bus with blocked := true } }

/-! ## Bus transactions (R90, R95) -/

/-- The outcome the next transaction has: the environment's, or a free draw (R95, assumption log 4). -/
def State.nextOutcome (s : State) : BusOutcome :=
  match s.bus.outcomes with
  | o :: _ => o
  | [] => Config.busOutcome s.bus.draws

/-- That outcome is used up. -/
def State.useOutcome (s : State) : State :=
  { s with bus := { s.bus with outcomes := s.bus.outcomes.tail, draws := s.bus.draws + 1 } }

/-- A transaction that returned: its effect on the register image (R36, R95) and its record (R20). -/
def State.recordTransaction (t : Transaction) (s : State) : State :=
  { s with mon := { s.mon with regs := applyTransaction s.mon.regs t, trace := s.mon.trace ++ [t] } }

/-- The record of a block's transaction to the chip (R91: always device 0x40). -/
def Block.record (b : Block) (o : TxOutcome) : Transaction := ⟨devAddr, b.start, b.bytes, o⟩

/-- A transaction that answered Ok on a chip whose auto-increment is not known to be on (R139): which of the targeted registers
took which byte is unknown, so all of them become unknown. -/
def State.recordUnplaced (t : Transaction) (s : State) : State :=
  { s with mon := { s.mon with regs := Memory.forgetRange s.mon.regs t.start.toNat t.bytes.length, trace := s.mon.trace ++ [t] } }

/-- `initialize` has succeeded (R19, R139): R36 may be relied on. -/
def State.initialized (s : State) : Bool := s.mon.configured || decide (s.mon.phase = .ready)

/-- A transaction that answered Ok. `inc` says that R36 may be relied on; a single byte goes to its register without it (R139).
DEDUCED, safe: assumption log 15. -/
def State.recordOk (inc : Bool) (b : Block) (s : State) : State :=
  if inc || decide (b.bytes.length ≤ 1) then s.recordTransaction (Block.record b .ok)
  else s.recordUnplaced (Block.record b .ok)

/-- One `write_block` to the chip (R90, R95). -/
def busWrite (inc : Bool) (b : Block) (s : State) : BusOutcome × State :=
  match s.nextOutcome with
  | .ok => (.ok, s.useOutcome.recordOk inc b)
  | .err => (.err, s.useOutcome.recordTransaction (Block.record b .err))
  | .never => (.never, s.useOutcome)

/-- How a request ends on the outcome of its transactions (R18, R95): Ok; BusError and `phase <- Dead`; or no end. A BusError does
not of itself end the host: the host reacts to the results of its own requests alone (`reactTo`, R115), and one that a direct
caller receives leaves it running. DESIGN CHOICE, unsafe: assumption log 27. -/
def finish : BusOutcome × State → State
  | (.ok, s) => s.answerWith (some .ok)
  | (.err, s) => (s.setPhase .dead).answerWith (some .busError)
  | (.never, s) => (s.answerWith none).block

/-! ## The transactions of a request (R92, R93) -/

/-- The transactions a request sends, in order (R92): `InitTransactions` as they are (DEDUCED: assumption log 16), or the frame,
in one transaction or split under `MAX_BLOCK` (R93). -/
def Sending.blocks (p : Params) : Sending → List Block
  | .modes => p.initWrites.map InitWrite.block
  | .frame m c => splitBlock p (bankStart m) (frameOf p c).bytes

/-- Whether R36 may be relied on for a request's transactions: for `initialize`'s own, whose bytes land (R29), and once
`initialize` has succeeded. A shutdown attempt in Dead may come when it never did; where its bytes land is then unknown, for R139
takes R36 away, and the model follows R139 there and not R86. DEDUCED, safe: assumption log 15. -/
def Sending.relies (s : State) : Sending → Bool
  | .modes => true
  | .frame _ _ => s.initialized

/-- How a request ends (R18): a successful `initialize` makes the block Ready (R69, R139). -/
def conclude (w : Sending) : BusOutcome × State → State
  | (.ok, s) =>
    match w with
    | .modes => finish (.ok, s.configure)
    | .frame _ _ => finish (.ok, s)
  | (.err, s) => finish (.err, s)
  | (.never, s) => finish (.never, s)

/-- A transfer begins, goes on or ends. -/
def State.setTransfer (t : Option Transfer) (s : State) : State := { s with bus := { s.bus with transfer := t } }

/-- `j` transactions of a request have been sent and others are left: it has no result yet. -/
def State.awaitNext (w : Sending) (j : Nat) (s : State) : State := (s.answerWith none).setTransfer (some ⟨w, j, .caller⟩)

/-- One iteration of R93's loop: sends a request's transaction `j`. Each transaction is a model step (R43, D5); after the last, or
after one that does not answer Ok, the request ends (R94: no retry, no further chunk). What shares a step with a transaction: DESIGN
CHOICE, safe, assumption log 14. -/
def sendFrom (w : Sending) (j : Nat) (s : State) : State :=
  match (w.blocks s.params)[j]? with
  | none => s
  | some b =>
    match busWrite (w.relies s) b s with
    | (.ok, t) => if j + 1 < (w.blocks s.params).length then t.awaitNext w (j + 1) else conclude w (.ok, t)
    | (.err, t) => conclude w (.err, t)
    | (.never, t) => conclude w (.never, t)

/-- `Emit` (R85): the frame of a case at its motor's bank. -/
def emit (m : Motor) (c : Case) (s : State) : State := sendFrom (.frame m c) 0 s

/-- The phase check of a command (R78, R125): a fault, or the rest of the command. A shutdown attempt passes in Dead. -/
def phaseGate (shutdown : Bool) (k : State → State) (s : State) : State :=
  match s.mon.phase with
  | .dead => if shutdown then k s else s.recordFault .afterBusError
  | .fresh => s.recordFault .notInitialized
  | .ready => k s

/-- The rest of a command after the phase check (R78): validation, then the case. -/
def commandBody (i : Int) (vel : Option Int) (s : State) : State :=
  match validate i vel with
  | .error info => s.answerWith (some (.outOfRange info))
  | .ok (m, c) => emit m c s

/-- The whole `command` operation (R78). -/
def command (shutdown : Bool) (i : Int) (vel : Option Int) (s : State) : State :=
  phaseGate shutdown (commandBody i vel) s

/-! ## Derived state -/

/-- The bytes of the twelve registers of a motor's bank, if all are known (R22). -/
def bankBytes (m : Memory) (a : Nat) : Nat → Option (List Byte)
  | 0 => some []
  | n + 1 =>
    match Memory.read m a, bankBytes m (a + 1) n with
    | some b, some rest => some (b :: rest)
    | _, _ => none

/-- What the register image says of a motor (R24, R60, R61, R140). -/
inductive MotorReading where
  /-- Some register of the bank is unknown. -/
  | unknown
  /-- The bank holds no frame of this block (R61). -/
  | notAFrame (e : DecodeError)
  | state (l : Logical)
  deriving DecidableEq, Repr

/-- The logical state of a motor, derived from the register image (R24, D25). -/
def State.motor (s : State) (i : Motor) : MotorReading :=
  match bankBytes s.mon.regs (bankStart i).toNat bankLen with
  | none => .unknown
  | some bytes =>
    match decodeFrame s.params bytes with
    | .ok c => .state c.logical
    | .error e => .notAFrame e

/-- What the mode registers must give once written (R70). -/
inductive ModeEffect where
  | autoIncrement
  | internalOscillator
  | invertedPushPullOutputs
  deriving DecidableEq, Repr

/-- The register image of the initialization transactions alone. -/
def modeImage (p : Params) : Memory :=
  replay (p.initWrites.map fun w => Block.record w.block .ok)

/-- The chip settings known to hold (R70): all three while every register that `InitTransactions` writes holds its
configured byte, else none of them is known. DEDUCED, safe: assumption log 20. -/
def State.modeEffects (s : State) : List ModeEffect :=
  if (modeImage s.params).all (fun c => decide (Memory.read s.mon.regs c.1 = some c.2)) then
    [.autoIncrement, .internalOscillator, .invertedPushPullOutputs]
  else []

end Sys2Proof.Machine
end

