-- ==== Sys2Proof/Machine/HostOps.lean ====
section
/-! DEFINITION. The host's shared operations (R111 to R117): the requests of a line, the shutdown release-all, ends of a run, an
interrupt signal, and reading the input. -/

namespace Sys2Proof.Machine

/-- The host takes no more lines: it has ended (R152), or runs its shutdown. -/
def HostStage.isOver : HostStage → Bool
  | .startup => false
  | .reading => false
  | .stopping _ _ => true
  | .ended _ => true

/-- The host begins nothing more: its lines are over, or a transaction never returns (R146), or a request is being sent, which
comes to its end first (R97; no step runs a line then). A line handed over to a host whose lines are over has no effect but that it
is counted, and a blocked machine does not even take it. DESIGN CHOICE, unsafe for the line number and safe otherwise: assumption
log 18. -/
def State.hostStopped (s : State) : Bool := s.bus.blocked || s.host.stage.isOver || s.bus.transfer.isSome

/-- The host's run ends (R152), and what was left of its line is abandoned. DEDUCED, safe: assumption log 22. -/
def State.endHost (e : EndKind) (s : State) : State :=
  { s with host := { s.host with stage := .ended e, pending := [] } }

/-- The shutdown release-all is to run, for motors 0..3 in order (R113), and then the run ends. -/
def State.beginShutdown (e : EndKind) (s : State) : State :=
  { s with host := { s.host with stage := .stopping [0, 1, 2, 3] e, pending := [] } }

/-- The motors that the shutdown has still to release; none left is the end of the run (R113, R152). -/
def State.shutdownLeft (rest : List Int) (e : EndKind) (s : State) : State :=
  match rest with
  | [] => s.endHost e
  | _ :: _ => { s with host := { s.host with stage := .stopping rest e } }

/-- The requests of the line that are still to be issued (R48). -/
def State.setPending (rest : List (Int × Option Int)) (s : State) : State :=
  { s with host := { s.host with pending := rest } }

/-- One host request has returned, or one line was a `ParseError`: an announced signal comes one nearer (R116). DESIGN CHOICE
(what is counted), safe: assumption log 10. -/
def State.tick (s : State) : State :=
  { s with host := { s.host with signalIn := s.host.signalIn.map (· - 1) } }

/-- An interrupt signal is there to be taken (R116). -/
def State.signalDue (s : State) : Bool := s.host.signalIn == some 0

/-- An interrupt signal is taken (R116): line processing ends, and so does the process, after the shutdown if `SIGNAL_SHUTDOWN`.
DESIGN CHOICE (when it arrives), unsafe: assumption log 10. -/
def takeSignal (s : State) : State :=
  if s.params.signalShutdown then s.beginShutdown .signalled else s.endHost .signalled

/-- What the host does with the result of motor `i`'s shutdown release (R114, D12): a `BusError` is logged, and ends the shutdown
only under `stop_at_first_error`. One that recorded a fault has no result, and the shutdown goes on: DESIGN CHOICE, unsafe, assumption
log 19. -/
def afterRelease (i : Int) (rest : List Int) (e : EndKind) (s : State) : State :=
  if s.call.answer = some .busError then
    let t := s.addDiag ⟨.busError, .eos, some i⟩
    match t.params.shutdownPolicy with
    | .bestEffort => t.shutdownLeft rest e
    | .stopAtFirstError => t.endHost e
  else s.shutdownLeft rest e

/-- A `BusError` outside shutdown is fatal (R115): the shutdown runs only under `SHUTDOWN_AFTER_BUSERROR`. -/
def fatalBusError (s : State) : State :=
  if s.params.shutdownAfterBusError then s.beginShutdown .fatalBusError else s.endHost .fatalBusError

/-- What the host does with a sub-command's result (R111, R115, R117 `sub`). A request that recorded a fault has none, and the
line goes on: DESIGN CHOICE, unsafe, assumption log 19. The line number of a diagnostic is that of the line taken last, also for a
request left of an earlier line when another was handed over meanwhile: DESIGN CHOICE, unsafe, assumption log 7. -/
def reactTo (s : State) : State :=
  match s.call.answer with
  | some (.outOfRange info) => s.addDiag (outOfRangeDiag s.host.line info)
  | some .busError => fatalBusError s
  | some .ok => s
  | none => s

/-- The host after its `initialize` (R101): a `BusError` is fatal, else it reads lines. Also where a direct caller came first, so that
this `initialize` recorded `ReInitialized` or `AfterBusError` and has no result (R72): DESIGN CHOICE, unsafe, assumption log 19. -/
def afterStartup (s : State) : State :=
  if s.call.answer = some .busError then s.endHost .fatalInitialize
  else { s.tick with host := { s.tick.host with stage := .reading } }

/-- What is done with the result of a request that has ended, by who waits for it. -/
def react : Waiting → State → State
  | .caller, s => s
  | .startup, s => afterStartup s
  | .line, s => reactTo s.tick
  | .shutdown i rest e, s => afterRelease i rest e s.tick

/-- After a transaction of a request for which `w` waits: nothing follows one that never returns (R146); a request that has
transactions left goes on in the next step; one that has ended is reacted to. -/
def settle (w : Waiting) (s : State) : State :=
  if s.bus.blocked then s
  else
    match s.bus.transfer with
    | some t => s.setTransfer (some { t with waiting := w })
    | none => react w s

/-- The next transaction of a request being sent (R93). -/
def continueTransfer (t : Transfer) (s : State) : State :=
  settle t.waiting (sendFrom t.what t.sent (s.setTransfer none))

/-- R117 `sub`: one command of a line. -/
def subCommand (i : Int) (vel : Option Int) (s : State) : State := settle .line (command false i vel s)

/-- R117 `shutdown_sub`, one release of the shutdown: a shutdown attempt (R113, D31). A signal that is there ends the process
before it, with no further transaction, unless `SIGNAL_SHUTDOWN` asks for the release-all, which is then already running
(R116, assumption log 10). -/
def shutdownNext (todo : List Int) (e : EndKind) (s : State) : State :=
  match todo with
  | [] => s.endHost e
  | i :: rest =>
    if s.signalDue && !s.params.signalShutdown then s.endHost .signalled
    else settle (.shutdown i rest e) (command true i none s)

/-- Issues the first of a line's requests that are left (R48: they are separate requests, so each is a step of its own), or takes
a signal that arrived before it (R116), also where a line was handed over before the host's startup: DESIGN CHOICE, unsafe,
assumption log 10. -/
def issueFirst (todo : List (Int × Option Int)) (s : State) : State :=
  match todo with
  | [] => s
  | (i, vel) :: rest => if s.signalDue then takeSignal s else subCommand i vel (s.setPending rest)

/-- A line that expands into requests (R105): the first is issued, and the others are left for the steps that follow (R48), before
what was left already. DESIGN CHOICE (their order), unsafe: assumption log 7. -/
def issueLine (requests : List (Int × Option Int)) (s : State) : State :=
  if s.hostStopped then s else issueFirst (requests ++ s.host.pending) s

/-- A line is a `ParseError` (R110, R112): one diagnostic, no request. An announced signal comes nearer: DESIGN CHOICE, safe,
assumption log 10. -/
def parseError (s : State) : State :=
  if s.hostStopped then s else (s.addDiag ⟨.parseError, .line s.host.line, none⟩).tick

/-! ## Input -/

/-- What the host reads next (R102, R113, D21): a line up to a newline; at the end of the input the text that is left, then
the end of stream; `none` while it waits for a newline or the end. -/
def nextInput (h : HostState) : Option (Item × List Byte) :=
  match takeLine h.stream with
  | some (line, rest) => some (.line line, rest)
  | none =>
    if h.inputEnded then
      if h.stream.isEmpty then some (.streamEnd, []) else some (.line h.stream, [])
    else none

/-- A line has its number from when it is taken (R112), also one handed over to a host that takes no more lines. DESIGN CHOICE,
unsafe: assumption log 18. -/
def countLine (it : Item) (s : State) : State :=
  match it with
  | .line _ => { s with host := { s.host with line := s.host.line + 1 } }
  | _ => s

/-- The input left after reading. -/
def State.setStream (rest : List Byte) (s : State) : State :=
  { s with host := { s.host with stream := rest } }

/-- The requests left after taking the oldest. -/
def State.setInbox (rest : List Item) (s : State) : State :=
  { s with call := { s.call with inbox := rest } }

/-- An item is handed over as the very next instruction (assumption log 9). -/
def State.placeItem (it : Item) (s : State) : State :=
  { s with call := { s.call with inbox := it :: s.call.inbox }, bus := { s.bus with blocked := false, transfer := none } }

/-- The environment's input arrives (R102, R136): more bytes, and whether the input ends after them.
DESIGN CHOICE, safe: assumption log 8. -/
def State.feed (bytes : List Byte) (ends : Bool) (s : State) : State :=
  { s with host := { s.host with stream := s.host.stream ++ bytes, inputEnded := ends } }

end Sys2Proof.Machine
end

