-- ==== Sys2Proof/Machine/BankAddressing.lean ====
section
/-! DEFINITION. The meaning of BASE_REGISTER (40_bank_addressing.md). -/

namespace Sys2Proof.Machine

/-- R64, R65: the caller gets the offset; outside 0..3 the fault `BaseRegisterDomain` is recorded and there is no offset.
In any phase: DESIGN CHOICE, safe, assumption log 17. -/
def execBaseRegister (i : Int) (s : State) : Host.Outcome State Fault Refusal :=
  .next
    (match baseRegister i with
    | some a => { s with call := { s.call with offset := some a } }
    | none =>
      let t := s.recordFault .baseRegisterDomain
      { t with call := { t.call with offset := none } })

end Sys2Proof.Machine
end

