-- ==== Sys2Proof/Machine/BusFramer.lean ====
section
/-! DEFINITION. The meaning of WRITE_BLOCK (43_bus_framer.md). -/

namespace Sys2Proof.Machine

/-- R90, R95: one transaction, in every phase; several bytes before `initialize` has succeeded land nowhere known (R139; DEDUCED,
assumption log 15). After it R36 is applied at every start register, also where no bank and no mode transaction starts, such as a
fourth slot, where R39 and N8 leave open what the chip does: DESIGN CHOICE, unsafe, assumption log 26. Operands outside R90's
ranges stop the machine by name, for the spec gives them no effect (N8; DESIGN CHOICE, safe: assumption log 12). -/
def execWriteBlock (dev : DevAddr) (start : RegAddr) (bytes : List Byte) (s : State) :
    Host.Outcome State Fault Refusal :=
  if dev ≠ devAddr then .fault .noSuchDevice
  else if bytes.isEmpty then .fault .emptyBlock
  else if registerCount < start.toNat + bytes.length then .fault .noSuchRegister
  else .next (finish (busWrite s.initialized ⟨start, bytes⟩ s))

end Sys2Proof.Machine
end

