-- ==== Sys2Proof/Machine/Command.lean ====
section
/-! DEFINITION. The meanings of the command rows (42_command.md): the four cases and the rejected request. -/

namespace Sys2Proof.Machine

/-- R80: Release. -/
def execCmdRelease (i : Motor) (s : State) : Host.Outcome State Fault Refusal :=
  .next (phaseGate false (emit i .release) s)

/-- R81: Brake. -/
def execCmdBrake (i : Motor) (s : State) : Host.Outcome State Fault Refusal :=
  .next (phaseGate false (emit i .brake) s)

/-- R82: Forward. -/
def execCmdForward (i : Motor) (m : Speed) (s : State) : Host.Outcome State Fault Refusal :=
  .next (phaseGate false (emit i (.forward m)) s)

/-- R83: Reverse. -/
def execCmdReverse (i : Motor) (m : Speed) (s : State) : Host.Outcome State Fault Refusal :=
  .next (phaseGate false (emit i (.reverse m)) s)

/-- R79: a rejected request. The phase check comes first (R125), then `OutOfRange`, index first, and no other effect.
Operands that are in range are no request of this row: DESIGN CHOICE, safe, assumption log 21. -/
def execRejectOutOfRange (i : Int) (vel : Option Int) (s : State) : Host.Outcome State Fault Refusal :=
  match validate i vel with
  | .error info => .next (phaseGate false (State.answerWith (some (.outOfRange info))) s)
  | .ok _ => .refused .nothingToReject

end Sys2Proof.Machine
end

