-- ==== Sys2Proof/Machine/HostLines.lean ====
section
/-! DEFINITION. The meanings of the host's line forms (45_host_interpreter.md). -/

namespace Sys2Proof.Machine

/-- R106: release motors 0..3, in order, one request in each step (R48). -/
def execReleaseAll (s : State) : Host.Outcome State Fault Refusal :=
  .next (issueLine [(0, none), (1, none), (2, none), (3, none)] s)

/-- R107: release one motor; a non-numeric index is a `ParseError` (D14). -/
def execReleaseOne (t0 : Token) (s : State) : Host.Outcome State Fault Refusal :=
  .next
    (match t0 with
    | .num i => issueLine [(i, none)] s
    | .word _ => parseError s)

/-- R108: set one motor; a non-numeric velocity is a release, a non-numeric index a `ParseError` (D14). -/
def execSetOne (t0 t1 : Token) (s : State) : Host.Outcome State Fault Refusal :=
  .next
    (match t0, t1 with
    | .num i, .num v => issueLine [(i, some v)] s
    | .num i, .word _ => issueLine [(i, none)] s
    | .word _, _ => parseError s)

/-- R109: set motors 0..3, in order, one request in each step (R48); any non-numeric token makes the whole line a `ParseError`. -/
def execSetAll (t0 t1 t2 t3 : Token) (s : State) : Host.Outcome State Fault Refusal :=
  .next
    (match t0, t1, t2, t3 with
    | .num v0, .num v1, .num v2, .num v3 =>
      issueLine [(0, some v0), (1, some v1), (2, some v2), (3, some v3)] s
    | _, _, _, _ => parseError s)

/-- R110: a line of 3 tokens, or of 5 or more, is a `ParseError` whatever its tokens (assumption log 21). -/
def execMalformed (_tokens : List Token) (s : State) : Host.Outcome State Fault Refusal :=
  .next (parseError s)

/-- R113, R114: the shutdown release-all, one request in each step (R48), then the normal end. Requests left of a line, which the
host itself never has here, are abandoned, and where it was handed over while lines of the input are unread these are never
processed and the run still ends normally: DESIGN CHOICE, unsafe, assumption log 7. -/
def execEndOfStream (s : State) : Host.Outcome State Fault Refusal :=
  .next (if s.hostStopped then s else shutdownNext [0, 1, 2, 3] .normal (s.setPending []))

end Sys2Proof.Machine
end

