-- ==== Sys2Proof/Machine/Initialize.lean ====
section
/-! DEFINITION. The meaning of INITIALIZE (41_initialize.md). -/

namespace Sys2Proof.Machine

/-- R69, R72, R73: Dead and Ready record a fault; Fresh sends `InitTransactions` in order, as they are, up to the first that fails,
one in each step; their bytes land (R29). DEDUCED: assumption log 16 and 23. -/
def execInitializeChip (s : State) : Host.Outcome State Fault Refusal :=
  .next
    (match s.mon.phase with
    | .dead => s.recordFault .afterBusError
    | .ready => s.recordFault .reInitialized
    | .fresh => sendFrom .modes 0 s)

end Sys2Proof.Machine
end

