-- ==== Sys2Proof/Machine/Dispatch.lean ====
section
/-! DEFINITION. One arm per instruction. -/

namespace Sys2Proof.Machine

def exec (i : Instr) (s : State) : Host.Outcome State Fault Refusal :=
  match i with
  | .initializeChip => Sys2Proof.Machine.execInitializeChip s
  | .cmdRelease m => Sys2Proof.Machine.execCmdRelease m s
  | .cmdBrake m => Sys2Proof.Machine.execCmdBrake m s
  | .cmdForward m v => Sys2Proof.Machine.execCmdForward m v s
  | .cmdReverse m v => Sys2Proof.Machine.execCmdReverse m v s
  | .rejectOutOfRange n vel => Sys2Proof.Machine.execRejectOutOfRange n vel s
  | .baseRegister n => Sys2Proof.Machine.execBaseRegister n s
  | .writeBlock dev start bytes => Sys2Proof.Machine.execWriteBlock dev start bytes s
  | .releaseAll => Sys2Proof.Machine.execReleaseAll s
  | .releaseOne t0 => Sys2Proof.Machine.execReleaseOne t0 s
  | .setOne t0 t1 => Sys2Proof.Machine.execSetOne t0 t1 s
  | .setAll t0 t1 t2 t3 => Sys2Proof.Machine.execSetAll t0 t1 t2 t3 s
  | .malformed tokens => Sys2Proof.Machine.execMalformed tokens s
  | .endOfStream => Sys2Proof.Machine.execEndOfStream s

end Sys2Proof.Machine
end

