-- ==== Sys2Proof/Machine/Run.lean ====
section
/-! DEFINITION. What one step does: running an item, the host's startup, its reading, and the order among them. -/

namespace Sys2Proof.Machine

/-- Runs one item: its instruction, or a refusal that names why it is none. A line is counted first, even where the host's lines are
over and it has no other effect: DESIGN CHOICE, unsafe, assumption log 18. -/
def runItem (it : Item) (s : State) : Host.Outcome State Fault Refusal :=
  match decode s.params it with
  | .ok i => exec i (countLine it s)
  | .error e => .refused (.undecodable e)

/-- The host's startup (R101): `initialize`, then what the host makes of its result. -/
def startupStep (s : State) : Host.Outcome State Fault Refusal :=
  match runItem .initRequest s with
  | .next t => .next (settle .startup t)
  | .fault r => .fault r
  | .refused r => .refused r

/-- The host reads (R117): a signal that has arrived is taken, else the next line or the end of the stream runs; with neither
there the host waits in its blocking read (R136). -/
def readingStep (s : State) : Host.Outcome State Fault Refusal :=
  if s.signalDue then .next (takeSignal s)
  else
    match nextInput s.host with
    | some (it, rest) => runItem it (s.setStream rest)
    | none => .next s

/-- The host goes on: with its shutdown, with the requests left of its line (R48), with its startup, or with its reading. An ended
host does nothing more (R152). -/
def hostStep (s : State) : Host.Outcome State Fault Refusal :=
  match s.host.stage, s.host.pending with
  | .ended _, _ => .next s
  | .stopping todo e, _ => .next (shutdownNext todo e s)
  | .startup, [] => startupStep s
  | .reading, [] => readingStep s
  | .startup, request :: rest => .next (issueFirst (request :: rest) s)
  | .reading, request :: rest => .next (issueFirst (request :: rest) s)

/-- What happens next. A blocked machine stays as it is for ever (R146); a request being sent sends its next transaction before
anything else happens (R93, R97); then a request that was handed over runs (R17, R131), and a `BusError` it receives does not end the
host; else the host goes on. DESIGN CHOICE, unsafe: assumption log 7 and 27. -/
def nextStep (s : State) : Host.Outcome State Fault Refusal :=
  if s.bus.blocked then .next s
  else
    match s.bus.transfer, s.call.inbox with
    | some t, _ => .next (continueTransfer t s)
    | none, it :: rest => runItem it (s.setInbox rest)
    | none, [] => hostStep s

end Sys2Proof.Machine
end

