-- ==== Sys2Proof/Machine/Step.lean ====
section
/-! DEFINITION. The step, and how a word is placed to run next. -/

namespace Sys2Proof.Machine

/-- One step of the machine. -/
def step (s : State) : Host.Outcome State Fault Refusal := nextStep s

/-- The state in which the next step runs the instruction of a word (assumption log 9). -/
def State.withFetchWord (s : State) (nbits w : Nat) : State := s.placeItem (tableItem nbits w)

end Sys2Proof.Machine
end

