-- ==== Sys2Proof/Safety.lean ====
section
/-! DEFINITION. The terms claims use: a successful run, the bus answering Ok, the state an accepted transfer leaves, what the
block may write, and the invariants. -/

namespace Sys2Proof

/-- A register of some motor's bank (R41, R66): offsets 0..11 of a stride from 6 on. -/
def inBank (a : Nat) : Prop := ∃ i : Motor, 6 + 16 * i.val ≤ a ∧ a < 6 + 16 * i.val + 12

/-- The registers an instruction may write (R22, R41, R69, R90). A host line, and the end of the stream, issue their first
request; each of the others is a step of its own (R48), and so is each transaction of one after the first (R43, D5). -/
def Instr.targets (p : Params) (i : Instr) (a : Nat) : Prop :=
  match i with
  | .initializeChip => ∃ w ∈ p.initWrites, w.start.toNat ≤ a ∧ a < w.start.toNat + w.bytes.length
  | .cmdRelease m => 6 + 16 * m.val ≤ a ∧ a < 6 + 16 * m.val + 12
  | .cmdBrake m => 6 + 16 * m.val ≤ a ∧ a < 6 + 16 * m.val + 12
  | .cmdForward m _ => 6 + 16 * m.val ≤ a ∧ a < 6 + 16 * m.val + 12
  | .cmdReverse m _ => 6 + 16 * m.val ≤ a ∧ a < 6 + 16 * m.val + 12
  | .rejectOutOfRange _ _ => False
  | .baseRegister _ => False
  | .writeBlock _ start bytes => start.toNat ≤ a ∧ a < start.toNat + bytes.length
  | .releaseAll => 6 ≤ a ∧ a < 18
  | .releaseOne t0 => ∃ m : Motor, t0 = .num m.val ∧ 6 + 16 * m.val ≤ a ∧ a < 6 + 16 * m.val + 12
  | .setOne t0 _ => ∃ m : Motor, t0 = .num m.val ∧ 6 + 16 * m.val ≤ a ∧ a < 6 + 16 * m.val + 12
  | .setAll _ _ _ _ => 6 ≤ a ∧ a < 18
  | .malformed _ => False
  | .endOfStream => 6 ≤ a ∧ a < 18

/-- The rows that are host lines or the end of the stream (`host_line` in the opcode table). -/
def Instr.isHostLine : Instr → Bool
  | .initializeChip => false
  | .cmdRelease _ => false
  | .cmdBrake _ => false
  | .cmdForward _ _ => false
  | .cmdReverse _ _ => false
  | .rejectOutOfRange _ _ => false
  | .baseRegister _ => false
  | .writeBlock _ _ _ => false
  | .releaseAll => true
  | .releaseOne _ => true
  | .setOne _ _ => true
  | .setAll _ _ _ _ => true
  | .malformed _ => true
  | .endOfStream => true

/-- The requests a host line expands into (R105 to R109); a `ParseError`, or another row, into none. -/
def Instr.requests (i : Instr) : Option (List (Int × Option Int)) :=
  match i with
  | .initializeChip => none
  | .cmdRelease _ => none
  | .cmdBrake _ => none
  | .cmdForward _ _ => none
  | .cmdReverse _ _ => none
  | .rejectOutOfRange _ _ => none
  | .baseRegister _ => none
  | .writeBlock _ _ _ => none
  | .releaseAll => some [(0, none), (1, none), (2, none), (3, none)]
  | .releaseOne t0 =>
    match t0 with
    | .num i => some [(i, none)]
    | .word _ => none
  | .setOne t0 t1 =>
    match t0, t1 with
    | .num i, .num v => some [(i, some v)]
    | .num i, .word _ => some [(i, none)]
    | .word _, _ => none
  | .setAll t0 t1 t2 t3 =>
    match t0, t1, t2, t3 with
    | .num v0, .num v1, .num v2, .num v3 => some [(0, some v0), (1, some v1), (2, some v2), (3, some v3)]
    | _, _, _, _ => none
  | .malformed _ => none
  | .endOfStream => none

/-- A host line expands into requests all of which have accepted motor indices. -/
def Instr.expandsTo (i : Instr) (xs : List (Motor × Option Int)) : Prop :=
  i.requests = some (xs.map fun x => ((x.1.val : Int), x.2))

end Sys2Proof

namespace Sys2Proof.Machine

/-- A successful end of a run: the normal end, with no fault recorded. That a recorded fault excludes it is R124's; the spec does
not say more of success. That a normal end whose shutdown met a `BusError` counts as successful, and an end by a signal does not, is
the model's. DESIGN CHOICE, unsafe: assumption log 28. -/
def State.successfulEnd (s : State) : Bool :=
  decide (s.host.stage = .ended .normal) && decide (s.mon.faults = [])

/-- The bus is free: no transaction hangs (R95), and no request is being sent (R45, R97). -/
def State.BusFree (s : State) : Prop := s.bus.blocked = false ∧ s.bus.transfer = none

/-- The free bus answers Ok to the next `n` transactions: the premise `AllTransactionsReturn` of D29, and that they succeed. -/
def State.BusOk (n : Nat) (s : State) : Prop := s.BusFree ∧ s.bus.outcomes.take n = List.replicate n .ok

/-- The free bus answers Ok to `n` transactions and Err to the next. -/
def State.BusErrAfter (n : Nat) (s : State) : Prop :=
  s.BusFree ∧ s.bus.outcomes.take (n + 1) = List.replicate n .ok ++ [.err]

/-- The free bus answers Ok to `n` transactions, and the next never returns (R95). -/
def State.BusNeverAfter (n : Nat) (s : State) : Prop :=
  s.BusFree ∧ s.bus.outcomes.take (n + 1) = List.replicate n .ok ++ [.never]

/-- How many transactions the bytes at `start` take (R93). -/
def State.sends (s : State) (start : RegAddr) (bytes : List Byte) : Nat :=
  (splitBlock s.params start bytes).length

/-- What a block that answered Ok does to the register image: its bytes land (R36) if `inc`, that is, if R36 may be relied on, or if
it is a single byte; else its registers become unknown (R139). -/
def Block.land (inc : Bool) (b : Block) (m : Memory) : Memory :=
  if inc = true ∨ b.bytes.length ≤ 1 then Memory.writeBytes m b.start.toNat b.bytes
  else Memory.forgetRange m b.start.toNat b.bytes.length

/-- The register image and trace after blocks that all answered Ok; `inc`: R36 may be relied on. -/
def Monitor.sent (inc : Bool) (bs : List Block) (m : Monitor) : Monitor :=
  { m with
    regs := bs.foldl (fun r b => Block.land inc b r) m.regs
    trace := m.trace ++ bs.map (Block.record · .ok) }

/-- How many transactions a request sends (R92, R93). -/
def State.count (s : State) (w : Sending) : Nat := (w.blocks s.params).length

/-- A request's first `j` transactions have answered Ok, and nothing else has changed: the registers hold what these blocks leave in
them (R36, R139), the trace has their records, their answers are used up. -/
def State.sentSoFar (w : Sending) (j : Nat) (s : State) : State :=
  { s with
    mon := s.mon.sent (w.relies s) ((w.blocks s.params).take j)
    bus := { s.bus with outcomes := s.bus.outcomes.drop j, draws := s.bus.draws + j } }

/-- The state between two transactions of a request for which `wt` waits, after the first `j` answered Ok: it has no result yet, and its
others are left for the steps that follow (R93, R144). -/
def State.partWay (w : Sending) (wt : Waiting) (j : Nat) (s : State) : State :=
  { s.sentSoFar w j with
    bus := { (s.sentSoFar w j).bus with transfer := some ⟨w, j, wt⟩ }
    call := { s.call with answer := none } }

/-- The transactions of a request are sent one in each step (R43, D5), by the step that ends in `t` and those that follow it: after each
but the last the state is that between two transactions, and the last leaves `u`. -/
def State.SendsUpTo (s : State) (w : Sending) (wt : Waiting) (t u : State) : Prop :=
  (∀ j, 1 ≤ j → j < s.count w → Sys2Proof.core.run (j - 1) t = .next (s.partWay w wt j)) ∧
    Sys2Proof.core.run (s.count w - 1) t = .next u

/-- The state after all the transactions for `bytes` at `start` answered Ok (R30, R36, R86, R99): the registers hold the bytes, or,
where `initialize` has not succeeded, what its blocks leave in them (R139); the trace has the records, the caller has Ok, the answers are used up, and nothing else changes. -/
def State.accepted (start : RegAddr) (bytes : List Byte) (s : State) : State :=
  { s with
    mon := { s.mon with
      regs :=
        if s.initialized = true then Memory.writeBytes s.mon.regs start.toNat bytes
        else (splitBlock s.params start bytes).foldl (fun m b => Block.land false b m) s.mon.regs
      trace := s.mon.trace ++ (splitBlock s.params start bytes).map (Block.record · .ok) }
    bus := { s.bus with
      outcomes := s.bus.outcomes.drop (s.sends start bytes)
      draws := s.bus.draws + s.sends start bytes }
    call := { s.call with answer := some .ok } }

/-- The bytes a command's frame must have (R54, R55, R56), written out: the duty pair, its padding, the two input blocks. -/
def commandBytes (p : Params) : Option Int → List Byte
  | none => [0x00, 0x00, 0x00, 0x00] ++ p.inputOff.bytes ++ p.inputOff.bytes
  | some v =>
    if v = 0 then [0x00, 0x00, 0x00, 0x00] ++ p.inputOn.bytes ++ p.inputOn.bytes
    else
      [BitVec.ofNat 8 ((4095 - v.natAbs) % 256), BitVec.ofNat 8 ((4095 - v.natAbs) / 256), 0x00, 0x00] ++
        if 0 < v then p.inputOff.bytes ++ p.inputOn.bytes else p.inputOn.bytes ++ p.inputOff.bytes

/-- The state after a command on motor `m` all of whose transactions answered Ok (R30). -/
def State.commanded (m : Motor) (vel : Option Int) (s : State) : State :=
  s.accepted (BitVec.ofNat 8 (6 + 16 * m.val)) (commandBytes s.params vel)

/-- How many transactions that command takes. -/
def State.commandSends (m : Motor) (vel : Option Int) (s : State) : Nat :=
  s.sends (BitVec.ofNat 8 (6 + 16 * m.val)) (commandBytes s.params vel)

/-- The state after a line's sub-command was rejected (R79, R111): the caller has the rejection, the host one diagnostic. -/
def State.rejectedWith (info : OutOfRangeInfo) (d : Diag) (s : State) : State :=
  { s with call := { s.call with answer := some (.outOfRange info) }, host := { s.host with diags := s.host.diags ++ [d] } }

/-- The state after one velocity of a line has been set (R108, R109, R111): the command, or its rejection. -/
def State.settled (m : Motor) (v : Int) (s : State) : State :=
  if 4095 ≤ v.natAbs then
    s.rejectedWith (.velocity v) ⟨.outOfRangeVelocity, .line s.host.line, some v⟩
  else s.commanded m (some v)

/-- The state after one request of a line (R106 to R109): a release, or a velocity set. -/
def State.performed (x : Motor × Option Int) (s : State) : State :=
  match x.2 with
  | none => s.commanded x.1 none
  | some v => s.settled x.1 v

/-- The state after several requests of a line, in order. -/
def State.performedAll (xs : List (Motor × Option Int)) (s : State) : State :=
  xs.foldl (fun s x => s.performed x) s

/-- How many steps one request of a line takes: one for each of its transactions (R43, D5), one if it is rejected (R79). -/
def State.requestSteps (x : Motor × Option Int) (s : State) : Nat :=
  match x.2 with
  | none => s.commandSends x.1 none
  | some v => if 4095 ≤ v.natAbs then 1 else s.commandSends x.1 (some v)

/-- How many steps several requests of a line take. -/
def State.stepsFor (xs : List (Motor × Option Int)) (s : State) : Nat := (xs.map fun x => s.requestSteps x).sum

/-- The requests of a line that releases every motor, and of the shutdown (R106, R113). -/
def releases : List (Motor × Option Int) := [(0, none), (1, none), (2, none), (3, none)]

/-- The state after the first `j` requests of a line that expands into `xs`: these are performed, and the others are left (R48). -/
def State.afterRequests (xs : List (Motor × Option Int)) (j : Nat) (s : State) : State :=
  { s.performedAll (xs.take j) with
    host := { (s.performedAll (xs.take j)).host with
      pending := (xs.drop j).map (fun x => ((x.1.val : Int), x.2)) ++ s.host.pending } }

/-- The transactions of a command on motor `m` (R85, R93). -/
def State.chunksOf (m : Motor) (c : Case) (s : State) : List Block :=
  splitBlock s.params (bankStart m) (frameOf s.params c).bytes

/-- The records of a shutdown attempt on motor `m` whose chunk `k` answers Err, or none of them: no chunk follows one that does
(R93, R94). -/
def State.attempt (m : Motor) (fails : Option Nat) (s : State) : List Transaction :=
  match fails with
  | none => (s.chunksOf m .release).map fun b => ⟨0x40, b.start, b.bytes, .ok⟩
  | some k =>
    ((s.chunksOf m .release).take k).map (fun b => ⟨0x40, b.start, b.bytes, .ok⟩) ++
      (((s.chunksOf m .release).drop k).take 1).map fun b => ⟨0x40, b.start, b.bytes, .err⟩

/-- The records of the attempts on several motors, in order. -/
def State.attempts (ms : List Motor) (fails : Motor → Option Nat) (s : State) : List Transaction :=
  ms.flatMap fun m => s.attempt m (fails m)

/-- The answer of the bus to a transaction of which there is a record. -/
def Transaction.answer (t : Transaction) : BusOutcome :=
  match t.outcome with
  | .ok => .ok
  | .err => .err

/-- The step that ends in `r`, and `k` steps more, end in a transaction that never returns: the monitor is then `m`, the request has no
result, and the machine stays as it is for ever (R95, R146). -/
def HangsAfter (k : Nat) (m : Monitor) (r : Host.Outcome State Fault Refusal) : Prop :=
  ∃ t u, r = .next t ∧ Sys2Proof.core.run k t = .next u ∧ u.mon = m ∧ u.call.answer = none ∧
    ∀ n, Sys2Proof.core.run n u = .next u

/-- The state after a line that is a `ParseError` (R110, R112, R119): one diagnostic, nothing else, but that an announced signal
comes nearer (assumption log 10). -/
def State.parseFailed (s : State) : State :=
  { s with
    host := { s.host with
      diags := s.host.diags ++ [⟨.parseError, .line s.host.line, none⟩]
      signalIn := s.host.signalIn.map (· - 1) } }

/-- The state after a request that met a model fault (R124): the fault is recorded, the request has no result. -/
def State.faulted (f : ModelFault) (s : State) : State :=
  { s with mon := { s.mon with faults := addFault f s.mon.faults }, call := { s.call with answer := none } }

/-- The state after motors 0..3 were released, in order, and every transaction answered Ok (R106, R113). -/
def State.released (s : State) : State :=
  (((s.commanded 0 none).commanded 1 none).commanded 2 none).commanded 3 none

/-- What a motor reads as after its release answered Ok: Floating; or unknown where `initialize` never succeeded (R139), unless
every byte was a transaction of its own. -/
def State.releasedReading (s : State) : MotorReading :=
  if s.initialized = true ∨ s.params.maxBlock = 1 then .state .floating else .unknown

/-- A 12-byte image that no accepted request writes, by R61's list, under decision D1. -/
def foreignImage (f : List Byte) : Prop :=
  f.length = 12 ∧
    ((∃ k ∈ [2, 3, 5, 6, 7, 9, 10, 11], f[k]? ≠ some (0x00 : Byte)) ∨
      16 ≤ (f.getD 1 0).toNat ∨
      (∃ k ∈ [4, 8], f[k]? ≠ some (0x00 : Byte) ∧ f[k]? ≠ some (0xFF : Byte)) ∨
      (f[4]? = f[8]? ∧ (f.getD 0 0).toNat + 256 * (f.getD 1 0).toNat ≠ 0) ∨
      (f[4]? ≠ f[8]? ∧
        ((f.getD 0 0).toNat + 256 * (f.getD 1 0).toNat = 0 ∨ (f.getD 0 0).toNat + 256 * (f.getD 1 0).toNat = 4095)))

/-- A register that an initialization transaction writes (R41, R69). -/
def inModeRegisters (p : Params) (a : Nat) : Prop :=
  ∃ w ∈ p.initWrites, w.start.toNat ≤ a ∧ a < w.start.toNat + w.bytes.length

/-- The registers that a request's transactions target (R41, R69). -/
def Sending.targets (p : Params) (w : Sending) (a : Nat) : Prop :=
  match w with
  | .modes => inModeRegisters p a
  | .frame m _ => 6 + 16 * m.val ≤ a ∧ a < 6 + 16 * m.val + 12

/-- A command is being sent: some of its transactions have been, and some not. -/
def State.sendsFrame (s : State) : Prop := ∃ m c j wt, s.bus.transfer = some ⟨.frame m c, j, wt⟩

/-- A direct call of WRITE_BLOCK waits in the inbox. -/
def State.hasBlockCall (s : State) : Prop :=
  ∃ it ∈ s.call.inbox, ∃ dev start bytes, it = Item.blockCall dev start bytes

/-- The host takes lines: they are not over, and no signal is announced. -/
def State.Running (s : State) : Prop := s.hostStopped = false ∧ s.host.signalIn = none

/-! ## Invariants -/

/-- The register image is what the recorded transactions, applied in issue order, left in it (R45). -/
def State.ImageIsReplay (s : State) : Prop := s.mon.regs = replay s.mon.trace

/-- Every known register holds what the recorded transactions, applied in issue order, left in it (R45). -/
def State.KnownIsReplay (s : State) : Prop :=
  ∀ a b, Memory.read s.mon.regs a = some b → Memory.read (replay s.mon.trace) a = some b

/-- Every recorded transaction went to 0x40 (R91), has bytes (R90), and has a register for every byte (R33). -/
def State.TraceInRange (s : State) : Prop :=
  ∀ t ∈ s.mon.trace, t.dev = 0x40 ∧ t.bytes ≠ [] ∧ t.start.toNat + t.bytes.length ≤ 256

/-- Some of the request's transactions have been sent, and some are left (R93). -/
def Transfer.InRange (p : Params) (x : Transfer) : Prop := 1 ≤ x.sent ∧ x.sent < (x.what.blocks p).length

/-- A request that is being sent has transactions left, so it comes to its end. -/
def State.TransferInRange (s : State) : Prop := ∀ x, s.bus.transfer = some x → x.InRange s.params

/-- The known registers are bank registers and mode registers (R26); no caller is about to write others. -/
def State.WritesOnlyItsRegisters (s : State) : Prop :=
  ¬ s.hasBlockCall ∧ ∀ a, Memory.read s.mon.regs a ≠ none → inBank a ∨ inModeRegisters s.params a

end Sys2Proof.Machine
end

