-- ==== Sys2Proof/Certificates/Slice0/Obligations.lean ====
section
/-! DEFINITION. The statements for the provers. -/

open Sys2Proof Sys2Proof.Machine

/-! ## Encodings -/

/-- R57, R60, R105: words written out from the opcode table's patterns decode to their instructions. The frames are those
of R80 to R83's examples; a table word has no bits for the motor index (assumption log 9), so the motor is 0. -/
def Obligations.TableWordsDecode : Prop :=
  decodeTableWord 96 0x000000000000000000000000 = some (.cmdRelease 0) ∧
  decodeTableWord 96 0x000000FF000000FF00000000 = some (.cmdBrake 0) ∧
  decodeTableWord 96 0x000000FF0000000000000C17 = some (.cmdForward 0 ⟨1000, by decide, by decide⟩) ∧
  decodeTableWord 96 0x00000000000000FF00000E0B = some (.cmdReverse 0 ⟨500, by decide, by decide⟩) ∧
  decodeTableWord 96 0x000000FF0000000000000000 = none ∧
  decodeTableWord 56 0x0A303030312032 = some (.setOne (.num 2) (.num 1000)) ∧
  decodeTableWord 0 0 = some .endOfStream

/-- Decoding the encoding of a well-formed instruction gives it back, with every operand at every value (R49, R50,
R63). -/
def Obligations.EncodeDecodeAgree : Prop :=
  ∀ (p : Params) (i : Instr), i.wf = true → decode p (encode i) = .ok i

/-- R60: decoding is total on the frames of R56 and gives back the request's case and |v|; frames are injective. -/
def Obligations.FrameDecodesToItsCase : Prop :=
  ∀ (p : Params) (m : Motor) (c : Case),
    decode p (encodeImage p m c) = .ok (caseInstr m c) ∧
    ∀ c' : Case, (frameOf p c).bytes = (frameOf p c').bytes → c = c'

/-- R60, R61, D28: an image that decodes to a case is that case's frame, byte for byte. -/
def Obligations.DecodedImageIsItsFrame : Prop :=
  ∀ (p : Params) (f : List Byte) (c : Case), decodeFrame p f = .ok c → f = (frameOf p c).bytes

/-- R61: no accepted request writes an image with one of the listed properties, and the decoder refuses every such image.
Under decision D1's input blocks. -/
def Obligations.ForeignImagesRefused : Prop :=
  ∀ p : Params, p.inputOn = ⟨0xFF, 0x00, 0x00, 0x00⟩ → p.inputOff = ⟨0x00, 0x00, 0x00, 0x00⟩ →
    (∀ c : Case, ¬ foreignImage (frameOf p c).bytes) ∧
    ∀ f : List Byte, foreignImage f → ∃ e, decodeFrame p f = .error e

/-- R50: an accepted command selects exactly the case of its velocity, which writes the case's logical state. -/
def Obligations.VelocitySelectsCase : Prop :=
  ∀ m : Motor,
    (decodeCommand m.val none = .cmdRelease m ∧ Case.release.logical = .floating) ∧
    (decodeCommand m.val (some 0) = .cmdBrake m ∧ Case.brake.logical = .braking) ∧
    ∀ v : Speed,
      (decodeCommand m.val (some v.val) = .cmdForward m v ∧ (Case.forward v).logical = .drivingForward v.val) ∧
      (decodeCommand m.val (some (-(v.val : Int))) = .cmdReverse m v ∧
        (Case.reverse v).logical = .drivingReverse v.val)

/-- R105, R110: the form of a line is decided by its number of tokens alone. -/
def Obligations.LineFormByTokenCount : Prop :=
  ∀ text : List Byte,
    (lineTokens text = [] → decodeLine text = .releaseAll) ∧
    (∀ t0, lineTokens text = [t0] → decodeLine text = .releaseOne t0) ∧
    (∀ t0 t1, lineTokens text = [t0, t1] → decodeLine text = .setOne t0 t1) ∧
    (∀ t0 t1 t2 t3, lineTokens text = [t0, t1, t2, t3] → decodeLine text = .setAll t0 t1 t2 t3) ∧
    ((lineTokens text).length = 3 ∨ 5 ≤ (lineTokens text).length → decodeLine text = .malformed (lineTokens text))

/-- R104: a token is numeric iff it is an optional sign and one or more decimal digits, and its value is the integer it
spells. -/
def Obligations.NumericTokenGrammar : Prop :=
  ∀ (text : List Byte) (v : Int), readToken text = .num v ↔
    ∃ ds : List Byte, ds ≠ [] ∧ (∀ d ∈ ds, 0x30 ≤ d.toNat ∧ d.toNat ≤ 0x39) ∧
      ((text = ds ∧ v = (ds.foldl (fun n d => 10 * n + (d.toNat - 0x30)) 0 : Nat)) ∨
        (text = 0x2B :: ds ∧ v = (ds.foldl (fun n d => 10 * n + (d.toNat - 0x30)) 0 : Nat)) ∨
        (text = 0x2D :: ds ∧ v = -((ds.foldl (fun n d => 10 * n + (d.toNat - 0x30)) 0 : Nat) : Int)))

/-- R103: a line with no characters has no token; a run of characters that are not whitespace is one token; a whitespace
character ends the tokens before it and begins none, so runs of them, leading ones and trailing ones make no token. -/
def Obligations.WhitespaceSeparatesTokens : Prop :=
  splitFrom [] [] = [] ∧
  (∀ t : List Byte, t ≠ [] → (∀ b ∈ t, b ∉ [(0x20 : Byte), 0x09, 0x0B, 0x0C, 0x0D]) → splitFrom [] t = [t]) ∧
  ∀ (before : List Byte) (w : Byte) (rest : List Byte), w ∈ [(0x20 : Byte), 0x09, 0x0B, 0x0C, 0x0D] →
    splitFrom [] (before ++ w :: rest) = splitFrom [] before ++ splitFrom [] rest

/-! ## Reset -/

/-- R28, R137: the state at process start, and the fixed constants. -/
def Obligations.ResetState : Prop :=
  State.reset.mon.phase = .fresh ∧ State.reset.mon.faults = [] ∧ State.reset.mon.trace = [] ∧
  (∀ a, Memory.read State.reset.mon.regs a = none) ∧
  numMotors = 4 ∧ bankBase0 = 6 ∧ bankStride = 16 ∧ bankLen = 12 ∧ subblockLen = 4 ∧ velLimit = 4095 ∧
  dutyFull = 4095 ∧ dutyBits = 12 ∧ devAddr = 0x40 ∧ onByte = 0xFF ∧ offByte = 0x00 ∧ padByte = 0x00

/-- The invariants hold at process start, under any parameters. -/
def Obligations.InvariantsHoldAtReset : Prop :=
  ∀ p : Params, (State.resetWith p).ImageIsReplay ∧ (State.resetWith p).TraceInRange ∧
    (State.resetWith p).WritesOnlyItsRegisters ∧ Memory.wf (State.resetWith p).mon.regs = true ∧
    (State.resetWith p).KnownIsReplay ∧ (State.resetWith p).TransferInRange ∧
    ((State.resetWith p).mon.phase = .ready → (State.resetWith p).mon.configured = true)

/-! ## Bank addressing -/

/-- R64: `base_register(i)` is 6 + 16 * i, below 256, its bank ends by 65, and the call has no side effect. -/
def Obligations.BaseRegisterReturnsOffset : Prop :=
  ∀ (i : Int) (s : State), 0 ≤ i → i ≤ 3 →
    exec (.baseRegister i) s = .next { s with call := { s.call with offset := some (BitVec.ofInt 8 (6 + 16 * i)) } } ∧
    6 + 16 * i < 256 ∧ 6 + 16 * i + 11 ≤ 65

/-- R65: outside 0..3 the fault `BaseRegisterDomain` is recorded, there is no offset, and no transaction. -/
def Obligations.BaseRegisterOutsideItsDomain : Prop :=
  ∀ (i : Int) (s : State), i < 0 ∨ 3 < i →
    exec (.baseRegister i) s =
      .next { s with
        mon := { s.mon with faults := addFault .baseRegisterDomain s.mon.faults }
        call := { s.call with answer := none, offset := none } }

/-- R42, R66, R67: banks start at 6 + 16 * i and do not overlap, the four registers after each bank are in none, and
sub-block j of motor i is chip channel 4 * i + j. -/
def Obligations.BanksAreDisjoint : Prop :=
  (∀ m : Motor, (bankStart m).toNat = 6 + 16 * m.val) ∧
  (∀ i j : Motor, ∀ a, i ≠ j → 6 + 16 * i.val ≤ a → a < 6 + 16 * i.val + 12 →
    ¬ (6 + 16 * j.val ≤ a ∧ a < 6 + 16 * j.val + 12)) ∧
  (∀ (i : Motor) (k : Nat), k < 4 → ¬ inBank (6 + 16 * i.val + 12 + k)) ∧
  (∀ (i : Motor) (j : Nat) (h : 4 * i.val + j < 16), j < 4 →
    (bankStart i).toNat + 4 * j = channelStart ⟨4 * i.val + j, h⟩)

/-! ## Initialize -/

/-- R69, R29, R36, R43: from `Fresh`, with every transaction answering Ok, `initialize` sends `InitTransactions` in order,
one in each step; their registers take their bytes, and after the last the phase is `Ready`, the result is Ok, and nothing
else has changed. -/
def Obligations.InitializeSucceeds : Prop :=
  ∀ s : State, s.mon.phase = .fresh → s.BusOk s.params.initWrites.length →
    ∃ t, exec .initializeChip s = .next t ∧ s.SendsUpTo .modes .caller t { s with
      mon := { s.mon with
        phase := .ready
        configured := true
        regs := s.params.initWrites.foldl (fun m w => Memory.writeBytes m w.start.toNat w.bytes) s.mon.regs
        trace := s.mon.trace ++ s.params.initWrites.map fun w => ⟨0x40, w.start, w.bytes, .ok⟩ }
      bus := { s.bus with
        outcomes := s.bus.outcomes.drop s.params.initWrites.length
        draws := s.bus.draws + s.params.initWrites.length }
      call := { s.call with answer := some .ok } }

/-- R70, R74: after its last transaction the three chip settings hold, and no bank register has changed. -/
def Obligations.InitializeConfiguresTheChip : Prop :=
  ∀ s : State, s.mon.phase = .fresh → s.BusOk s.params.initWrites.length →
    ∃ t u, exec .initializeChip s = .next t ∧ Sys2Proof.core.run (s.params.initWrites.length - 1) t = .next u ∧
      u.modeEffects = [.autoIncrement, .internalOscillator, .invertedPushPullOutputs] ∧
      ∀ a, inBank a → Memory.read u.mon.regs a = Memory.read s.mon.regs a

/-- R73, R94: when transaction `k` answers Err, in the step that sends it, `phase <- Dead`, the result is `BusError`,
every register that transaction targeted is unknown, and no later transaction is sent. -/
def Obligations.InitializeFailureIsFatal : Prop :=
  ∀ (s : State) (k : Nat) (w : InitWrite), s.mon.phase = .fresh → s.params.initWrites[k]? = some w →
    s.BusErrAfter k →
    ∃ t u, exec .initializeChip s = .next t ∧ Sys2Proof.core.run k t = .next u ∧ u.bus.transfer = none ∧
      u.mon.phase = .dead ∧ u.call.answer = some .busError ∧
      (∀ a, w.start.toNat ≤ a → a < w.start.toNat + w.bytes.length → Memory.read u.mon.regs a = none) ∧
      u.mon.trace = s.mon.trace ++ (s.params.initWrites.take k).map (fun v => ⟨0x40, v.start, v.bytes, .ok⟩) ++
        [⟨0x40, w.start, w.bytes, .err⟩]

/-- R72, R124, R143: `initialize` while `Ready` or `Dead` records its fault, sends nothing, and changes nothing else. -/
def Obligations.InitializeOutOfOrderIsAFault : Prop :=
  ∀ s : State,
    (s.mon.phase = .ready → exec .initializeChip s = .next (s.faulted .reInitialized)) ∧
    (s.mon.phase = .dead → exec .initializeChip s = .next (s.faulted .afterBusError))

/-! ## Commands -/

/-- R80, R85, R86, R93: Release while `Ready`, with every transaction answering Ok and under any `MAX_BLOCK`: the chunks
of its frame are sent in order, one in each step; after the last the bank has the frame's bytes, the trace their records,
the caller Ok, and nothing else has changed. -/
def Obligations.CmdReleaseWritesItsFrame : Prop :=
  ∀ (m : Motor) (s : State), s.mon.phase = .ready → s.BusOk (s.commandSends m none) →
    ∃ t, exec (.cmdRelease m) s = .next t ∧ s.SendsUpTo (.frame m .release) .caller t (s.commanded m none)

/-- R81, R85, R86, R93: Brake while `Ready`, with every transaction answering Ok and under any `MAX_BLOCK`: the chunks of
its frame are sent in order, one in each step; after the last the bank has the frame's bytes, the trace their records, the
caller Ok, and nothing else has changed. -/
def Obligations.CmdBrakeWritesItsFrame : Prop :=
  ∀ (m : Motor) (s : State), s.mon.phase = .ready → s.BusOk (s.commandSends m (some 0)) →
    ∃ t, exec (.cmdBrake m) s = .next t ∧ s.SendsUpTo (.frame m .brake) .caller t (s.commanded m (some 0))

/-- R82, R84, R85, R86, R93: Forward at every speed while `Ready`, with every transaction answering Ok and under any
`MAX_BLOCK`: the chunks of its frame are sent in order, one in each step; after the last the bank has the frame's bytes,
the trace their records, the caller Ok, and nothing else has changed. -/
def Obligations.CmdForwardWritesItsFrame : Prop :=
  ∀ (m : Motor) (v : Speed) (s : State), s.mon.phase = .ready → s.BusOk (s.commandSends m (some v.val)) →
    ∃ t, exec (.cmdForward m v) s = .next t ∧ s.SendsUpTo (.frame m (.forward v)) .caller t (s.commanded m (some v.val))

/-- R83, R84, R85, R86, R93: Reverse at every speed while `Ready`, with every transaction answering Ok and under any
`MAX_BLOCK`: the chunks of its frame are sent in order, one in each step; after the last the bank has the frame's bytes,
the trace their records, the caller Ok, and nothing else has changed. -/
def Obligations.CmdReverseWritesItsFrame : Prop :=
  ∀ (m : Motor) (v : Speed) (s : State), s.mon.phase = .ready → s.BusOk (s.commandSends m (some (-(v.val : Int)))) →
    ∃ t, exec (.cmdReverse m v) s = .next t ∧ s.SendsUpTo (.frame m (.reverse v)) .caller t (s.commanded m (some (-(v.val : Int))))

/-- R24, R30, R80 to R83, R93, R144: after the last transaction of a successful command while `Ready` its motor reads the
case's logical state, every other motor as before. After the first j of several, its bank holds new bytes in the chunks
already sent and old bytes in the rest. -/
def Obligations.MotorReadsTheCommandedState : Prop :=
  ∀ (m : Motor) (c : Case) (s : State), s.mon.phase = .ready → s.BusOk 12 →
    ∃ t, exec (caseInstr m c) s = .next t ∧
      (∀ j, 1 ≤ j → j * s.params.maxBlock < 12 → ∃ u, Sys2Proof.core.run (j - 1) t = .next u ∧
        ∀ a, Memory.read u.mon.regs a =
          if 6 + 16 * m.val ≤ a ∧ a < 6 + 16 * m.val + j * s.params.maxBlock then
            (frameOf s.params c).bytes[a - (6 + 16 * m.val)]?
          else Memory.read s.mon.regs a) ∧
      ∃ u, Sys2Proof.core.run (s.commandSends m c.velocity - 1) t = .next u ∧ u.motor m = .state c.logical ∧
        ∀ j, j ≠ m → u.motor j = s.motor j

/-- R85, R93: the j-th transaction of `Emit` carries bytes j*M .. min(n, (j+1)*M) - 1 to start + j*M; one transaction if
the bytes fit in M = `MAX_BLOCK`. -/
def Obligations.EmitSplitsByMaxBlock : Prop :=
  ∀ (p : Params) (start : RegAddr) (bytes : List Byte) (j : Nat),
    (splitBlock p start bytes)[j]? =
      if j * p.maxBlock < bytes.length then
        some ⟨start + BitVec.ofNat 8 (j * p.maxBlock), (bytes.drop (j * p.maxBlock)).take p.maxBlock⟩
      else none

/-- R93, R94, R95, R123, R128: when a command's k-th transaction answers Err, in the step that sends it, `phase <- Dead`,
the result is `BusError`, no later chunk is sent, the failed chunk's registers are unknown, those of the chunks before it
hold the new bytes, and every other register is as before. -/
def Obligations.CommandBusErrorIsFatal : Prop :=
  ∀ (m : Motor) (c : Case) (s : State) (k : Nat) (b : Block), s.mon.phase = .ready →
    (splitBlock s.params (bankStart m) (frameOf s.params c).bytes)[k]? = some b → s.BusErrAfter k →
    ∃ t u, exec (caseInstr m c) s = .next t ∧ Sys2Proof.core.run k t = .next u ∧ u.bus.transfer = none ∧
      u.mon.phase = .dead ∧ u.call.answer = some .busError ∧
      u.mon.trace = s.mon.trace ++
        ((splitBlock s.params (bankStart m) (frameOf s.params c).bytes).take k).map
          (fun x => ⟨0x40, x.start, x.bytes, .ok⟩) ++ [⟨0x40, b.start, b.bytes, .err⟩] ∧
      ∀ a, Memory.read u.mon.regs a =
        if b.start.toNat ≤ a ∧ a < b.start.toNat + b.bytes.length then none
        else if 6 + 16 * m.val ≤ a ∧ a < b.start.toNat then (frameOf s.params c).bytes[a - (6 + 16 * m.val)]?
        else Memory.read s.mon.regs a

/-- R95, R146: a transaction that never returns: of a command, on any chunk; of `initialize`, any of `InitTransactions`,
also where the host calls it; of a WRITE_BLOCK call; of any request of any line, the one the line's step issues or one
still left; of any release of any shutdown, the first of the end of the stream's or a later one. The step that sends it
leaves no record of it and no effect, the transactions before it keep theirs, the request has no result, and the machine
stays as it is for ever (assumption log 13). Where `initialize` never succeeded, a release's transactions of several bytes
leave their registers unknown (R139 over R86 and R95: assumption log 15). That a release goes on with a signal there and
`SIGNAL_SHUTDOWN` true is the model's choice (assumption log 10). -/
def Obligations.UnreturnedWriteBlocksForEver : Prop :=
  (∀ (m : Motor) (c : Case) (s : State) (k : Nat) (b : Block), (s.chunksOf m c)[k]? = some b → s.BusNeverAfter k →
    (s.mon.phase = .ready →
      HangsAfter k (s.mon.sent true ((s.chunksOf m c).take k)) (exec (caseInstr m c) s) ∧
      (s.hostStopped = false → s.host.signalIn ≠ some 0 →
        (∀ i xs, i.expandsTo ((m, c.velocity) :: xs) →
          HangsAfter k (s.mon.sent true ((s.chunksOf m c).take k)) (exec i s)) ∧
        (∀ rest, s.call.inbox = [] → s.host.pending = ((m.val : Int), c.velocity) :: rest →
          HangsAfter k (s.mon.sent true ((s.chunksOf m c).take k)) (step s)))) ∧
    (s.mon.phase ≠ .fresh → c = .release → s.host.signalIn ≠ some 0 ∨ s.params.signalShutdown = true →
      (m = 0 → s.hostStopped = false →
        HangsAfter k (s.mon.sent s.initialized ((s.chunksOf m c).take k)) (exec .endOfStream s)) ∧
      ∀ rest e, s.call.inbox = [] → s.host.stage = .stopping ((m.val : Int) :: rest) e →
        HangsAfter k (s.mon.sent s.initialized ((s.chunksOf m c).take k)) (step s))) ∧
  (∀ (s : State) (k : Nat) (w : InitWrite), s.mon.phase = .fresh → s.params.initWrites[k]? = some w → s.BusNeverAfter k →
    HangsAfter k (s.mon.sent true ((s.params.initWrites.take k).map InitWrite.block)) (exec .initializeChip s) ∧
    (s.call.inbox = [] → s.host.stage = .startup → s.host.pending = [] →
      HangsAfter k (s.mon.sent true ((s.params.initWrites.take k).map InitWrite.block)) (step s))) ∧
  ∀ (start : RegAddr) (bytes : List Byte) (s : State), bytes ≠ [] → start.toNat + bytes.length ≤ 256 →
    s.bus.outcomes.head? = some .never → HangsAfter 0 s.mon (exec (.writeBlock 0x40 start bytes) s)

/-- R79, R121, R125: a request with an operand out of range is rejected, index first; the caller gets `OutOfRange`, and
nothing else changes. -/
def Obligations.RejectedRequestHasNoEffect : Prop :=
  ∀ (p : Params) (i : Int) (vel : Option Int) (s : State), s.mon.phase = .ready →
    (i < 0 ∨ 3 < i →
      decode p (.command i vel) = .ok (.rejectOutOfRange i vel) ∧
      exec (.rejectOutOfRange i vel) s =
        .next { s with call := { s.call with answer := some (.outOfRange (.motorIndex i)) } }) ∧
    ∀ v : Int, 0 ≤ i → i ≤ 3 → vel = some v → 4095 ≤ v.natAbs →
      decode p (.command i vel) = .ok (.rejectOutOfRange i vel) ∧
      exec (.rejectOutOfRange i vel) s =
        .next { s with call := { s.call with answer := some (.outOfRange (.velocity v)) } }

/-- R141, R78, R124, R125: any command while `Fresh`, valid or not, records `NotInitialized`; nothing else changes. So
does every request of a host line that expands into requests (R106 to R109): none is sent, and none has a result or a
diagnostic. That the host then goes on with the line is the model's choice (assumption log 19), and that the line's
requests go before those left of an earlier one (assumption log 7). The shutdown has its own statement. -/
def Obligations.UninitializedCommandIsAFault : Prop :=
  (∀ (i : Int) (vel : Option Int) (s : State), s.mon.phase = .fresh →
    exec (decodeCommand i vel) s = .next (s.faulted .notInitialized)) ∧
  ∀ (i : Instr) (requests : List (Int × Option Int)) (s : State), i.requests = some requests → s.mon.phase = .fresh → s.Running →
    ∃ t, t = { s.faulted .notInitialized with host := { s.host with pending := requests.tail ++ s.host.pending } } ∧
      exec i s = .next t ∧
      (s.call.inbox = [] → Sys2Proof.core.run (requests.length - 1) t = .next (s.faulted .notInitialized))

/-- R72, R78, R124, R142: any command while `Dead`, valid or not, records `AfterBusError`; nothing else changes. So does
every request of a host line that expands into requests (R106 to R109): none is sent, and none has a result or a
diagnostic. That the host then goes on with the line is the model's choice (assumption log 19), and that the line's
requests go before those left of an earlier one (assumption log 7). The shutdown has its own statement. -/
def Obligations.CommandAfterBusErrorIsAFault : Prop :=
  (∀ (i : Int) (vel : Option Int) (s : State), s.mon.phase = .dead →
    exec (decodeCommand i vel) s = .next (s.faulted .afterBusError)) ∧
  ∀ (i : Instr) (requests : List (Int × Option Int)) (s : State), i.requests = some requests → s.mon.phase = .dead → s.Running →
    ∃ t, t = { s.faulted .afterBusError with host := { s.host with pending := requests.tail ++ s.host.pending } } ∧
      exec i s = .next t ∧
      (s.call.inbox = [] → Sys2Proof.core.run (requests.length - 1) t = .next (s.faulted .afterBusError))

/-- R84: the duty of a driving case is 4095 - |v|, in 1..4094, its high byte at most 0x0F; it gives back the magnitude;
Release and Brake have duty 0. -/
def Obligations.DutyIsInverted : Prop :=
  ∀ (p : Params) (v : Speed),
    (∀ f : Frame, f = forwardFrame p v ∨ f = reverseFrame p v →
      f.duty.b0.toNat + 256 * f.duty.b1.toNat = 4095 - v.val ∧ 1 ≤ 4095 - v.val ∧ 4095 - v.val ≤ 4094 ∧
      f.duty.b1.toNat ≤ 0x0F ∧ 4095 - (f.duty.b0.toNat + 256 * f.duty.b1.toNat) = v.val) ∧
    ∀ f : Frame, f = releaseFrame p ∨ f = brakeFrame p → f.duty.b0.toNat + 256 * f.duty.b1.toNat = 0

/-- R87, R88: what a command sends, and its result, do not depend on earlier requests or on the register image: on the
same answers of the bus, two blocks that are `Ready` add the same records step by step, end the request in the same step,
and with the same result. -/
def Obligations.CommandsIgnoreHistory : Prop :=
  ∀ (i : Int) (vel : Option Int) (s s' : State), s.mon.phase = .ready → s'.mon.phase = .ready →
    s.params = s'.params → s.bus = s'.bus → s.BusFree →
    ∃ t t' k, exec (decodeCommand i vel) s = .next t ∧ exec (decodeCommand i vel) s' = .next t' ∧
      ∀ j, j ≤ k → ∃ u u' r, Sys2Proof.core.run j t = .next u ∧ Sys2Proof.core.run j t' = .next u' ∧
        u.mon.trace = s.mon.trace ++ r ∧ u'.mon.trace = s'.mon.trace ++ r ∧ u.call.answer = u'.call.answer ∧
        u.mon.phase = u'.mon.phase ∧ u.bus = u'.bus ∧ (u.bus.transfer = none ↔ j = k)

/-- R44: issuing the same command again, once all its transactions have answered Ok, and with those of the second
answering Ok, leaves every register as it is after the last, and adds the same records to the trace. -/
def Obligations.ReissuedCommandChangesNoRegister : Prop :=
  ∀ (m : Motor) (c : Case) (s : State), s.mon.phase = .ready → s.BusOk 24 →
    ∃ t t' u u' r, exec (caseInstr m c) s = .next t ∧
      Sys2Proof.core.run (s.commandSends m c.velocity - 1) t = .next t' ∧ exec (caseInstr m c) t' = .next u ∧
      Sys2Proof.core.run (s.commandSends m c.velocity - 1) u = .next u' ∧
      (∀ a, Memory.read u'.mon.regs a = Memory.read t'.mon.regs a) ∧
      t'.mon.trace = s.mon.trace ++ r ∧ u'.mon.trace = t'.mon.trace ++ r ∧ r ≠ []

/-! ## WRITE_BLOCK -/

/-- R36, R90, R95 (Ok), R139: the trace has the record and the result is Ok, and nothing else but the targeted registers
changes. They take their bytes once `initialize` has succeeded, and for a single byte; before that, several bytes leave
them unknown (assumption log 15). A start register of no bank is treated alike (assumption log 26). -/
def Obligations.WriteBlockSucceeds : Prop :=
  ∀ (start : RegAddr) (bytes : List Byte) (s : State), bytes ≠ [] → start.toNat + bytes.length ≤ 256 →
    s.bus.outcomes.head? = some .ok →
    exec (.writeBlock 0x40 start bytes) s = .next { s with
      mon := { s.mon with
        regs :=
          if s.initialized = true ∨ bytes.length = 1 then Memory.writeBytes s.mon.regs start.toNat bytes
          else Memory.forgetRange s.mon.regs start.toNat bytes.length
        trace := s.mon.trace ++ [⟨0x40, start, bytes, .ok⟩] }
      bus := { s.bus with outcomes := s.bus.outcomes.tail, draws := s.bus.draws + 1 }
      call := { s.call with answer := some .ok } }

/-- R95 (Err): the targeted registers are unknown, the trace has the record, `phase <- Dead`, the result is `BusError`. -/
def Obligations.WriteBlockFails : Prop :=
  ∀ (start : RegAddr) (bytes : List Byte) (s : State), bytes ≠ [] → start.toNat + bytes.length ≤ 256 →
    s.bus.outcomes.head? = some .err →
    exec (.writeBlock 0x40 start bytes) s = .next { s with
      mon := { s.mon with
        phase := .dead
        regs := Memory.forgetRange s.mon.regs start.toNat bytes.length
        trace := s.mon.trace ++ [⟨0x40, start, bytes, .err⟩] }
      bus := { s.bus with outcomes := s.bus.outcomes.tail, draws := s.bus.draws + 1 }
      call := { s.call with answer := some .busError } }

/-- R33, R90, R91: operands outside their ranges stop the machine by name. The stop is the model's (assumption log 12). -/
def Obligations.WriteBlockStopsOutsideItsRanges : Prop :=
  ∀ (dev : DevAddr) (start : RegAddr) (bytes : List Byte) (s : State),
    (dev ≠ 0x40 → exec (.writeBlock dev start bytes) s = .fault .noSuchDevice) ∧
    (exec (.writeBlock 0x40 start []) s = .fault .emptyBlock) ∧
    (bytes ≠ [] → 256 < start.toNat + bytes.length →
      exec (.writeBlock 0x40 start bytes) s = .fault .noSuchRegister)

/-! ## Host lines -/

/-- R106, R48, R144: a line of 0 tokens, while the host takes lines and the block is `Ready`, with every transaction
answering Ok, releases motors 0, 1, 2, 3, in order, each transaction in a step of its own: after the steps of each request
the motors so far are released, and the others are as before. Requests left of an earlier line come after those of this
one: their order is the model's choice (assumption log 7). -/
def Obligations.ReleaseAllReleasesInOrder : Prop :=
  ∀ s : State, s.Running → s.mon.phase = .ready → s.BusOk 48 →
    ∃ t, exec .releaseAll s = .next t ∧
      Sys2Proof.core.run (s.commandSends 0 none - 1) t = .next (s.afterRequests releases 1) ∧
      (s.call.inbox = [] → ∀ j, 1 ≤ j → j ≤ 4 →
        Sys2Proof.core.run (s.stepsFor (releases.take j) - 1) t = .next (s.afterRequests releases j)) ∧
      s.afterRequests releases 4 = s.released

/-- R107, R111, R112: a line of 1 token, while the host runs and the block is `Ready`, releases its motor (its
transactions answering Ok, each in a step of its own), or is rejected with one diagnostic, or is a `ParseError`. -/
def Obligations.ReleaseOneReleasesItsMotor : Prop :=
  ∀ s : State, s.Running → s.mon.phase = .ready →
    (∀ m : Motor, s.BusOk (s.commandSends m none) → ∃ t, exec (.releaseOne (.num m.val)) s = .next t ∧
      s.SendsUpTo (.frame m .release) .line t (s.commanded m none)) ∧
    (∀ i : Int, i < 0 ∨ 3 < i →
      exec (.releaseOne (.num i)) s =
        .next (s.rejectedWith (.motorIndex i) ⟨.outOfRangeMotorIndex, .line s.host.line, some i⟩)) ∧
    ∀ w, exec (.releaseOne (.word w)) s = .next s.parseFailed

/-- R108, R111, R112, C6: a line of 2 tokens, while the host runs and the block is `Ready` and its transactions answer Ok,
sets its motor, each transaction in a step of its own, the velocity rejected if its magnitude is 4095 or more; a
non-numeric velocity releases the motor; an index out of range is rejected; a non-numeric index is a `ParseError`. -/
def Obligations.SetOneSetsItsMotor : Prop :=
  ∀ s : State, s.Running → s.mon.phase = .ready → s.BusOk 12 →
    (∀ (m : Motor) (v : Int), ∃ t, exec (.setOne (.num m.val) (.num v)) s = .next t ∧
      Sys2Proof.core.run (s.requestSteps (m, some v) - 1) t = .next (s.settled m v)) ∧
    (∀ (m : Motor) w, ∃ t, exec (.setOne (.num m.val) (.word w)) s = .next t ∧
      s.SendsUpTo (.frame m .release) .line t (s.commanded m none)) ∧
    (∀ (i : Int) (t1 : Token), i < 0 ∨ 3 < i →
      exec (.setOne (.num i) t1) s =
        .next (s.rejectedWith (.motorIndex i) ⟨.outOfRangeMotorIndex, .line s.host.line, some i⟩)) ∧
    ∀ w t1, exec (.setOne (.word w) t1) s = .next s.parseFailed

/-- R109, R111, R126, R48: a line of 4 numbers, while the host takes lines and the block is `Ready` and its transactions
answer Ok, sets motors 0, 1, 2, 3, in order, each transaction in a step of its own; a velocity out of range is rejected
with its own diagnostic, and the later motors are still set. Requests left of an earlier line come after those of this
one: their order is the model's choice (assumption log 7). -/
def Obligations.SetAllSetsInOrder : Prop :=
  ∀ (v0 v1 v2 v3 : Int) (s : State), s.Running → s.mon.phase = .ready → s.BusOk 48 →
    ∃ t, exec (.setAll (.num v0) (.num v1) (.num v2) (.num v3)) s = .next t ∧
      Sys2Proof.core.run (s.requestSteps (0, some v0) - 1) t =
        .next (s.afterRequests [(0, some v0), (1, some v1), (2, some v2), (3, some v3)] 1) ∧
      (s.call.inbox = [] → ∀ j, 1 ≤ j → j ≤ 4 →
        Sys2Proof.core.run
            (s.stepsFor (([(0, some v0), (1, some v1), (2, some v2), (3, some v3)] : List (Motor × Option Int)).take j) - 1) t =
          .next (s.afterRequests [(0, some v0), (1, some v1), (2, some v2), (3, some v3)] j)) ∧
      s.afterRequests [(0, some v0), (1, some v1), (2, some v2), (3, some v3)] 4 =
        (((s.settled 0 v0).settled 1 v1).settled 2 v2).settled 3 v3

/-- R109, R119: one non-numeric token makes the whole line a `ParseError`: one diagnostic, no request, no other effect,
but that an announced signal comes nearer (assumption log 10). -/
def Obligations.SetAllFailsAsAWhole : Prop :=
  ∀ (t0 t1 t2 t3 : Token) (s : State), s.hostStopped = false → (∃ w, .word w ∈ [t0, t1, t2, t3]) →
    exec (.setAll t0 t1 t2 t3) s = .next s.parseFailed

/-- R110, R119: a malformed line is a `ParseError`: one diagnostic with its number, no request, no other effect, but that
an announced signal comes nearer (assumption log 10). -/
def Obligations.MalformedLineIsReported : Prop :=
  ∀ (ts : List Token) (s : State), s.hostStopped = false → exec (.malformed ts) s = .next s.parseFailed

/-- R113, R114, R153: at the end of the stream, with no signal announced and every transaction answering Ok, motors 0..3
are released in order, each transaction in a step of its own, whatever the lines did, and the run ends normally with every
motor Floating. Shutdown attempts pass in `Dead` (D31). Where `initialize` never succeeded the motors read unknown, for
R36 does not hold then (R139, assumption log 15). On a `Fresh` block (R78, R124, R141) each of the four records
`NotInitialized` and sends nothing; that the host then goes on to the next, and to the normal end, is the model's choice
(assumption log 19). So is what an end of the stream handed over early does: requests left of a line, and lines of the
input still unread, are abandoned, and the end is the normal one (assumption log 7). -/
def Obligations.EndOfStreamReleasesEveryMotor : Prop :=
  ∀ s : State, s.hostStopped = false → s.host.signalIn = none →
    (s.mon.phase ≠ .fresh → s.BusOk 48 →
      ∃ t, exec .endOfStream s = .next t ∧
        Sys2Proof.core.run (s.commandSends 0 none - 1) t = .next { s.commanded 0 none with
          host := { s.host with stage := .stopping [1, 2, 3] .normal, pending := [] } } ∧
        (s.call.inbox = [] → Sys2Proof.core.run (s.stepsFor releases - 1) t =
          .next { s.released with host := { s.host with stage := .ended .normal, pending := [] } }) ∧
        ∀ m, s.released.motor m = s.releasedReading) ∧
    (s.mon.phase = .fresh →
      ∃ t, t = { s.faulted .notInitialized with
          host := { s.host with stage := .stopping [1, 2, 3] .normal, pending := [] } } ∧
        exec .endOfStream s = .next t ∧
        (s.call.inbox = [] → Sys2Proof.core.run 3 t = .next { s.faulted .notInitialized with
          host := { s.host with stage := .ended .normal, pending := [] } }))

/-- R114, R93, R94, D12, D31: under `best_effort` and any `MAX_BLOCK`, with no signal announced, a shutdown, the end of
the stream's or one begun otherwise, attempts every release once, whichever of them fail and on whichever chunk. Each
transaction is a step; after a failed chunk the same motor's later ones are not sent, the failure has its diagnostic with
the motor index, and the next motor's release follows; after the last the run ends as it was to end (assumption log 22),
also where an end of the stream was handed over with lines still unread (assumption log 7). Where `initialize` has
succeeded, the registers are what these transactions leave in them (R36, R95). -/
def Obligations.BestEffortShutdownTriesEveryMotor : Prop :=
  ∀ (s : State) (fails : Motor → Option Nat) (rest : List BusOutcome) (e : EndKind) (r : Host.Outcome State Fault Refusal),
    s.BusFree → s.host.signalIn = none → s.call.inbox = [] → s.mon.phase ≠ .fresh →
    s.params.shutdownPolicy = .bestEffort → (∀ m k, fails m = some k → k < s.commandSends m none) →
    s.bus.outcomes = (s.attempts [0, 1, 2, 3] fails).map Transaction.answer ++ rest →
    (s.hostStopped = false ∧ e = .normal ∧ r = exec .endOfStream s) ∨
      (s.host.stage = .stopping [0, 1, 2, 3] e ∧ r = step s) →
    ∃ t u, r = .next t ∧ Sys2Proof.core.run ((s.attempts [0, 1, 2, 3] fails).length - 1) t = .next u ∧
      u.host.stage = .ended e ∧ u.mon.trace = s.mon.trace ++ s.attempts [0, 1, 2, 3] fails ∧
      (s.mon.configured = true →
        u.mon.regs = (s.attempts [0, 1, 2, 3] fails).foldl applyTransaction s.mon.regs) ∧
      u.host.diags = s.host.diags ++ (([0, 1, 2, 3] : List Motor).filter (fun m => (fails m).isSome)).map
        (fun m => ⟨.busError, .eos, some (m.val : Int)⟩)

/-- R114, R93, R94, D12: under `stop_at_first_error` and any `MAX_BLOCK`, with no signal announced, a shutdown, the end of
the stream's or one begun otherwise, ends at its first failure, on chunk j of motor k's release: in the step that sends
that chunk it has its diagnostic, and neither a later chunk nor a later motor's release is sent. That the host's reaction
shares that step, and that the end is the one the shutdown was to have, is the model's (assumption log 14 and 22), also
where an end of the stream was handed over with lines still unread (assumption log 7). Where `initialize` has succeeded,
the registers are what these transactions leave in them (R36, R95). -/
def Obligations.StoppingShutdownStopsAtTheFirstError : Prop :=
  ∀ (s : State) (k : Motor) (j : Nat) (e : EndKind) (r : Host.Outcome State Fault Refusal),
    s.host.signalIn = none → s.call.inbox = [] → s.mon.phase ≠ .fresh →
    s.params.shutdownPolicy = .stopAtFirstError → j < s.commandSends k none →
    s.BusErrAfter (s.stepsFor (releases.take k.val) + j) →
    (s.hostStopped = false ∧ e = .normal ∧ r = exec .endOfStream s) ∨
      (s.host.stage = .stopping [0, 1, 2, 3] e ∧ r = step s) →
    ∃ t u, r = .next t ∧ Sys2Proof.core.run (s.stepsFor (releases.take k.val) + j) t = .next u ∧
      u.host.stage = .ended e ∧ u.mon.phase = .dead ∧
      u.mon.trace = s.mon.trace ++ s.attempts (([0, 1, 2, 3] : List Motor).take k.val) (fun _ => none) ++ s.attempt k (some j) ∧
      (s.mon.configured = true →
        u.mon.regs = (s.attempts (([0, 1, 2, 3] : List Motor).take k.val) (fun _ => none) ++ s.attempt k (some j)).foldl
          applyTransaction s.mon.regs) ∧
      u.host.diags = s.host.diags ++ [⟨.busError, .eos, some (k.val : Int)⟩]

/-- R115, R117, R123, R126, D11: a `BusError` on any request of any line, the one the line's step issues or one still
left, on any chunk of its frame, ends the line and the process in the step that sends that chunk, with no diagnostic: no
later chunk, no later request. With `SHUTDOWN_AFTER_BUSERROR` false no transaction follows and the machine changes no
more; with it true the release-all runs first, and with no signal announced and its transactions answering Ok every motor
ends Floating, for a `Ready` block's chip is configured (StepKeepsPhaseOrder; in a state no run reaches, where it is not,
the motors read unknown: assumption log 15). -/
def Obligations.BusErrorEndsTheProcess : Prop :=
  ∀ (s : State) (m : Motor) (c : Case) (k : Nat) (b : Block) (r : Host.Outcome State Fault Refusal), s.hostStopped = false →
    s.host.signalIn ≠ some 0 → s.mon.phase = .ready → (s.chunksOf m c)[k]? = some b → s.BusErrAfter k →
    ((∃ i xs, i.expandsTo ((m, c.velocity) :: xs) ∧ r = exec i s) ∨
      (s.call.inbox = [] ∧ (∃ rest, s.host.pending = ((m.val : Int), c.velocity) :: rest) ∧ r = step s)) →
    ∃ t0 t, r = .next t0 ∧ Sys2Proof.core.run k t0 = .next t ∧ t.mon.phase = .dead ∧ t.host.diags = s.host.diags ∧
      t.host.pending = [] ∧
      t.mon.trace = s.mon.trace ++ ((s.chunksOf m c).take k).map (fun x => ⟨0x40, x.start, x.bytes, .ok⟩) ++
        [⟨0x40, b.start, b.bytes, .err⟩] ∧
      (s.params.shutdownAfterBusError = false → t.host.stage = .ended .fatalBusError ∧
        (s.call.inbox = [] → ∀ n, Sys2Proof.core.run n t = .next t)) ∧
      (s.params.shutdownAfterBusError = true → t.host.stage = .stopping [0, 1, 2, 3] .fatalBusError ∧
        (s.call.inbox = [] → s.host.signalIn = none → t.BusOk 48 →
          Sys2Proof.core.run (s.stepsFor releases) t =
            .next { t.released with host := { t.host with stage := .ended .fatalBusError } } ∧
          ∀ j, t.released.motor j = t.releasedReading ∧
            (s.mon.configured = true → t.released.motor j = .state .floating)))

/-- R116, R152 (d): a signal that has arrived is taken before the next line is read, and before the next request of a line
that has some left. With `SIGNAL_SHUTDOWN` false the process ends with no further transaction; with it true the
release-all runs first; that the signal stays there and does not stop it is the model's choice (assumption log 10). Where
`initialize` never succeeded, a release's transactions of several bytes leave their registers unknown (R139 over R86 and
R95: assumption log 15). -/
def Obligations.SignalEndsLineProcessing : Prop :=
  ∀ s : State, s.hostStopped = false → s.call.inbox = [] → s.host.stage = .reading ∨ s.host.pending ≠ [] →
    s.host.signalIn = some 0 →
    (s.params.signalShutdown = false →
      step s = .next { s with host := { s.host with stage := .ended .signalled, pending := [] } }) ∧
    (s.params.signalShutdown = true →
      step s = .next { s with host := { s.host with stage := .stopping [0, 1, 2, 3] .signalled, pending := [] } } ∧
      (s.mon.phase ≠ .fresh → s.BusOk 48 →
        Sys2Proof.core.run (1 + s.stepsFor releases) s =
          .next { s.released with host := { s.host with stage := .ended .signalled, pending := [] } }))

/-- R116: a signal that arrives after the k-th request of any line abandons the later ones: the first k are performed, and
then the process ends, after the release-all if `SIGNAL_SHUTDOWN`. When it arrives is the model's input (assumption log
10), and that the line's requests go before those left of an earlier one, which are abandoned with the rest, is its choice
(assumption log 7). -/
def Obligations.SignalAbandonsTheRestOfALine : Prop :=
  ∀ (i : Instr) (xs : List (Motor × Option Int)) (k : Nat) (s : State), i.expandsTo xs → 1 ≤ k → k < xs.length →
    s.hostStopped = false → s.host.signalIn = some k → s.call.inbox = [] → s.mon.phase = .ready → s.BusOk 48 →
    ∃ t, exec i s = .next t ∧
      Sys2Proof.core.run (s.stepsFor (xs.take k)) t = .next { s.performedAll (xs.take k) with
        host := { (s.performedAll (xs.take k)).host with
          stage := if s.params.signalShutdown then .stopping [0, 1, 2, 3] .signalled else .ended .signalled
          pending := []
          signalIn := some 0 } }

/-- R116, D18, D30: a signal that arrives after the k-th release of the end-of-stream shutdown, or before its first. With
`SIGNAL_SHUTDOWN` false the process ends with no further transaction; with it true the release-all, which runs already,
goes on to its own end. When it arrives, and that the release-all does not start again, is the model's (assumption log
10). Where `initialize` never succeeded, a release's transactions of several bytes leave their registers unknown (R139
over R86 and R95: assumption log 15). That requests left of a line, and lines still unread, are abandoned and the end can
be the normal one is the model's choice (assumption log 7). -/
def Obligations.SignalEndsTheShutdown : Prop :=
  ∀ (k : Nat) (s : State), k ≤ 3 → s.hostStopped = false → s.host.signalIn = some k → s.call.inbox = [] →
    s.mon.phase ≠ .fresh → s.BusOk 48 →
    ∃ t, exec .endOfStream s = .next t ∧
      (s.params.signalShutdown = false →
        Sys2Proof.core.run (s.stepsFor (releases.take k)) t =
          .next { s.performedAll (releases.take k) with
            host := { s.host with stage := .ended .signalled, pending := [], signalIn := some 0 } }) ∧
      (s.params.signalShutdown = true →
        Sys2Proof.core.run (s.stepsFor releases - 1) t =
          .next { s.released with host := { s.host with stage := .ended .normal, pending := [], signalIn := some 0 } })

/-- R101, R138, R152 (c): at startup the host initializes, each of `InitTransactions` in a step of its own, then reads; if
any of them fails it ends, reads no line, and runs no shutdown. -/
def Obligations.StartupInitializesFirst : Prop :=
  ∀ s : State, s.BusFree → s.call.inbox = [] → s.host.stage = .startup → s.host.pending = [] →
    s.mon.phase = .fresh →
    (s.BusOk s.params.initWrites.length →
      ∃ t u, step s = .next t ∧ Sys2Proof.core.run (s.params.initWrites.length - 1) t = .next u ∧
        u.host.stage = .reading ∧ u.mon.phase = .ready ∧ u.host.stream = s.host.stream ∧
        u.mon.trace = s.mon.trace ++ s.params.initWrites.map fun w => ⟨0x40, w.start, w.bytes, .ok⟩) ∧
    ∀ k w, s.params.initWrites[k]? = some w → s.BusErrAfter k →
      ∃ t u, step s = .next t ∧ Sys2Proof.core.run k t = .next u ∧ u.host.stage = .ended .fatalInitialize ∧
        u.mon.phase = .dead ∧ u.host.stream = s.host.stream ∧
        u.mon.trace = s.mon.trace ++ (s.params.initWrites.take k).map (fun v => ⟨0x40, v.start, v.bytes, .ok⟩) ++
          [⟨0x40, w.start, w.bytes, .err⟩] ∧
        ∀ n, Sys2Proof.core.run n u = .next u

/-! ## The step -/

/-- A step runs the decoded instruction: the oldest item of the inbox, taken off it; or, while the host takes lines and no
signal is there, the next request of a line that has some left, which is run as the command it decodes to (R48, R117
`sub`); or, while it reads, the next line of the stream, taken off it and counted, or the end of the stream. Before any of
these, a request of which some transactions have been sent sends its next one, and nothing else (R93, R97). An item that
decodes to no instruction is refused by name. The order of the others is the model's choice (assumption log 7). -/
def Obligations.StepRunsTheDecodedInstruction : Prop :=
  ∀ s : State, s.bus.blocked = false →
    (∀ x, s.bus.transfer = some x → step s = .next (settle x.waiting (sendFrom x.what x.sent (s.setTransfer none)))) ∧
    (s.bus.transfer = none →
      (∀ it rest i, s.call.inbox = it :: rest → decode s.params it = .ok i →
        step s = exec i (countLine it { s with call := { s.call with inbox := rest } })) ∧
      (∀ it rest e, s.call.inbox = it :: rest → decode s.params it = .error e →
        step s = .refused (.undecodable e)) ∧
      (∀ i vel rest, s.call.inbox = [] → s.hostStopped = false → s.host.pending = (i, vel) :: rest →
        s.host.signalIn ≠ some 0 →
        ∃ t, exec (decodeCommand i vel) { s with host := { s.host with pending := rest } } = .next t ∧
          step s = .next (settle .line t)) ∧
      (∀ line rest, s.call.inbox = [] → s.host.stage = .reading → s.host.pending = [] → s.host.signalIn ≠ some 0 →
        takeLine s.host.stream = some (line, rest) →
        step s = exec (decodeLine line)
          { s with host := { s.host with stream := rest, line := s.host.line + 1 } }) ∧
      (s.call.inbox = [] → s.host.stage = .reading → s.host.pending = [] → s.host.signalIn ≠ some 0 →
        takeLine s.host.stream = none → s.host.inputEnded = true →
        step s =
          if s.host.stream = [] then exec .endOfStream { s with host := { s.host with stream := [] } }
          else exec (decodeLine s.host.stream)
            { s with host := { s.host with stream := [], line := s.host.line + 1 } }))

/-- R136, R146, R152: a blocked machine, an ended host with no request handed over or being sent, and a host whose input
holds no line yet and has not ended, stay as they are. -/
def Obligations.WaitingMachineStays : Prop :=
  ∀ s : State,
    (s.bus.blocked = true → step s = .next s) ∧
    (∀ e, s.bus.transfer = none → s.host.stage = .ended e → s.call.inbox = [] → step s = .next s) ∧
    (s.bus.transfer = none → s.host.stage = .reading → s.host.pending = [] → s.call.inbox = [] →
      s.host.signalIn ≠ some 0 → s.host.inputEnded = false → takeLine s.host.stream = none → step s = .next s)

/-! ## Invariants of every step -/

/-- R45, R99: every step keeps the known registers what the recorded transactions, applied in issue order, left in them.
It keeps the whole image so where `initialize` has succeeded, and before that while the block is not `Dead`, no command is
being sent, and no direct WRITE_BLOCK call waits: otherwise R36 does not hold (R139, assumption log 15). -/
def Obligations.StepKeepsImageAsReplay : Prop :=
  ∀ s t : State, step s = .next t →
    (s.KnownIsReplay → t.KnownIsReplay) ∧
    (s.initialized = true ∨ (¬ s.hasBlockCall ∧ s.mon.phase ≠ .dead ∧ ¬ s.sendsFrame) → s.ImageIsReplay → t.ImageIsReplay)

/-- Every step keeps the canonical form of the register image: addresses rising strictly and below 256 (R33). The form is
the model's choice (assumption log 1). -/
def Obligations.StepKeepsRegistersCanonical : Prop :=
  ∀ s t : State, Memory.wf s.mon.regs = true → step s = .next t → Memory.wf t.mon.regs = true

/-- R91, R90, R33: every step keeps it so that every recorded transaction goes to 0x40, has bytes, and has a register for
every byte. R93: it keeps it so that a request being sent has had one transaction sent and has others left; the record of
such a request is the model's own (assumption log 14). -/
def Obligations.StepKeepsTraceInRange : Prop :=
  ∀ s t : State, step s = .next t → (s.TraceInRange → t.TraceInRange) ∧ (s.TransferInRange → t.TransferInRange)

/-- R26: the block writes no register outside the four banks and the mode registers: while no direct WRITE_BLOCK call
waits, every step keeps the known registers inside them. The mode registers lie off the banks by the model's choice
(assumption log 2). -/
def Obligations.StepWritesOnlyItsRegisters : Prop :=
  ∀ s t : State, s.WritesOnlyItsRegisters → step s = .next t → t.WritesOnlyItsRegisters

/-- R124, R20, R112, R8: a step never clears a fault, never changes a recorded transaction or diagnostic, and never
changes the parameters. -/
def Obligations.StepOnlyAddsToHistory : Prop :=
  ∀ s t : State, step s = .next t →
    (∀ f, f ∈ s.mon.faults → f ∈ t.mon.faults) ∧ s.mon.trace <+: t.mon.trace ∧ s.host.diags <+: t.host.diags ∧
      t.params = s.params

/-- R19, R72, R139: a step never leaves `Dead` and never goes back to `Fresh`; a chip that was configured stays so, and a
`Ready` block stays one whose chip is configured. -/
def Obligations.StepKeepsPhaseOrder : Prop :=
  ∀ s t : State, step s = .next t →
    (s.mon.phase = .dead → t.mon.phase = .dead) ∧ (s.mon.phase ≠ .fresh → t.mon.phase ≠ .fresh) ∧
      (s.mon.configured = true → t.mon.configured = true) ∧
      ((s.mon.phase = .ready → s.mon.configured = true) → t.mon.phase = .ready → t.mon.configured = true)

/-! ## Frames -/

/-- What the step of a block's row leaves unchanged, for every outcome of the bus: the parameters, the host, the inbox,
the offset (but for BASE_REGISTER), and every register the row does not target; REJECT_OUT_OF_RANGE and BASE_REGISTER also
leave the phase, the registers, the trace and the bus. The steps of the transactions that are left: HostLineFrame. -/
def Obligations.BlockRequestFrame : Prop :=
  ∀ (i : Instr) (s t : State), i.isHostLine = false → exec i s = .next t →
    t.params = s.params ∧ t.host = s.host ∧ t.call.inbox = s.call.inbox ∧
    ((∀ n, i ≠ .baseRegister n) → t.call.offset = s.call.offset) ∧
    (∀ a, ¬ i.targets s.params a → Memory.read t.mon.regs a = Memory.read s.mon.regs a) ∧
    ((∃ n vel, i = .rejectOutOfRange n vel) ∨ (∃ n, i = .baseRegister n) →
      t.mon.phase = s.mon.phase ∧ t.mon.regs = s.mon.regs ∧ t.mon.trace = s.mon.trace ∧ t.bus = s.bus)

/-- What a host line leaves unchanged, for every outcome of the bus and with a signal in it: the parameters, the inbox,
the offset, the input, the line number, and every register the line does not target: it issues its first request alone. A
step that issues a later request, or a release of the shutdown, changes no register but those of that request's bank; a
step that sends the next transaction of a request changes none but those the request targets, and the host only where the
host waits for it. -/
def Obligations.HostLineFrame : Prop :=
  (∀ (i : Instr) (s t : State), i.isHostLine = true → exec i s = .next t →
    t.params = s.params ∧ t.call.inbox = s.call.inbox ∧ t.call.offset = s.call.offset ∧
    t.host.stream = s.host.stream ∧ t.host.inputEnded = s.host.inputEnded ∧ t.host.line = s.host.line ∧
    ∀ a, ¬ i.targets s.params a → Memory.read t.mon.regs a = Memory.read s.mon.regs a) ∧
  (∀ (s t : State) (i : Int), s.bus.transfer = none → s.call.inbox = [] →
    (s.hostStopped = false ∧ (∃ vel rest, s.host.pending = (i, vel) :: rest) ∨
      ∃ rest e, s.host.stage = .stopping (i :: rest) e) →
    step s = .next t →
    t.params = s.params ∧ t.call.inbox = s.call.inbox ∧ t.call.offset = s.call.offset ∧
    t.host.stream = s.host.stream ∧ t.host.inputEnded = s.host.inputEnded ∧ t.host.line = s.host.line ∧
    ∀ a, (∀ m : Motor, i = m.val → ¬ (6 + 16 * m.val ≤ a ∧ a < 6 + 16 * m.val + 12)) →
      Memory.read t.mon.regs a = Memory.read s.mon.regs a) ∧
  ∀ (s t : State) (x : Transfer), s.bus.transfer = some x → step s = .next t →
    t.params = s.params ∧ t.call.inbox = s.call.inbox ∧ t.call.offset = s.call.offset ∧
    t.host.stream = s.host.stream ∧ t.host.inputEnded = s.host.inputEnded ∧ t.host.line = s.host.line ∧
    (x.waiting = .caller → t.host = s.host) ∧
    ∀ a, ¬ x.what.targets s.params a → Memory.read t.mon.regs a = Memory.read s.mon.regs a

/-- R124, R128: a block request that records a new fault sends nothing and changes no register, and leaves the phase and
the bus. -/
def Obligations.FaultsArePrecise : Prop :=
  ∀ (i : Instr) (s t : State), i.isHostLine = false → exec i s = .next t → t.mon.faults ≠ s.mon.faults →
    t.mon.phase = s.mon.phase ∧ t.mon.regs = s.mon.regs ∧ t.mon.trace = s.mon.trace ∧ t.bus = s.bus
end

