-- ==== Sys2Proof/Laws/Memory.lean ====
section
/-! SUPPORT. The register image: reads after writes, and the canonical form. -/

namespace Sys2Proof.Machine

@[simp] theorem Memory.read_nil (a : Nat) : Memory.read [] a = none := rfl

@[simp] theorem Memory.read_write (m : Memory) (a : Nat) (b : Byte) (c : Nat) :
    Memory.read (Memory.write m a b) c = if a = c then some b else Memory.read m c := by
  induction m with
  | nil => simp [Memory.write, Memory.read]
  | cons cell rest ih =>
    obtain ⟨k, x⟩ := cell
    simp only [Memory.write]
    split
    · simp [Memory.read]
    · split
      · subst_vars
        simp only [Memory.read]
        split <;> rfl
      · simp only [Memory.read, ih]
        by_cases hkc : k = c
        · have : a ≠ c := by omega
          simp [hkc, this]
        · simp [hkc]

@[simp] theorem Memory.read_forget (m : Memory) (a c : Nat) :
    Memory.read (Memory.forget m a) c = if a = c then none else Memory.read m c := by
  induction m with
  | nil => simp [Memory.forget]
  | cons cell rest ih =>
    obtain ⟨k, x⟩ := cell
    simp only [Memory.forget]
    split
    · next hk =>
      subst hk
      rw [ih]
      simp only [Memory.read]
      by_cases hkc : k = c <;> simp [hkc]
    · simp only [Memory.read, ih]
      by_cases hkc : k = c
      · have : a ≠ c := by omega
        simp [hkc, this]
      · simp [hkc]

/-- Consecutive bytes are read back from consecutive registers; every other register is as before (R36). -/
theorem Memory.read_writeBytes (m : Memory) (a : Nat) (bs : List Byte) (c : Nat) :
    Memory.read (Memory.writeBytes m a bs) c =
      if a ≤ c ∧ c < a + bs.length then bs[c - a]? else Memory.read m c := by
  induction bs generalizing m a with
  | nil =>
    have : ¬ (a ≤ c ∧ c < a + ([] : List Byte).length) := by simp
    rw [if_neg this]
    rfl
  | cons b rest ih =>
    simp only [Memory.writeBytes, ih, Memory.read_write, List.length_cons]
    by_cases hac : a = c
    · subst hac
      simp
    · by_cases hin : a + 1 ≤ c ∧ c < a + 1 + rest.length
      · have hin' : a ≤ c ∧ c < a + (rest.length + 1) := by omega
        have hsub : c - a = (c - (a + 1)) + 1 := by omega
        rw [if_pos hin, if_pos hin', hsub, List.getElem?_cons_succ]
      · have hin' : ¬ (a ≤ c ∧ c < a + (rest.length + 1)) := by omega
        rw [if_neg hin, if_neg hin', if_neg hac]

/-- The registers of a failed transaction are unknown; every other register is as before (R95). -/
theorem Memory.read_forgetRange (m : Memory) (a n c : Nat) :
    Memory.read (Memory.forgetRange m a n) c = if a ≤ c ∧ c < a + n then none else Memory.read m c := by
  induction n generalizing m a with
  | zero =>
    have : ¬ (a ≤ c ∧ c < a + 0) := by omega
    rw [if_neg this]
    rfl
  | succ n ih =>
    simp only [Memory.forgetRange, ih, Memory.read_forget]
    by_cases hac : a = c
    · subst hac
      simp
    · by_cases hin : a + 1 ≤ c ∧ c < a + 1 + n
      · rw [if_pos hin, if_pos (by omega)]
      · rw [if_neg hin, if_neg hac, if_neg (by omega)]

/-! ## The canonical form -/

theorem Memory.wfFrom_mono {lo lo' : Nat} (h : lo' ≤ lo) (m : Memory) (hm : Memory.wfFrom lo m = true) :
    Memory.wfFrom lo' m = true := by
  cases m with
  | nil => rfl
  | cons cell rest =>
    obtain ⟨k, x⟩ := cell
    simp only [Memory.wfFrom, Bool.and_eq_true, decide_eq_true_eq] at hm ⊢
    exact ⟨⟨by omega, hm.1.2⟩, hm.2⟩

theorem Memory.wfFrom_write {lo a : Nat} (m : Memory) (b : Byte) (hlo : lo ≤ a) (ha : a < registerCount)
    (hm : Memory.wfFrom lo m = true) : Memory.wfFrom lo (Memory.write m a b) = true := by
  induction m generalizing lo with
  | nil => simp [Memory.write, Memory.wfFrom, hlo, ha]
  | cons cell rest ih =>
    obtain ⟨k, x⟩ := cell
    simp only [Memory.wfFrom, Bool.and_eq_true, decide_eq_true_eq] at hm
    simp only [Memory.write]
    split
    · simp only [Memory.wfFrom, Bool.and_eq_true, decide_eq_true_eq]
      exact ⟨⟨hlo, ha⟩, ⟨by omega, hm.1.2⟩, hm.2⟩
    · split
      · subst_vars
        simp only [Memory.wfFrom, Bool.and_eq_true, decide_eq_true_eq]
        exact hm
      · simp only [Memory.wfFrom, Bool.and_eq_true, decide_eq_true_eq]
        exact ⟨hm.1, ih (by omega) hm.2⟩

theorem Memory.wfFrom_forget {lo : Nat} (m : Memory) (a : Nat) (hm : Memory.wfFrom lo m = true) :
    Memory.wfFrom lo (Memory.forget m a) = true := by
  induction m generalizing lo with
  | nil => rfl
  | cons cell rest ih =>
    obtain ⟨k, x⟩ := cell
    simp only [Memory.wfFrom, Bool.and_eq_true, decide_eq_true_eq] at hm
    simp only [Memory.forget]
    split
    · exact Memory.wfFrom_mono (by omega) _ (ih hm.2)
    · simp only [Memory.wfFrom, Bool.and_eq_true, decide_eq_true_eq]
      exact ⟨hm.1, ih hm.2⟩

theorem Memory.wf_writeBytes (m : Memory) (a : Nat) (bs : List Byte) (h : a + bs.length ≤ registerCount)
    (hm : m.wf = true) : Memory.wf (Memory.writeBytes m a bs) = true := by
  induction bs generalizing m a with
  | nil => exact hm
  | cons b rest ih =>
    simp only [List.length_cons] at h
    exact ih _ _ (by omega) (Memory.wfFrom_write m b (Nat.zero_le a) (by omega) hm)

theorem Memory.wf_forgetRange (m : Memory) (a n : Nat) (hm : m.wf = true) :
    Memory.wf (Memory.forgetRange m a n) = true := by
  induction n generalizing m a with
  | zero => exact hm
  | succ n ih => exact ih _ _ (Memory.wfFrom_forget m a hm)

/-- A listed cell is what the register reads as. -/
theorem Memory.read_of_mem {lo : Nat} {m : Memory} (hm : Memory.wfFrom lo m = true) {a : Nat} {b : Byte}
    (h : (a, b) ∈ m) : Memory.read m a = some b ∧ lo ≤ a := by
  induction m generalizing lo with
  | nil => simp at h
  | cons cell rest ih =>
    obtain ⟨k, x⟩ := cell
    simp only [Memory.wfFrom, Bool.and_eq_true, decide_eq_true_eq] at hm
    rcases List.mem_cons.mp h with h | h
    · cases h
      simp [Memory.read, hm.1.1]
    · obtain ⟨hr, hlo⟩ := ih hm.2 h
      have : k ≠ a := by omega
      simp [Memory.read, this, hr]
      omega

/-! ## Transactions -/

/-- What one transaction does to what a register reads as (R36, R95). -/
theorem read_applyTransaction (m : Memory) (t : Transaction) (a : Nat) :
    Memory.read (applyTransaction m t) a =
      if t.start.toNat ≤ a ∧ a < t.start.toNat + t.bytes.length then
        match t.outcome with
        | .ok => t.bytes[a - t.start.toNat]?
        | .err => none
      else Memory.read m a := by
  obtain ⟨dev, start, bytes, outcome⟩ := t
  cases outcome
  · exact Memory.read_writeBytes m start.toNat bytes a
  · exact Memory.read_forgetRange m start.toNat bytes.length a

/-- A transaction that has a register for every byte keeps the canonical form. -/
theorem wf_applyTransaction (m : Memory) (t : Transaction) (h : t.start.toNat + t.bytes.length ≤ registerCount)
    (hm : m.wf = true) : Memory.wf (applyTransaction m t) = true := by
  obtain ⟨dev, start, bytes, outcome⟩ := t
  cases outcome
  · exact Memory.wf_writeBytes m _ _ h hm
  · exact Memory.wf_forgetRange m _ _ hm

/-- One more record is one more transaction applied (R45). -/
@[simp] theorem replay_snoc (ts : List Transaction) (t : Transaction) :
    replay (ts ++ [t]) = applyTransaction (replay ts) t := by
  simp [replay]

end Sys2Proof.Machine
end

