-- ==== Sys2Proof/Laws/State.lean ====
section
/-! SUPPORT. One lemma for each field and each update of the state: what it becomes, true by definition. -/

namespace Sys2Proof.Machine

/-! ### answerWith -/

@[simp] theorem State.answerWith_params (s : State) (r : Option Result) :
    (s.answerWith r).params = s.params := rfl
@[simp] theorem State.answerWith_mon (s : State) (r : Option Result) :
    (s.answerWith r).mon = s.mon := rfl
@[simp] theorem State.answerWith_bus (s : State) (r : Option Result) :
    (s.answerWith r).bus = s.bus := rfl
@[simp] theorem State.answerWith_call_inbox (s : State) (r : Option Result) :
    (s.answerWith r).call.inbox = s.call.inbox := rfl
@[simp] theorem State.answerWith_call_answer (s : State) (r : Option Result) :
    (s.answerWith r).call.answer = r := rfl
@[simp] theorem State.answerWith_call_offset (s : State) (r : Option Result) :
    (s.answerWith r).call.offset = s.call.offset := rfl
@[simp] theorem State.answerWith_host (s : State) (r : Option Result) :
    (s.answerWith r).host = s.host := rfl

/-! ### recordFault -/

@[simp] theorem State.recordFault_params (s : State) (f : ModelFault) :
    (s.recordFault f).params = s.params := rfl
@[simp] theorem State.recordFault_mon_phase (s : State) (f : ModelFault) :
    (s.recordFault f).mon.phase = s.mon.phase := rfl
@[simp] theorem State.recordFault_mon_faults (s : State) (f : ModelFault) :
    (s.recordFault f).mon.faults = addFault f s.mon.faults := rfl
@[simp] theorem State.recordFault_mon_regs (s : State) (f : ModelFault) :
    (s.recordFault f).mon.regs = s.mon.regs := rfl
@[simp] theorem State.recordFault_mon_trace (s : State) (f : ModelFault) :
    (s.recordFault f).mon.trace = s.mon.trace := rfl
@[simp] theorem State.recordFault_mon_configured (s : State) (f : ModelFault) :
    (s.recordFault f).mon.configured = s.mon.configured := rfl
@[simp] theorem State.recordFault_bus (s : State) (f : ModelFault) :
    (s.recordFault f).bus = s.bus := rfl
@[simp] theorem State.recordFault_call_inbox (s : State) (f : ModelFault) :
    (s.recordFault f).call.inbox = s.call.inbox := rfl
@[simp] theorem State.recordFault_call_answer (s : State) (f : ModelFault) :
    (s.recordFault f).call.answer = none := rfl
@[simp] theorem State.recordFault_call_offset (s : State) (f : ModelFault) :
    (s.recordFault f).call.offset = s.call.offset := rfl
@[simp] theorem State.recordFault_host (s : State) (f : ModelFault) :
    (s.recordFault f).host = s.host := rfl

/-! ### addDiag -/

@[simp] theorem State.addDiag_params (s : State) (d : Diag) :
    (s.addDiag d).params = s.params := rfl
@[simp] theorem State.addDiag_mon (s : State) (d : Diag) :
    (s.addDiag d).mon = s.mon := rfl
@[simp] theorem State.addDiag_bus (s : State) (d : Diag) :
    (s.addDiag d).bus = s.bus := rfl
@[simp] theorem State.addDiag_call (s : State) (d : Diag) :
    (s.addDiag d).call = s.call := rfl
@[simp] theorem State.addDiag_host_stage (s : State) (d : Diag) :
    (s.addDiag d).host.stage = s.host.stage := rfl
@[simp] theorem State.addDiag_host_stream (s : State) (d : Diag) :
    (s.addDiag d).host.stream = s.host.stream := rfl
@[simp] theorem State.addDiag_host_inputEnded (s : State) (d : Diag) :
    (s.addDiag d).host.inputEnded = s.host.inputEnded := rfl
@[simp] theorem State.addDiag_host_line (s : State) (d : Diag) :
    (s.addDiag d).host.line = s.host.line := rfl
@[simp] theorem State.addDiag_host_pending (s : State) (d : Diag) :
    (s.addDiag d).host.pending = s.host.pending := rfl
@[simp] theorem State.addDiag_host_diags (s : State) (d : Diag) :
    (s.addDiag d).host.diags = s.host.diags ++ [d] := rfl
@[simp] theorem State.addDiag_host_signalIn (s : State) (d : Diag) :
    (s.addDiag d).host.signalIn = s.host.signalIn := rfl

/-! ### setPhase -/

@[simp] theorem State.setPhase_params (s : State) (p : Phase) :
    (s.setPhase p).params = s.params := rfl
@[simp] theorem State.setPhase_mon_phase (s : State) (p : Phase) :
    (s.setPhase p).mon.phase = p := rfl
@[simp] theorem State.setPhase_mon_faults (s : State) (p : Phase) :
    (s.setPhase p).mon.faults = s.mon.faults := rfl
@[simp] theorem State.setPhase_mon_regs (s : State) (p : Phase) :
    (s.setPhase p).mon.regs = s.mon.regs := rfl
@[simp] theorem State.setPhase_mon_trace (s : State) (p : Phase) :
    (s.setPhase p).mon.trace = s.mon.trace := rfl
@[simp] theorem State.setPhase_mon_configured (s : State) (p : Phase) :
    (s.setPhase p).mon.configured = s.mon.configured := rfl
@[simp] theorem State.setPhase_bus (s : State) (p : Phase) :
    (s.setPhase p).bus = s.bus := rfl
@[simp] theorem State.setPhase_call (s : State) (p : Phase) :
    (s.setPhase p).call = s.call := rfl
@[simp] theorem State.setPhase_host (s : State) (p : Phase) :
    (s.setPhase p).host = s.host := rfl

/-! ### block -/

@[simp] theorem State.block_params (s : State) :
    (s.block).params = s.params := rfl
@[simp] theorem State.block_mon (s : State) :
    (s.block).mon = s.mon := rfl
@[simp] theorem State.block_bus_outcomes (s : State) :
    (s.block).bus.outcomes = s.bus.outcomes := rfl
@[simp] theorem State.block_bus_draws (s : State) :
    (s.block).bus.draws = s.bus.draws := rfl
@[simp] theorem State.block_bus_blocked (s : State) :
    (s.block).bus.blocked = true := rfl
@[simp] theorem State.block_bus_transfer (s : State) :
    (s.block).bus.transfer = s.bus.transfer := rfl
@[simp] theorem State.block_call (s : State) :
    (s.block).call = s.call := rfl
@[simp] theorem State.block_host (s : State) :
    (s.block).host = s.host := rfl

/-! ### useOutcome -/

@[simp] theorem State.useOutcome_params (s : State) :
    (s.useOutcome).params = s.params := rfl
@[simp] theorem State.useOutcome_mon (s : State) :
    (s.useOutcome).mon = s.mon := rfl
@[simp] theorem State.useOutcome_bus_outcomes (s : State) :
    (s.useOutcome).bus.outcomes = s.bus.outcomes.tail := rfl
@[simp] theorem State.useOutcome_bus_draws (s : State) :
    (s.useOutcome).bus.draws = s.bus.draws + 1 := rfl
@[simp] theorem State.useOutcome_bus_blocked (s : State) :
    (s.useOutcome).bus.blocked = s.bus.blocked := rfl
@[simp] theorem State.useOutcome_bus_transfer (s : State) :
    (s.useOutcome).bus.transfer = s.bus.transfer := rfl
@[simp] theorem State.useOutcome_call (s : State) :
    (s.useOutcome).call = s.call := rfl
@[simp] theorem State.useOutcome_host (s : State) :
    (s.useOutcome).host = s.host := rfl

/-! ### recordTransaction -/

@[simp] theorem State.recordTransaction_params (s : State) (t : Transaction) :
    (s.recordTransaction t).params = s.params := rfl
@[simp] theorem State.recordTransaction_mon_phase (s : State) (t : Transaction) :
    (s.recordTransaction t).mon.phase = s.mon.phase := rfl
@[simp] theorem State.recordTransaction_mon_faults (s : State) (t : Transaction) :
    (s.recordTransaction t).mon.faults = s.mon.faults := rfl
@[simp] theorem State.recordTransaction_mon_regs (s : State) (t : Transaction) :
    (s.recordTransaction t).mon.regs = applyTransaction s.mon.regs t := rfl
@[simp] theorem State.recordTransaction_mon_trace (s : State) (t : Transaction) :
    (s.recordTransaction t).mon.trace = s.mon.trace ++ [t] := rfl
@[simp] theorem State.recordTransaction_mon_configured (s : State) (t : Transaction) :
    (s.recordTransaction t).mon.configured = s.mon.configured := rfl
@[simp] theorem State.recordTransaction_bus (s : State) (t : Transaction) :
    (s.recordTransaction t).bus = s.bus := rfl
@[simp] theorem State.recordTransaction_call (s : State) (t : Transaction) :
    (s.recordTransaction t).call = s.call := rfl
@[simp] theorem State.recordTransaction_host (s : State) (t : Transaction) :
    (s.recordTransaction t).host = s.host := rfl

/-! ### recordUnplaced -/

@[simp] theorem State.recordUnplaced_params (s : State) (t : Transaction) :
    (s.recordUnplaced t).params = s.params := rfl
@[simp] theorem State.recordUnplaced_mon_phase (s : State) (t : Transaction) :
    (s.recordUnplaced t).mon.phase = s.mon.phase := rfl
@[simp] theorem State.recordUnplaced_mon_faults (s : State) (t : Transaction) :
    (s.recordUnplaced t).mon.faults = s.mon.faults := rfl
@[simp] theorem State.recordUnplaced_mon_regs (s : State) (t : Transaction) :
    (s.recordUnplaced t).mon.regs = Memory.forgetRange s.mon.regs t.start.toNat t.bytes.length := rfl
@[simp] theorem State.recordUnplaced_mon_trace (s : State) (t : Transaction) :
    (s.recordUnplaced t).mon.trace = s.mon.trace ++ [t] := rfl
@[simp] theorem State.recordUnplaced_mon_configured (s : State) (t : Transaction) :
    (s.recordUnplaced t).mon.configured = s.mon.configured := rfl
@[simp] theorem State.recordUnplaced_bus (s : State) (t : Transaction) :
    (s.recordUnplaced t).bus = s.bus := rfl
@[simp] theorem State.recordUnplaced_call (s : State) (t : Transaction) :
    (s.recordUnplaced t).call = s.call := rfl
@[simp] theorem State.recordUnplaced_host (s : State) (t : Transaction) :
    (s.recordUnplaced t).host = s.host := rfl

/-! ### tick -/

@[simp] theorem State.tick_params (s : State) :
    (s.tick).params = s.params := rfl
@[simp] theorem State.tick_mon (s : State) :
    (s.tick).mon = s.mon := rfl
@[simp] theorem State.tick_bus (s : State) :
    (s.tick).bus = s.bus := rfl
@[simp] theorem State.tick_call (s : State) :
    (s.tick).call = s.call := rfl
@[simp] theorem State.tick_host_stage (s : State) :
    (s.tick).host.stage = s.host.stage := rfl
@[simp] theorem State.tick_host_stream (s : State) :
    (s.tick).host.stream = s.host.stream := rfl
@[simp] theorem State.tick_host_inputEnded (s : State) :
    (s.tick).host.inputEnded = s.host.inputEnded := rfl
@[simp] theorem State.tick_host_line (s : State) :
    (s.tick).host.line = s.host.line := rfl
@[simp] theorem State.tick_host_pending (s : State) :
    (s.tick).host.pending = s.host.pending := rfl
@[simp] theorem State.tick_host_diags (s : State) :
    (s.tick).host.diags = s.host.diags := rfl
@[simp] theorem State.tick_host_signalIn (s : State) :
    (s.tick).host.signalIn = s.host.signalIn.map (· - 1) := rfl

/-! ### endHost -/

@[simp] theorem State.endHost_params (s : State) (e : EndKind) :
    (s.endHost e).params = s.params := rfl
@[simp] theorem State.endHost_mon (s : State) (e : EndKind) :
    (s.endHost e).mon = s.mon := rfl
@[simp] theorem State.endHost_bus (s : State) (e : EndKind) :
    (s.endHost e).bus = s.bus := rfl
@[simp] theorem State.endHost_call (s : State) (e : EndKind) :
    (s.endHost e).call = s.call := rfl
@[simp] theorem State.endHost_host_stage (s : State) (e : EndKind) :
    (s.endHost e).host.stage = .ended e := rfl
@[simp] theorem State.endHost_host_stream (s : State) (e : EndKind) :
    (s.endHost e).host.stream = s.host.stream := rfl
@[simp] theorem State.endHost_host_inputEnded (s : State) (e : EndKind) :
    (s.endHost e).host.inputEnded = s.host.inputEnded := rfl
@[simp] theorem State.endHost_host_line (s : State) (e : EndKind) :
    (s.endHost e).host.line = s.host.line := rfl
@[simp] theorem State.endHost_host_pending (s : State) (e : EndKind) :
    (s.endHost e).host.pending = [] := rfl
@[simp] theorem State.endHost_host_diags (s : State) (e : EndKind) :
    (s.endHost e).host.diags = s.host.diags := rfl
@[simp] theorem State.endHost_host_signalIn (s : State) (e : EndKind) :
    (s.endHost e).host.signalIn = s.host.signalIn := rfl

/-! ### beginShutdown -/

@[simp] theorem State.beginShutdown_params (s : State) (e : EndKind) :
    (s.beginShutdown e).params = s.params := rfl
@[simp] theorem State.beginShutdown_mon (s : State) (e : EndKind) :
    (s.beginShutdown e).mon = s.mon := rfl
@[simp] theorem State.beginShutdown_bus (s : State) (e : EndKind) :
    (s.beginShutdown e).bus = s.bus := rfl
@[simp] theorem State.beginShutdown_call (s : State) (e : EndKind) :
    (s.beginShutdown e).call = s.call := rfl
@[simp] theorem State.beginShutdown_host_stage (s : State) (e : EndKind) :
    (s.beginShutdown e).host.stage = .stopping [0, 1, 2, 3] e := rfl
@[simp] theorem State.beginShutdown_host_stream (s : State) (e : EndKind) :
    (s.beginShutdown e).host.stream = s.host.stream := rfl
@[simp] theorem State.beginShutdown_host_inputEnded (s : State) (e : EndKind) :
    (s.beginShutdown e).host.inputEnded = s.host.inputEnded := rfl
@[simp] theorem State.beginShutdown_host_line (s : State) (e : EndKind) :
    (s.beginShutdown e).host.line = s.host.line := rfl
@[simp] theorem State.beginShutdown_host_pending (s : State) (e : EndKind) :
    (s.beginShutdown e).host.pending = [] := rfl
@[simp] theorem State.beginShutdown_host_diags (s : State) (e : EndKind) :
    (s.beginShutdown e).host.diags = s.host.diags := rfl
@[simp] theorem State.beginShutdown_host_signalIn (s : State) (e : EndKind) :
    (s.beginShutdown e).host.signalIn = s.host.signalIn := rfl

/-! ### setPending -/

@[simp] theorem State.setPending_params (s : State) (rest : List (Int × Option Int)) :
    (s.setPending rest).params = s.params := rfl
@[simp] theorem State.setPending_mon (s : State) (rest : List (Int × Option Int)) :
    (s.setPending rest).mon = s.mon := rfl
@[simp] theorem State.setPending_bus (s : State) (rest : List (Int × Option Int)) :
    (s.setPending rest).bus = s.bus := rfl
@[simp] theorem State.setPending_call (s : State) (rest : List (Int × Option Int)) :
    (s.setPending rest).call = s.call := rfl
@[simp] theorem State.setPending_host_stage (s : State) (rest : List (Int × Option Int)) :
    (s.setPending rest).host.stage = s.host.stage := rfl
@[simp] theorem State.setPending_host_stream (s : State) (rest : List (Int × Option Int)) :
    (s.setPending rest).host.stream = s.host.stream := rfl
@[simp] theorem State.setPending_host_inputEnded (s : State) (rest : List (Int × Option Int)) :
    (s.setPending rest).host.inputEnded = s.host.inputEnded := rfl
@[simp] theorem State.setPending_host_line (s : State) (rest : List (Int × Option Int)) :
    (s.setPending rest).host.line = s.host.line := rfl
@[simp] theorem State.setPending_host_pending (s : State) (rest : List (Int × Option Int)) :
    (s.setPending rest).host.pending = rest := rfl
@[simp] theorem State.setPending_host_diags (s : State) (rest : List (Int × Option Int)) :
    (s.setPending rest).host.diags = s.host.diags := rfl
@[simp] theorem State.setPending_host_signalIn (s : State) (rest : List (Int × Option Int)) :
    (s.setPending rest).host.signalIn = s.host.signalIn := rfl

/-! ### setStream -/

@[simp] theorem State.setStream_params (s : State) (rest : List Byte) :
    (s.setStream rest).params = s.params := rfl
@[simp] theorem State.setStream_mon (s : State) (rest : List Byte) :
    (s.setStream rest).mon = s.mon := rfl
@[simp] theorem State.setStream_bus (s : State) (rest : List Byte) :
    (s.setStream rest).bus = s.bus := rfl
@[simp] theorem State.setStream_call (s : State) (rest : List Byte) :
    (s.setStream rest).call = s.call := rfl
@[simp] theorem State.setStream_host_stage (s : State) (rest : List Byte) :
    (s.setStream rest).host.stage = s.host.stage := rfl
@[simp] theorem State.setStream_host_stream (s : State) (rest : List Byte) :
    (s.setStream rest).host.stream = rest := rfl
@[simp] theorem State.setStream_host_inputEnded (s : State) (rest : List Byte) :
    (s.setStream rest).host.inputEnded = s.host.inputEnded := rfl
@[simp] theorem State.setStream_host_line (s : State) (rest : List Byte) :
    (s.setStream rest).host.line = s.host.line := rfl
@[simp] theorem State.setStream_host_pending (s : State) (rest : List Byte) :
    (s.setStream rest).host.pending = s.host.pending := rfl
@[simp] theorem State.setStream_host_diags (s : State) (rest : List Byte) :
    (s.setStream rest).host.diags = s.host.diags := rfl
@[simp] theorem State.setStream_host_signalIn (s : State) (rest : List Byte) :
    (s.setStream rest).host.signalIn = s.host.signalIn := rfl

/-! ### setInbox -/

@[simp] theorem State.setInbox_params (s : State) (rest : List Item) :
    (s.setInbox rest).params = s.params := rfl
@[simp] theorem State.setInbox_mon (s : State) (rest : List Item) :
    (s.setInbox rest).mon = s.mon := rfl
@[simp] theorem State.setInbox_bus (s : State) (rest : List Item) :
    (s.setInbox rest).bus = s.bus := rfl
@[simp] theorem State.setInbox_call_inbox (s : State) (rest : List Item) :
    (s.setInbox rest).call.inbox = rest := rfl
@[simp] theorem State.setInbox_call_answer (s : State) (rest : List Item) :
    (s.setInbox rest).call.answer = s.call.answer := rfl
@[simp] theorem State.setInbox_call_offset (s : State) (rest : List Item) :
    (s.setInbox rest).call.offset = s.call.offset := rfl
@[simp] theorem State.setInbox_host (s : State) (rest : List Item) :
    (s.setInbox rest).host = s.host := rfl

/-! ### placeItem -/

@[simp] theorem State.placeItem_params (s : State) (it : Item) :
    (s.placeItem it).params = s.params := rfl
@[simp] theorem State.placeItem_mon (s : State) (it : Item) :
    (s.placeItem it).mon = s.mon := rfl
@[simp] theorem State.placeItem_bus_outcomes (s : State) (it : Item) :
    (s.placeItem it).bus.outcomes = s.bus.outcomes := rfl
@[simp] theorem State.placeItem_bus_draws (s : State) (it : Item) :
    (s.placeItem it).bus.draws = s.bus.draws := rfl
@[simp] theorem State.placeItem_bus_blocked (s : State) (it : Item) :
    (s.placeItem it).bus.blocked = false := rfl
@[simp] theorem State.placeItem_bus_transfer (s : State) (it : Item) :
    (s.placeItem it).bus.transfer = none := rfl
@[simp] theorem State.placeItem_call_inbox (s : State) (it : Item) :
    (s.placeItem it).call.inbox = it :: s.call.inbox := rfl
@[simp] theorem State.placeItem_call_answer (s : State) (it : Item) :
    (s.placeItem it).call.answer = s.call.answer := rfl
@[simp] theorem State.placeItem_call_offset (s : State) (it : Item) :
    (s.placeItem it).call.offset = s.call.offset := rfl
@[simp] theorem State.placeItem_host (s : State) (it : Item) :
    (s.placeItem it).host = s.host := rfl

/-! ### setTransfer -/

@[simp] theorem State.setTransfer_params (s : State) (t : Option Transfer) :
    (s.setTransfer t).params = s.params := rfl
@[simp] theorem State.setTransfer_mon (s : State) (t : Option Transfer) :
    (s.setTransfer t).mon = s.mon := rfl
@[simp] theorem State.setTransfer_bus_outcomes (s : State) (t : Option Transfer) :
    (s.setTransfer t).bus.outcomes = s.bus.outcomes := rfl
@[simp] theorem State.setTransfer_bus_draws (s : State) (t : Option Transfer) :
    (s.setTransfer t).bus.draws = s.bus.draws := rfl
@[simp] theorem State.setTransfer_bus_blocked (s : State) (t : Option Transfer) :
    (s.setTransfer t).bus.blocked = s.bus.blocked := rfl
@[simp] theorem State.setTransfer_bus_transfer (s : State) (t : Option Transfer) :
    (s.setTransfer t).bus.transfer = t := rfl
@[simp] theorem State.setTransfer_call (s : State) (t : Option Transfer) :
    (s.setTransfer t).call = s.call := rfl
@[simp] theorem State.setTransfer_host (s : State) (t : Option Transfer) :
    (s.setTransfer t).host = s.host := rfl

/-! ### feed -/

@[simp] theorem State.feed_params (s : State) (bytes : List Byte) (ends : Bool) :
    (s.feed bytes ends).params = s.params := rfl
@[simp] theorem State.feed_mon (s : State) (bytes : List Byte) (ends : Bool) :
    (s.feed bytes ends).mon = s.mon := rfl
@[simp] theorem State.feed_bus (s : State) (bytes : List Byte) (ends : Bool) :
    (s.feed bytes ends).bus = s.bus := rfl
@[simp] theorem State.feed_call (s : State) (bytes : List Byte) (ends : Bool) :
    (s.feed bytes ends).call = s.call := rfl
@[simp] theorem State.feed_host_stage (s : State) (bytes : List Byte) (ends : Bool) :
    (s.feed bytes ends).host.stage = s.host.stage := rfl
@[simp] theorem State.feed_host_stream (s : State) (bytes : List Byte) (ends : Bool) :
    (s.feed bytes ends).host.stream = s.host.stream ++ bytes := rfl
@[simp] theorem State.feed_host_inputEnded (s : State) (bytes : List Byte) (ends : Bool) :
    (s.feed bytes ends).host.inputEnded = ends := rfl
@[simp] theorem State.feed_host_line (s : State) (bytes : List Byte) (ends : Bool) :
    (s.feed bytes ends).host.line = s.host.line := rfl
@[simp] theorem State.feed_host_pending (s : State) (bytes : List Byte) (ends : Bool) :
    (s.feed bytes ends).host.pending = s.host.pending := rfl
@[simp] theorem State.feed_host_diags (s : State) (bytes : List Byte) (ends : Bool) :
    (s.feed bytes ends).host.diags = s.host.diags := rfl
@[simp] theorem State.feed_host_signalIn (s : State) (bytes : List Byte) (ends : Bool) :
    (s.feed bytes ends).host.signalIn = s.host.signalIn := rfl

/-! ### configure -/

@[simp] theorem State.configure_fresh (s : State) (h : s.mon.phase = .fresh) :
    s.configure = { s with mon := { s.mon with phase := .ready, configured := true } } := by
  simp [State.configure, h]

theorem State.configure_of_not_fresh (s : State) (h : s.mon.phase ≠ .fresh) : s.configure = s := by
  unfold State.configure
  cases hp : s.mon.phase <;> simp_all

end Sys2Proof.Machine
end

