-- ==== Sys2Proof/Laws/Moves.lean ====
section
/-! SUPPORT. What a step can do, said once: a chain of small moves. Invariants follow by looking at one move. -/

namespace Sys2Proof.Machine

/-- One small change of the state. `Q b placed` says which blocks a transaction may carry, one whose bytes are known to have
reached their registers (`placed`) or one after which they are not. A request that is being sent goes on as it was, or has transactions
left. -/
inductive Move (Q : Block → Bool → Prop) : State → State → Prop where
  | host (s : State) (h : HostState) (hd : s.host.diags <+: h.diags) : Move Q s { s with host := h }
  | call (s : State) (c : CallState) (hi : c.inbox <:+ s.call.inbox) : Move Q s { s with call := c }
  | bus (s : State) (b : BusState)
      (ht : ∀ x, b.transfer = some x → x.InRange s.params ∨ ∃ y, s.bus.transfer = some y ∧ x.what = y.what ∧ x.sent = y.sent) :
      Move Q s { s with bus := b }
  | fault (s : State) (f : ModelFault) :
      Move Q s { s with mon := { s.mon with faults := addFault f s.mon.faults } }
  | dead (s : State) : Move Q s (s.setPhase .dead)
  | configure (s : State) (h : s.mon.phase = .fresh) :
      Move Q s { s with mon := { s.mon with phase := .ready, configured := true } }
  | transaction (s : State) (b : Block) (o : TxOutcome) (hq : Q b true) :
      Move Q s (s.recordTransaction (Block.record b o))
  | unplaced (s : State) (b : Block) (hq : Q b false) : Move Q s (s.recordUnplaced (Block.record b .ok))

/-- A chain of moves. -/
abbrev Moves (Q : Block → Bool → Prop) : State → State → Prop := Relation.ReflTransGen (Move Q)

/-- The blocks the block itself sends under parameters `p` (R92, R93): chunks of bank frames, and the initialization
transactions. -/
def Issuable (p : Params) (b : Block) : Prop :=
  (∃ m c, b ∈ splitBlock p (bankStart m) (frameOf p c).bytes) ∨ ∃ w ∈ p.initWrites, b = w.block

/-- Every transaction of a request is one of these. -/
theorem issuable_of_mem {p : Params} {w : Sending} {b : Block} (h : b ∈ w.blocks p) : Issuable p b := by
  cases w with
  | modes =>
    obtain ⟨w, hw, rfl⟩ := List.mem_map.mp h
    exact .inr ⟨w, hw, rfl⟩
  | frame m c => exact .inl ⟨m, c, h⟩

/-- The transactions of the block itself: their bytes reach their registers (R36, R86, R92), unless `u`, that is, in a shutdown
after `initialize` never succeeded (R139). -/
def Own (p : Params) (u : Prop) (b : Block) (placed : Bool) : Prop := Issuable p b ∧ (placed = false → u)

/-- `initialize` never succeeded, and a frame may be sent all the same: the block is Dead, so only its shutdown attempts still write, or
a frame is being sent. -/
def State.neverReady (s : State) : Prop := s.initialized = false ∧ (s.mon.phase = .dead ∨ s.sendsFrame)

/-- The blocks a direct WRITE_BLOCK call may carry (R90). -/
def CallBlock (b : Block) : Prop := b.bytes ≠ [] ∧ b.start.toNat + b.bytes.length ≤ registerCount

variable {Q : Block → Bool → Prop} {s t u : State} {p : Params} {w : Prop}

theorem Move.params_eq (h : Move Q s t) : t.params = s.params := by cases h <;> rfl

theorem Moves.params_eq (h : Moves Q s t) : t.params = s.params := by
  induction h with
  | refl => rfl
  | tail _ hm ih => rw [hm.params_eq, ih]

/-- What holds of one move for a reflexive and transitive relation holds of a chain. -/
theorem Moves.lift {R : State → State → Prop} (hr : ∀ s, R s s) (ht : ∀ s t u, R s t → R t u → R s u)
    (hm : ∀ s t, Move Q s t → R s t) (h : Moves Q s t) : R s t := by
  induction h with
  | refl => exact hr s
  | tail _ hlast ih => exact ht _ _ _ ih (hm _ _ hlast)

/-- What every move keeps, a chain keeps. -/
theorem Moves.keeps {P : State → Prop} (hm : ∀ s t, Move Q s t → P s → P t) (h : Moves Q s t) (hs : P s) : P t := by
  induction h with
  | refl => exact hs
  | tail _ hlast ih => exact hm _ _ hlast ih

theorem Moves.mono {Q' : Block → Bool → Prop} (hq : ∀ b k, Q b k → Q' b k) (h : Moves Q s t) : Moves Q' s t := by
  refine Relation.ReflTransGen.mono ?_ _ _ h
  intro a b hab
  cases hab with
  | host h hd => exact .host _ h hd
  | call c hi => exact .call _ c hi
  | bus b ht => exact .bus _ b ht
  | fault f => exact .fault _ f
  | dead => exact .dead _
  | configure h => exact .configure _ h
  | transaction b o h => exact .transaction _ b o (hq b _ h)
  | unplaced b h => exact .unplaced _ b (hq b _ h)

/-! ## The operations as moves -/

theorem moves_answerWith (r : Option Result) (s : State) : Moves Q s (s.answerWith r) :=
  .single (.call s _ (List.suffix_refl _))

theorem moves_recordFault (f : ModelFault) (s : State) : Moves Q s (s.recordFault f) :=
  .tail (.single (.fault s f)) (.call _ _ (List.suffix_refl _))

theorem moves_addDiag (d : Diag) (s : State) : Moves Q s (s.addDiag d) :=
  .single (.host s _ (List.prefix_append _ _))

theorem moves_tick (s : State) : Moves Q s s.tick := .single (.host s _ (List.prefix_refl _))

theorem moves_endHost (e : EndKind) (s : State) : Moves Q s (s.endHost e) :=
  .single (.host s _ (List.prefix_refl _))

theorem moves_beginShutdown (e : EndKind) (s : State) : Moves Q s (s.beginShutdown e) :=
  .single (.host s _ (List.prefix_refl _))

theorem moves_setPending (rest : List (Int × Option Int)) (s : State) : Moves Q s (s.setPending rest) :=
  .single (.host s _ (List.prefix_refl _))

theorem moves_shutdownLeft (rest : List Int) (e : EndKind) (s : State) : Moves Q s (s.shutdownLeft rest e) := by
  cases rest
  · exact moves_endHost e s
  · exact .single (.host s _ (List.prefix_refl _))

/-- A transaction's bytes are placed, or R36 may not be relied on (R139). -/
theorem moves_busWrite (inc : Bool) (b : Block) (hq : ∀ placed, (placed = false → inc = false) → Q b placed) (s : State) :
    Moves Q s (busWrite inc b s).2 := by
  have hu : Moves Q s s.useOutcome := .single (.bus s _ fun x hx => .inr ⟨x, hx, rfl, rfl⟩)
  unfold busWrite
  split
  · simp only [State.recordOk]
    split
    · exact hu.tail (.transaction _ b .ok (hq true (by simp)))
    · next h => exact hu.tail (.unplaced _ b (hq false fun _ => by simp at h; exact h.1))
  · exact hu.tail (.transaction _ b .err (hq true (by simp)))
  · exact hu

theorem moves_finish (r : BusOutcome × State) : Moves Q r.2 (finish r) := by
  obtain ⟨o, s⟩ := r
  cases o
  · exact moves_answerWith _ s
  · exact .trans (.single (.dead s)) (moves_answerWith _ _)
  · exact .tail (moves_answerWith _ s) (.bus _ _ fun x hx => .inr ⟨x, hx, rfl, rfl⟩)

theorem moves_configure (s : State) : Moves Q s s.configure := by
  by_cases h : s.mon.phase = .fresh
  · rw [State.configure_fresh s h]
    exact .single (.configure s h)
  · rw [State.configure_of_not_fresh s h]

theorem moves_setTransfer_none (s : State) : Moves Q s (s.setTransfer none) := .single (.bus s _ fun _ hx => nomatch hx)

theorem moves_setTransfer_some (x : Transfer) (s : State) (h : x.InRange s.params) : Moves Q s (s.setTransfer (some x)) :=
  .single (.bus s _ fun y hy => .inl (by cases hy; exact h))

theorem moves_conclude (w : Sending) (r : BusOutcome × State) : Moves Q r.2 (conclude w r) := by
  obtain ⟨o, s⟩ := r
  cases o
  · cases w
    · exact (moves_configure s).trans (moves_finish (.ok, _))
    · exact moves_finish (.ok, s)
  · exact moves_finish (.err, s)
  · exact moves_finish (.never, s)

/-- Whatever transaction of a request is sent, it is one of its own; its bytes are placed unless it is a frame's and R36 may not be
relied on. -/
theorem moves_sendFrom (x : Sending) (j : Nat) (s : State) (hp : s.params = p)
    (hw : (∃ m c, x = .frame m c) → s.initialized = false → w) : Moves (Own p w) s (sendFrom x j s) := by
  subst hp
  unfold sendFrom
  split
  · exact .refl
  · next b hb =>
    have h1 : Moves (Own s.params w) s (busWrite (x.relies s) b s).2 := by
      refine moves_busWrite _ b (fun _ hk => ⟨issuable_of_mem (List.mem_of_getElem? hb), fun h => ?_⟩) s
      cases x with
      | modes => cases hk h
      | frame m c => exact hw ⟨m, c, rfl⟩ (hk h)
    split
    · next t he =>
      rw [he] at h1
      split
      · exact (h1.trans (moves_answerWith none t)).trans (moves_setTransfer_some _ _ ⟨Nat.le_add_left 1 j, by
          show j + 1 < (x.blocks t.params).length
          rw [h1.params_eq]
          assumption⟩)
      · exact h1.trans (moves_conclude x (.ok, t))
    · next t he =>
      rw [he] at h1
      exact h1.trans (moves_conclude x (.err, t))
    · next t he =>
      rw [he] at h1
      exact h1.trans (moves_conclude x (.never, t))

theorem moves_emit (m : Motor) (c : Case) (s : State) (hp : s.params = p) (hw : s.initialized = false → w) :
    Moves (Own p w) s (emit m c s) := moves_sendFrom _ 0 s hp fun _ => hw

/-- Ready means that `initialize` has succeeded (R19). -/
theorem initialized_of_ready {s : State} (h : s.mon.phase = .ready) : s.initialized = true := by
  simp [State.initialized, h]

/-- What passes the phase check finds a block that is initialized, or Dead. -/
theorem moves_phaseGate (sh : Bool) (k : State → State) (s : State)
    (hk : (s.initialized = false → s.neverReady) → Moves Q s (k s)) : Moves Q s (phaseGate sh k s) := by
  unfold phaseGate
  split
  · next h =>
    split
    · exact hk fun hi => ⟨hi, .inl h⟩
    · exact moves_recordFault _ s
  · exact moves_recordFault _ s
  · next h => exact hk fun hi => by rw [initialized_of_ready h] at hi; cases hi

theorem moves_command (sh : Bool) (i : Int) (vel : Option Int) (s : State) (hp : s.params = p)
    (hw : s.neverReady → w) : Moves (Own p w) s (command sh i vel s) := by
  refine moves_phaseGate sh _ s fun hi => ?_
  unfold commandBody
  split
  · exact moves_answerWith _ s
  · exact moves_emit _ _ s hp fun h => hw (hi h)

theorem moves_takeSignal (s : State) : Moves Q s (takeSignal s) := by
  unfold takeSignal
  split
  · exact moves_beginShutdown _ s
  · exact moves_endHost _ s

theorem moves_fatalBusError (s : State) : Moves Q s (fatalBusError s) := by
  unfold fatalBusError
  split
  · exact moves_beginShutdown _ s
  · exact moves_endHost _ s

theorem moves_afterRelease (i : Int) (rest : List Int) (e : EndKind) (s : State) : Moves Q s (afterRelease i rest e s) := by
  unfold afterRelease
  split
  · have h : Moves Q s (s.addDiag ⟨.busError, .eos, some i⟩) := moves_addDiag _ s
    simp only
    split
    · exact h.trans (moves_shutdownLeft _ _ _)
    · exact h.trans (moves_endHost _ _)
  · exact moves_shutdownLeft _ _ s

theorem moves_reactTo (s : State) : Moves Q s (reactTo s) := by
  unfold reactTo
  split
  · exact moves_addDiag _ s
  · exact moves_fatalBusError s
  · exact .refl
  · exact .refl

theorem moves_afterStartup (s : State) : Moves Q s (afterStartup s) := by
  unfold afterStartup
  split
  · exact moves_endHost _ s
  · exact .single (.host s _ (List.prefix_refl _))

theorem moves_react (x : Waiting) (s : State) : Moves Q s (react x s) := by
  cases x
  · exact .refl
  · exact moves_afterStartup s
  · exact (moves_tick s).trans (moves_reactTo _)
  · exact (moves_tick s).trans (moves_afterRelease _ _ _ _)

theorem moves_settle (x : Waiting) (s : State) : Moves Q s (settle x s) := by
  unfold settle
  split
  · exact .refl
  · split
    · next t ht => exact .single (.bus s _ fun y hy => .inr ⟨t, ht, by cases hy; exact ⟨rfl, rfl⟩⟩)
    · exact moves_react x s

/-- The next transaction of a request being sent. -/
theorem moves_continueTransfer (x : Transfer) (s : State) (hp : s.params = p)
    (hw : (∃ m c, x.what = .frame m c) → s.initialized = false → w) : Moves (Own p w) s (continueTransfer x s) :=
  ((moves_setTransfer_none s).trans (moves_sendFrom x.what x.sent (s.setTransfer none) hp hw)).trans (moves_settle _ _)

theorem moves_shutdownNext (todo : List Int) (e : EndKind) (s : State) (hp : s.params = p)
    (hw : s.neverReady → w) : Moves (Own p w) s (shutdownNext todo e s) := by
  cases todo with
  | nil => exact moves_endHost _ s
  | cons i rest =>
    simp only [shutdownNext]
    split
    · exact moves_endHost _ s
    · exact (moves_command true i none s hp hw).trans (moves_settle _ _)

theorem moves_subCommand (i : Int) (vel : Option Int) (s : State) (hp : s.params = p)
    (hw : s.neverReady → w) : Moves (Own p w) s (subCommand i vel s) :=
  (moves_command false i vel s hp hw).trans (moves_settle _ _)

theorem moves_issueFirst (todo : List (Int × Option Int)) (s : State) (hp : s.params = p)
    (hw : s.neverReady → w) : Moves (Own p w) s (issueFirst todo s) := by
  unfold issueFirst
  split
  · exact .refl
  · split
    · exact moves_takeSignal s
    · exact (moves_setPending _ s).trans (moves_subCommand _ _ _ hp hw)

theorem moves_issueLine (requests : List (Int × Option Int)) (s : State) (hp : s.params = p)
    (hw : s.neverReady → w) : Moves (Own p w) s (issueLine requests s) := by
  unfold issueLine
  split
  · exact .refl
  · exact moves_issueFirst _ s hp hw

theorem moves_parseError (s : State) : Moves Q s (parseError s) := by
  unfold parseError
  split
  · exact .refl
  · exact (moves_addDiag _ s).trans (moves_tick _)

/-- WRITE_BLOCK instructions. -/
def isWriteBlock : Instr → Bool
  | .writeBlock _ _ _ => true
  | _ => false

/-- Everything an instruction can do: moves whose transactions are the block's own, or, for WRITE_BLOCK, its operands'. -/
theorem moves_exec (i : Instr) (s t : State) (h : exec i s = .next t) :
    Moves (fun b k => Own s.params s.neverReady b k ∨
      (isWriteBlock i = true ∧ CallBlock b ∧ (k = false → s.initialized = false))) s t := by
  have own {t : State} (hm : Moves (Own s.params s.neverReady) s t) :
      Moves (fun b k => Own s.params s.neverReady b k ∨
        (isWriteBlock i = true ∧ CallBlock b ∧ (k = false → s.initialized = false))) s t :=
    hm.mono fun _ _ hb => .inl hb
  cases i with
  | initializeChip =>
    simp only [exec, execInitializeChip, Host.Outcome.next.injEq] at h
    subst h
    split
    · exact moves_recordFault _ s
    · exact moves_recordFault _ s
    · exact own (moves_sendFrom .modes 0 s rfl fun ⟨_, _, h⟩ => nomatch h)
  | cmdRelease m =>
    simp only [exec, execCmdRelease, Host.Outcome.next.injEq] at h
    subst h
    exact own (moves_phaseGate _ _ s fun h => moves_emit m .release s rfl h)
  | cmdBrake m =>
    simp only [exec, execCmdBrake, Host.Outcome.next.injEq] at h
    subst h
    exact own (moves_phaseGate _ _ s fun h => moves_emit m .brake s rfl h)
  | cmdForward m v =>
    simp only [exec, execCmdForward, Host.Outcome.next.injEq] at h
    subst h
    exact own (moves_phaseGate _ _ s fun h => moves_emit m (.forward v) s rfl h)
  | cmdReverse m v =>
    simp only [exec, execCmdReverse, Host.Outcome.next.injEq] at h
    subst h
    exact own (moves_phaseGate _ _ s fun h => moves_emit m (.reverse v) s rfl h)
  | rejectOutOfRange n vel =>
    simp only [exec, execRejectOutOfRange] at h
    split at h
    · cases h
      exact moves_phaseGate _ _ s fun _ => moves_answerWith _ s
    · cases h
  | baseRegister n =>
    simp only [exec, execBaseRegister, Host.Outcome.next.injEq] at h
    subst h
    split
    · exact .single (.call s _ (List.suffix_refl _))
    · exact .tail (moves_recordFault _ s) (.call _ _ (List.suffix_refl _))
  | writeBlock dev start bytes =>
    simp only [exec, execWriteBlock] at h
    split at h
    · cases h
    · split at h
      · cases h
      · split at h
        · cases h
        · next hne hfit =>
          cases h
          have hq : CallBlock ⟨start, bytes⟩ := by
            refine ⟨by simpa using hne, ?_⟩
            show start.toNat + bytes.length ≤ registerCount
            omega
          exact (moves_busWrite _ _ (fun _ hk => .inr ⟨rfl, hq, hk⟩) s).trans (moves_finish _)
  | releaseAll =>
    simp only [exec, execReleaseAll, Host.Outcome.next.injEq] at h
    subst h
    exact own (moves_issueLine _ s rfl id)
  | releaseOne t0 =>
    simp only [exec, execReleaseOne, Host.Outcome.next.injEq] at h
    subst h
    split
    · exact own (moves_issueLine _ s rfl id)
    · exact moves_parseError s
  | setOne t0 t1 =>
    simp only [exec, execSetOne, Host.Outcome.next.injEq] at h
    subst h
    split
    · exact own (moves_issueLine _ s rfl id)
    · exact own (moves_issueLine _ s rfl id)
    · exact moves_parseError s
  | setAll t0 t1 t2 t3 =>
    simp only [exec, execSetAll, Host.Outcome.next.injEq] at h
    subst h
    split
    · exact own (moves_issueLine _ s rfl id)
    · exact moves_parseError s
  | malformed ts =>
    simp only [exec, execMalformed, Host.Outcome.next.injEq] at h
    subst h
    exact moves_parseError s
  | endOfStream =>
    simp only [exec, execEndOfStream, Host.Outcome.next.injEq] at h
    subst h
    split
    · exact .refl
    · exact own ((moves_setPending [] s).trans (moves_shutdownNext _ _ _ rfl id))

/-! ## A step as moves -/

theorem moves_countLine (it : Item) (s : State) : Moves Q s (countLine it s) := by
  unfold countLine
  split
  · exact .single (.host s _ (List.prefix_refl _))
  · exact .refl

/-- A WRITE_BLOCK instruction comes from a direct call alone. -/
theorem decode_isWriteBlock (p : Params) (it : Item) (i : Instr) (h : decode p it = .ok i)
    (hw : isWriteBlock i = true) : ∃ dev start bytes, it = .blockCall dev start bytes := by
  cases i with
  | writeBlock dev start bytes =>
    cases it with
    | blockCall d a b => exact ⟨d, a, b, rfl⟩
    | initRequest => cases h
    | command n vel =>
      simp only [decode, Except.ok.injEq, decodeCommand] at h
      split at h
      · next m c _ => cases c <;> cases h
      · cases h
    | baseCall n => cases h
    | image a b =>
      simp only [decode, decodeImage] at h
      split at h
      · split at h
        · next c _ => cases c <;> cases h
        · cases h
      · split at h <;> cases h
    | line text =>
      simp only [decode, Except.ok.injEq, decodeLine] at h
      split at h <;> cases h
    | streamEnd => cases h
  | _ => cases hw

/-- The transactions running an item may send: the block's own, or those of a direct call. -/
def Sent (call : Prop) (s : State) (b : Block) (placed : Bool) : Prop :=
  Own s.params s.neverReady b placed ∨ (call ∧ CallBlock b ∧ (placed = false → s.initialized = false))

/-- Everything running an item can do. -/
theorem moves_runItem (it : Item) (s t : State) (h : runItem it s = .next t) :
    Moves (Sent (∃ d a x, it = .blockCall d a x) s) s t := by
  unfold runItem at h
  split at h
  · next i hd =>
    have hc : Moves (Sent (∃ d a x, it = .blockCall d a x) s) s (countLine it s) := moves_countLine it s
    have hm : (countLine it s).mon = s.mon := by unfold countLine; split <;> rfl
    have hbus : (countLine it s).bus = s.bus := by unfold countLine; split <;> rfl
    refine hc.trans ((moves_exec i _ t h).mono fun b k hb => ?_)
    rw [hc.params_eq, State.neverReady, State.sendsFrame, State.initialized, hm, hbus] at hb
    exact hb.imp id fun ⟨hw, hcb⟩ => ⟨decode_isWriteBlock _ _ _ hd hw, hcb⟩
  · cases h

/-- What the host does by itself sends the block's own transactions alone. -/
theorem moves_hostStep (s t : State) (h : hostStep s = .next t) : Moves (Own s.params s.neverReady) s t := by
  have own {it : Item} {u v : State} (hu : runItem it u = .next v) (hit : ∀ d a x, it ≠ .blockCall d a x) :
      Moves (Own u.params u.neverReady) u v :=
    (moves_runItem it u v hu).mono fun b k hb => hb.elim id fun ⟨⟨d, a, x, hx⟩, _⟩ => absurd hx (hit d a x)
  unfold hostStep at h
  split at h
  · cases h
    exact .refl
  · cases h
    exact moves_shutdownNext _ _ s rfl id
  · unfold startupStep at h
    split at h
    · next u hu =>
      cases h
      exact (own hu (by simp)).trans (moves_settle _ _)
    · cases h
    · cases h
  · unfold readingStep at h
    split at h
    · cases h
      exact moves_takeSignal s
    · split at h
      · next it rest hn =>
        have h0 : Moves (Own s.params s.neverReady) s (s.setStream rest) := .single (.host s _ (List.prefix_refl _))
        refine h0.trans (own h ?_)
        rintro d a x rfl
        unfold nextInput at hn
        split at hn
        · cases hn
        · split at hn
          · split at hn <;> cases hn
          · cases hn
      · cases h
        exact .refl
  · cases h
    exact moves_issueFirst _ s rfl id
  · cases h
    exact moves_issueFirst _ s rfl id

/-- Everything a step can do: moves whose transactions are the block's own, or those of a direct WRITE_BLOCK call that
waited in the inbox. -/
theorem moves_step (s t : State) (h : step s = .next t) : Moves (Sent s.hasBlockCall s) s t := by
  unfold step nextStep at h
  split at h
  · cases h
    exact .refl
  · split at h
    · next x hx =>
      cases h
      refine (moves_continueTransfer x s (p := s.params) (w := s.neverReady) rfl ?_).mono fun _ _ hb => .inl hb
      rintro ⟨m, c, hw⟩ hi
      obtain ⟨what, j, wt⟩ := x
      exact ⟨hi, .inr ⟨m, c, j, wt, by rw [hx, ← hw]⟩⟩
    · next it rest _ hi =>
      have h0 : Moves (Sent s.hasBlockCall s) s (s.setInbox rest) :=
        .single (.call s _ (by rw [hi]; exact List.suffix_cons _ _))
      refine h0.trans ((moves_runItem it _ t h).mono fun b k hb => ?_)
      exact hb.imp id fun ⟨⟨d, a, x, hit⟩, hcb⟩ => ⟨⟨it, by simp [hi], d, a, x, hit⟩, hcb⟩
    · exact (moves_hostStep s t h).mono fun _ _ hb => .inl hb

end Sys2Proof.Machine
end

