-- ==== Sys2Proof/Laws/Framer.lean ====
section
/-! SUPPORT. Splitting a transfer into chunks (R93), and what blocks that answer Ok leave in the registers. -/

namespace Sys2Proof.Machine

/-! ## Chunks -/

/-- Bytes that fit in one block are one chunk (R85). -/
theorem chunksFrom_single (size fuel : Nat) (start : RegAddr) (bytes : List Byte) (hne : bytes ≠ [])
    (hlen : bytes.length ≤ size) : chunksFrom size (fuel + 1) start bytes = [⟨start, bytes⟩] := by
  have hemp : bytes.isEmpty = false := by simpa using hne
  have hdrop : bytes.drop size = [] := List.drop_eq_nil_of_le hlen
  rw [chunksFrom, if_neg (by simp [hemp]), List.take_of_length_le hlen, hdrop]
  cases fuel <;> simp [chunksFrom]

/-- The start of the next chunk does not wrap. -/
theorem chunk_start_toNat (size : Nat) (start : RegAddr) (len : Nat) (h : start.toNat + len ≤ 256) (hs : size < len) :
    (start + BitVec.ofNat 8 size).toNat = start.toNat + size := by
  rw [BitVec.toNat_add, BitVec.toNat_ofNat]
  omega

/-- Every chunk has bytes and lies inside the transfer. -/
theorem chunksFrom_inside (size fuel : Nat) (hsize : 1 ≤ size) (start : RegAddr) (bytes : List Byte)
    (hfit : start.toNat + bytes.length ≤ 256) (b : Block) (hb : b ∈ chunksFrom size fuel start bytes) :
    b.bytes ≠ [] ∧ start.toNat ≤ b.start.toNat ∧ b.start.toNat + b.bytes.length ≤ start.toNat + bytes.length := by
  induction fuel generalizing start bytes with
  | zero => simp [chunksFrom] at hb
  | succ fuel ih =>
    rw [chunksFrom] at hb
    split at hb
    · simp at hb
    · next hemp =>
      have hne : bytes ≠ [] := by simpa using hemp
      rcases List.mem_cons.mp hb with rfl | hb
      · refine ⟨?_, Nat.le_refl _, ?_⟩
        · simp only [ne_eq, List.take_eq_nil_iff, not_or]
          exact ⟨by omega, hne⟩
        · simp only [List.length_take]
          omega
      · by_cases hlast : bytes.length ≤ size
        · rw [List.drop_eq_nil_of_le hlast] at hb
          cases fuel <;> simp [chunksFrom] at hb
        · have hst := chunk_start_toNat size start bytes.length hfit (by omega)
          have hlen : (bytes.drop size).length = bytes.length - size := List.length_drop
          have := ih _ _ (by rw [hst, hlen]; omega) hb
          rw [hst, hlen] at this
          exact ⟨this.1, by omega, by omega⟩

theorem Memory.writeBytes_append (m : Memory) (a : Nat) (xs ys : List Byte) :
    Memory.writeBytes m a (xs ++ ys) = Memory.writeBytes (Memory.writeBytes m a xs) (a + xs.length) ys := by
  induction xs generalizing m a with
  | nil => simp [Memory.writeBytes]
  | cons x xs ih =>
    simp only [List.cons_append, Memory.writeBytes, ih, List.length_cons]
    congr 1
    omega

/-- A block's bytes go to their registers. -/
def writeBlocks (m : Memory) (bs : List Block) : Memory :=
  bs.foldl (fun m b => Memory.writeBytes m b.start.toNat b.bytes) m

/-- What blocks that answered Ok do to the register image, with R36 to be relied on or not (R139). -/
def landBlocks (inc : Bool) (m : Memory) (bs : List Block) : Memory := bs.foldl (fun m b => Block.land inc b m) m

/-- Where R36 may be relied on, all the bytes land. -/
@[simp] theorem Block.land_true (b : Block) (m : Memory) :
    Block.land true b m = Memory.writeBytes m b.start.toNat b.bytes := by
  simp [Block.land]

/-- A single byte lands in any case. -/
theorem Block.land_single (inc : Bool) (b : Block) (m : Memory) (h : b.bytes.length ≤ 1) :
    Block.land inc b m = Memory.writeBytes m b.start.toNat b.bytes := by
  simp [Block.land, h]

@[simp] theorem landBlocks_true (m : Memory) (bs : List Block) : landBlocks true m bs = writeBlocks m bs := by
  simp [landBlocks, writeBlocks]

/-- Blocks of single bytes land in any case. -/
theorem landBlocks_singles (inc : Bool) (m : Memory) (bs : List Block) (h : ∀ b ∈ bs, b.bytes.length ≤ 1) :
    landBlocks inc m bs = writeBlocks m bs := by
  induction bs generalizing m with
  | nil => rfl
  | cons b rest ih =>
    simp only [landBlocks, writeBlocks, List.foldl_cons] at ih ⊢
    rw [Block.land_single inc b m (h b (List.mem_cons_self ..)), ih _ fun x hx => h x (List.mem_cons_of_mem _ hx)]

/-- A block leaves the registers it does not target. -/
theorem Block.read_land_off (inc : Bool) (b : Block) (m : Memory) (a : Nat)
    (h : ¬ (b.start.toNat ≤ a ∧ a < b.start.toNat + b.bytes.length)) :
    Memory.read (Block.land inc b m) a = Memory.read m a := by
  unfold Block.land
  split
  · rw [Memory.read_writeBytes, if_neg h]
  · rw [Memory.read_forgetRange, if_neg h]

/-- Blocks leave the registers that none of them targets. -/
theorem read_landBlocks_off (inc : Bool) (m : Memory) (bs : List Block) (a : Nat)
    (h : ∀ b ∈ bs, ¬ (b.start.toNat ≤ a ∧ a < b.start.toNat + b.bytes.length)) :
    Memory.read (landBlocks inc m bs) a = Memory.read m a := by
  induction bs generalizing m with
  | nil => rfl
  | cons b rest ih =>
    simp only [landBlocks, List.foldl_cons] at ih ⊢
    rw [ih _ fun x hx => h x (List.mem_cons_of_mem _ hx), Block.read_land_off inc b m a (h b (List.mem_cons_self ..))]

/-- The union of the chunks' effects is the whole transfer's effect (R93). -/
theorem writeBlocks_chunksFrom (size fuel : Nat) (hsize : 1 ≤ size) (start : RegAddr) (bytes : List Byte)
    (hfit : start.toNat + bytes.length ≤ 256) (hfuel : bytes.length ≤ fuel) (m : Memory) :
    writeBlocks m (chunksFrom size fuel start bytes) = Memory.writeBytes m start.toNat bytes := by
  induction fuel generalizing start bytes m with
  | zero =>
    have : bytes = [] := List.length_eq_zero_iff.mp (by omega)
    subst this
    rfl
  | succ fuel ih =>
    rw [chunksFrom]
    split
    · next hemp =>
      have : bytes = [] := by simpa using hemp
      subst this
      rfl
    · next hemp =>
      by_cases hlast : bytes.length ≤ size
      · rw [List.drop_eq_nil_of_le hlast, List.take_of_length_le hlast]
        cases fuel <;> simp [chunksFrom, writeBlocks]
      · have hst := chunk_start_toNat size start bytes.length hfit (by omega)
        have hlen : (bytes.drop size).length = bytes.length - size := List.length_drop
        have h := ih (start + BitVec.ofNat 8 size) (bytes.drop size) (by rw [hst, hlen]; omega) (by omega)
          (Memory.writeBytes m start.toNat (bytes.take size))
        simp only [writeBlocks, List.foldl_cons] at h ⊢
        rw [h, hst]
        conv_rhs => rw [← List.take_append_drop size bytes, Memory.writeBytes_append]
        rw [List.length_take, Nat.min_eq_left (by omega)]

theorem writeBlocks_splitBlock (p : Params) (start : RegAddr) (bytes : List Byte)
    (hfit : start.toNat + bytes.length ≤ 256) (m : Memory) :
    writeBlocks m (splitBlock p start bytes) = Memory.writeBytes m start.toNat bytes :=
  writeBlocks_chunksFrom _ _ p.maxBlockPos start bytes hfit (Nat.le_refl _) m

/-- At most one chunk for each byte. -/
theorem length_chunksFrom_le (size fuel : Nat) (start : RegAddr) (bytes : List Byte) :
    (chunksFrom size fuel start bytes).length ≤ fuel := by
  induction fuel generalizing start bytes with
  | zero => simp [chunksFrom]
  | succ fuel ih =>
    rw [chunksFrom]
    split
    · simp
    · simp only [List.length_cons, Nat.add_le_add_iff_right]
      exact ih _ _

theorem sends_le (s : State) (start : RegAddr) (bytes : List Byte) : s.sends start bytes ≤ bytes.length :=
  length_chunksFrom_le _ _ _ _

/-! ## Banks -/

theorem bankStart_toNat (m : Motor) : (bankStart m).toNat = 6 + 16 * m.val := by
  unfold bankStart bankBase0 bankStride
  rw [BitVec.toNat_ofNat]
  omega

@[simp] theorem Frame.length_bytes (f : Frame) : f.bytes.length = 12 := rfl

/-- A bank's frame has a register for every byte (R64). -/
theorem bank_fits (m : Motor) (f : Frame) : (bankStart m).toNat + f.bytes.length ≤ 256 := by
  rw [bankStart_toNat, Frame.length_bytes]
  omega

/-! ## The blocks the block itself sends -/

/-- Where a block of the block's own lies (R41): inside one bank, or in the mode registers. -/
theorem Issuable.range {p : Params} {b : Block} (h : Issuable p b) :
    b.bytes ≠ [] ∧ b.start.toNat + b.bytes.length ≤ 256 ∧
      ∀ a, b.start.toNat ≤ a → a < b.start.toNat + b.bytes.length → inBank a ∨ inModeRegisters p a := by
  rcases h with ⟨m, c, hb⟩ | ⟨w, hw, rfl⟩
  · obtain ⟨hne, hlo, hhi⟩ := chunksFrom_inside _ _ p.maxBlockPos _ _ (bank_fits m _) b hb
    rw [bankStart_toNat, Frame.length_bytes] at hhi
    rw [bankStart_toNat] at hlo
    exact ⟨hne, by omega, fun a h1 h2 => .inl ⟨m, by omega, by omega⟩⟩
  · exact ⟨w.nonempty, w.fits, fun a h1 h2 => .inr ⟨w, hw, h1, h2⟩⟩

end Sys2Proof.Machine
end

