-- ==== Sys2Proof/Laws/PerInstr.lean ====
section
/-! SUPPORT. Per-instruction laws. HostForm: an instruction is one of the host's forms (R105, R113) exactly when its encoding is
text of the input stream or the stream's end, and a request of the block (R49) exactly when it is neither. -/

namespace Sys2Proof.Laws.HostForm

/-- What the encoding of a host form looks like: a line, or the end of the stream. -/
def isStreamItem : Item → Bool
  | .initRequest => false
  | .command _ _ => false
  | .baseCall _ => false
  | .blockCall _ _ _ => false
  | .image _ _ => false
  | .line _ => true
  | .streamEnd => true

/-- The encoding of an instruction is of the kind its row's format says. -/
def Statement (i : Instr) : Prop := isStreamItem (encode i) = i.isHostLine

theorem initializeChip : Statement .initializeChip := rfl

theorem cmdRelease (i : Motor) : Statement (.cmdRelease i) := rfl

theorem cmdBrake (i : Motor) : Statement (.cmdBrake i) := rfl

theorem cmdForward (i : Motor) (m : Speed) : Statement (.cmdForward i m) := rfl

theorem cmdReverse (i : Motor) (m : Speed) : Statement (.cmdReverse i m) := rfl

theorem rejectOutOfRange (i : Int) (vel : Option Int) : Statement (.rejectOutOfRange i vel) := rfl

theorem baseRegister (i : Int) : Statement (.baseRegister i) := rfl

theorem writeBlock (dev : DevAddr) (start : RegAddr) (bytes : List Byte) : Statement (.writeBlock dev start bytes) := rfl

theorem releaseAll : Statement .releaseAll := rfl

theorem releaseOne (t0 : Token) : Statement (.releaseOne t0) := rfl

theorem setOne (t0 t1 : Token) : Statement (.setOne t0 t1) := rfl

theorem setAll (t0 t1 t2 t3 : Token) : Statement (.setAll t0 t1 t2 t3) := rfl

theorem malformed (tokens : List Token) : Statement (.malformed tokens) := rfl

theorem endOfStream : Statement .endOfStream := rfl

end Sys2Proof.Laws.HostForm
end

