-- ==== Sys2Proof/Laws/Transfers.lean ====
section
/-! SUPPORT. Runs of several steps, and the transactions of a request, one in each step: what each of them leaves, and how the
request ends (R43, R93, R95, R144). -/

namespace Sys2Proof.Machine

/-! ## Runs -/

/-- A run of one step more begins with that step. -/
theorem run_succ (n : Nat) (s : State) :
    Sys2Proof.core.run (n + 1) s =
      match step s with
      | .next t => Sys2Proof.core.run n t
      | .fault r => .fault r
      | .refused r => .refused r := by
  simp only [Host.Core.run]
  have h : core.step s = step s := rfl
  rw [h]
  cases step s <;> rfl

theorem run_next (n : Nat) {s t : State} (h : step s = .next t) : Sys2Proof.core.run (n + 1) s = Sys2Proof.core.run n t := by
  rw [run_succ, h]

/-- A run goes on where a shorter one ends. -/
theorem run_add (m n : Nat) {s t : State} (h : Sys2Proof.core.run m s = .next t) :
    Sys2Proof.core.run (m + n) s = Sys2Proof.core.run n t := by
  induction m generalizing s with
  | zero =>
    cases h
    rw [Nat.zero_add]
  | succ m ih =>
    rw [run_succ] at h
    rw [Nat.succ_add, run_succ]
    cases hs : step s with
    | next u =>
      rw [hs] at h
      exact ih h
    | fault r =>
      rw [hs] at h
      cases h
    | refused r =>
      rw [hs] at h
      cases h

/-- A run of one step more ends with that step. -/
theorem run_snoc (n : Nat) {s t : State} (h : Sys2Proof.core.run n s = .next t) :
    Sys2Proof.core.run (n + 1) s = step t := by
  rw [run_add n 1 h, run_succ]
  cases step t <;> rfl

/-- A state that a step leaves as it is stays so for ever. -/
theorem run_still {t : State} (h : step t = .next t) (n : Nat) : Sys2Proof.core.run n t = .next t := by
  induction n with
  | zero => rfl
  | succ n ih => rw [run_next n h, ih]

/-- A request being sent sends its next transaction before anything else happens (R97). -/
theorem step_transfer {s : State} {x : Transfer} (hb : s.bus.blocked = false) (hx : s.bus.transfer = some x) :
    step s = .next (continueTransfer x s) := by
  simp [step, nextStep, hb, hx]

/-! ## The answers of the bus -/

theorem State.BusOk.mono {n k : Nat} {s : State} (h : s.BusOk n) (hk : k ≤ n) : s.BusOk k := by
  refine ⟨h.1, ?_⟩
  have h' := congrArg (List.take k) h.2
  rwa [List.take_take, Nat.min_eq_left hk, List.take_replicate, Nat.min_eq_left hk] at h'

/-- Dropping the answers used leaves the rest of them Ok. -/
theorem State.BusOk.drop {n k : Nat} {s : State} (h : s.BusOk n) :
    (s.bus.outcomes.drop k).take (n - k) = List.replicate (n - k) .ok := by
  have h' := congrArg (List.drop k) h.2
  rwa [List.drop_take, List.drop_replicate] at h'

/-- The answer to a list of known answers that begins with `n` times Ok. -/
theorem getElem?_of_take {l : List BusOutcome} {n k : Nat} {r : List BusOutcome} (h : l.take k = List.replicate n .ok ++ r) (j : Nat)
    (hj : j < k) : l[j]? = if j < n then some .ok else r[j - n]? := by
  have h' : (l.take k)[j]? = l[j]? := by rw [List.getElem?_take, if_pos hj]
  rw [← h', h, List.getElem?_append, List.length_replicate]
  split
  · rw [List.getElem?_replicate, if_pos (by assumption)]
  · rfl

theorem State.BusOk.get {n : Nat} {s : State} (h : s.BusOk n) (j : Nat) (hj : j < n) : s.bus.outcomes[j]? = some .ok := by
  rw [getElem?_of_take (r := []) (by rw [h.2, List.append_nil]) j hj, if_pos hj]

theorem State.BusErrAfter.get {n : Nat} {s : State} (h : s.BusErrAfter n) :
    (∀ j, j < n → s.bus.outcomes[j]? = some .ok) ∧ s.bus.outcomes[n]? = some .err := by
  refine ⟨fun j hj => ?_, ?_⟩
  · rw [getElem?_of_take h.2 j (by omega), if_pos hj]
  · rw [getElem?_of_take h.2 n (by omega), if_neg (by omega), Nat.sub_self]
    rfl

theorem State.BusNeverAfter.get {n : Nat} {s : State} (h : s.BusNeverAfter n) :
    (∀ j, j < n → s.bus.outcomes[j]? = some .ok) ∧ s.bus.outcomes[n]? = some .never := by
  refine ⟨fun j hj => ?_, ?_⟩
  · rw [getElem?_of_take h.2 j (by omega), if_pos hj]
  · rw [getElem?_of_take h.2 n (by omega), if_neg (by omega), Nat.sub_self]
    rfl

/-- The outcome of the next transaction is the first known answer, if there is one. -/
theorem nextOutcome_of_head {s : State} {o : BusOutcome} (h : s.bus.outcomes.head? = some o) : s.nextOutcome = o := by
  unfold State.nextOutcome
  cases ho : s.bus.outcomes with
  | nil =>
    rw [ho] at h
    cases h
  | cons a rest =>
    rw [ho] at h
    exact Option.some.inj h

/-! ## One transaction -/

/-- A transaction that answered Ok: its record, and what its block does to the register image (R36, R139). -/
theorem State.recordOk_eq (inc : Bool) (b : Block) (s : State) : s.recordOk inc b = { s with
    mon := { s.mon with regs := Block.land inc b s.mon.regs, trace := s.mon.trace ++ [Block.record b .ok] } } := by
  unfold State.recordOk Block.land
  by_cases h : inc = true ∨ b.bytes.length ≤ 1
  · rw [if_pos (by simpa using h), if_pos h]
    rfl
  · rw [if_neg (by simpa using h), if_neg h]
    rfl

/-- After `j` transactions of a request that answered Ok, the next, `b`, has answered Err (R95). -/
def State.failedAt (w : Sending) (j : Nat) (b : Block) (s : State) : State :=
  { s with
    mon := { s.mon.sent (w.relies s) ((w.blocks s.params).take j) with
      regs := Memory.forgetRange (s.mon.sent (w.relies s) ((w.blocks s.params).take j)).regs b.start.toNat b.bytes.length
      trace := (s.mon.sent (w.relies s) ((w.blocks s.params).take j)).trace ++ [Block.record b .err] }
    bus := { s.bus with outcomes := s.bus.outcomes.drop (j + 1), draws := s.bus.draws + (j + 1) } }

/-- After `j` transactions of a request that answered Ok, the next never returns (R95). -/
def State.hungAt (w : Sending) (j : Nat) (s : State) : State :=
  { s with
    mon := s.mon.sent (w.relies s) ((w.blocks s.params).take j)
    bus := { s.bus with outcomes := s.bus.outcomes.drop (j + 1), draws := s.bus.draws + (j + 1) } }

/-- Nothing sent is nothing changed. -/
theorem sentSoFar_zero (w : Sending) (s : State) : s.sentSoFar w 0 = s := by
  simp [State.sentSoFar, Monitor.sent]

/-- Whether R36 may be relied on does not change while a request is being sent. -/
theorem relies_sentSoFar (w x : Sending) (j : Nat) (r) (s : State) : x.relies ((s.sentSoFar w j).answerWith r) = x.relies s := by
  cases x <;> rfl

theorem sent_succ (inc : Bool) (bs : List Block) (j : Nat) (b : Block) (hb : bs[j]? = some b) (m : Monitor) :
    m.sent inc (bs.take (j + 1)) = { m.sent inc (bs.take j) with
      regs := Block.land inc b (m.sent inc (bs.take j)).regs
      trace := (m.sent inc (bs.take j)).trace ++ [Block.record b .ok] } := by
  rw [List.take_add_one, hb]
  simp [Monitor.sent]

/-- A request's next transaction, by its outcome. -/
theorem sendFrom_sentSoFar (w : Sending) (j : Nat) (b : Block) (r) (s : State) (hb : (w.blocks s.params)[j]? = some b) :
    (s.bus.outcomes[j]? = some .ok → sendFrom w j ((s.sentSoFar w j).answerWith r) =
      if j + 1 < s.count w then ((s.sentSoFar w (j + 1)).answerWith none).setTransfer (some ⟨w, j + 1, .caller⟩)
      else conclude w (.ok, (s.sentSoFar w (j + 1)).answerWith r)) ∧
    (s.bus.outcomes[j]? = some .err → sendFrom w j ((s.sentSoFar w j).answerWith r) =
      finish (.err, (s.failedAt w j b).answerWith r)) ∧
    (s.bus.outcomes[j]? = some .never → sendFrom w j ((s.sentSoFar w j).answerWith r) =
      finish (.never, (s.hungAt w j).answerWith r)) := by
  have hn {o : BusOutcome} (ho : s.bus.outcomes[j]? = some o) : ((s.sentSoFar w j).answerWith r).nextOutcome = o :=
    nextOutcome_of_head (by
      show (s.bus.outcomes.drop j).head? = some o
      rw [List.head?_drop, ho])
  have hb' : (w.blocks ((s.sentSoFar w j).answerWith r).params)[j]? = some b := hb
  have hs := sent_succ (w.relies s) (w.blocks s.params) j b hb s.mon
  refine ⟨fun ho => ?_, fun ho => ?_, fun ho => ?_⟩
  · have he : ((s.sentSoFar w j).answerWith r).useOutcome.recordOk (w.relies s) b = (s.sentSoFar w (j + 1)).answerWith r := by
      rw [State.recordOk_eq]
      simp only [State.sentSoFar, State.answerWith, State.useOutcome, hs, List.tail_drop]
      rfl
    simp only [sendFrom, hb', busWrite, hn ho, relies_sentSoFar, he]
    rfl
  · simp only [sendFrom, hb', busWrite, hn ho, conclude]
    congr 2
    simp only [State.recordTransaction, State.sentSoFar, State.answerWith, State.useOutcome, List.tail_drop, State.failedAt]
    rfl
  · simp only [sendFrom, hb', busWrite, hn ho, conclude]
    congr 2
    simp only [State.sentSoFar, State.answerWith, State.useOutcome, List.tail_drop, State.hungAt]
    rfl

/-! ## A whole request -/

theorem blocks_get (w : Sending) (s : State) {j : Nat} (h : j < s.count w) : ∃ b, (w.blocks s.params)[j]? = some b :=
  ⟨_, List.getElem?_eq_getElem h⟩

/-- A step that sends a transaction which is not the last, and answers Ok. -/
theorem settle_part (wt : Waiting) (w : Sending) (j : Nat) (r) (s : State) (hf : s.BusFree) (hj : j + 1 < s.count w)
    (ho : s.bus.outcomes[j]? = some .ok) : settle wt (sendFrom w j ((s.sentSoFar w j).answerWith r)) = s.partWay w wt (j + 1) := by
  obtain ⟨b, hb⟩ := blocks_get w s (show j < s.count w by omega)
  rw [(sendFrom_sentSoFar w j b r s hb).1 ho, if_pos hj]
  simp [settle, State.sentSoFar, hf.1, State.partWay, State.setTransfer, State.answerWith]

/-- The state that the step after `k` transactions which answered Ok begins from, when the first was sent in the step before. -/
theorem run_sends (wt : Waiting) (w : Sending) (s : State) (hf : s.BusFree) (k : Nat) (hk : k < s.count w)
    (ho : ∀ j, j < k → s.bus.outcomes[j]? = some .ok) :
    ∃ r, Sys2Proof.core.run k (settle wt (sendFrom w 0 s)) = .next (settle wt (sendFrom w k ((s.sentSoFar w k).answerWith r))) := by
  induction k with
  | zero =>
    refine ⟨s.call.answer, ?_⟩
    rw [sentSoFar_zero]
    rfl
  | succ k ih =>
    obtain ⟨r, h⟩ := ih (by omega) fun j hj => ho j (by omega)
    rw [settle_part wt w k r s hf hk (ho k (by omega))] at h
    refine ⟨none, ?_⟩
    have hb : (s.partWay w wt (k + 1)).bus.blocked = false := hf.1
    have hx : (s.partWay w wt (k + 1)).bus.transfer = some ⟨w, k + 1, wt⟩ := rfl
    have hs : (s.partWay w wt (k + 1)).setTransfer none = (s.sentSoFar w (k + 1)).answerWith none := by
      simp [State.partWay, State.setTransfer, State.answerWith, State.sentSoFar, hf.2]
    refine (run_snoc k h).trans ((step_transfer hb hx).trans ?_)
    rw [continueTransfer, hs]
    rfl

/-- Between two transactions of a request (R93, R144). -/
theorem run_part (wt : Waiting) (w : Sending) (s : State) (j : Nat) (h : s.BusOk j) (h1 : 1 ≤ j) (hj : j < s.count w) :
    Sys2Proof.core.run (j - 1) (settle wt (sendFrom w 0 s)) = .next (s.partWay w wt j) := by
  obtain ⟨k, rfl⟩ : ∃ k, j = k + 1 := ⟨j - 1, by omega⟩
  obtain ⟨r, hr⟩ := run_sends wt w s h.1 k (by omega) fun i hi => h.get i (by omega)
  rw [settle_part wt w k r s h.1 hj (h.get k (by omega))] at hr
  exact hr

/-- How a request ends whose transactions all answer Ok. -/
theorem run_done (wt : Waiting) (w : Sending) (s : State) (h : s.BusOk (s.count w)) (hn : 0 < s.count w) :
    ∃ r, Sys2Proof.core.run (s.count w - 1) (settle wt (sendFrom w 0 s)) =
      .next (settle wt (conclude w (.ok, (s.sentSoFar w (s.count w)).answerWith r))) := by
  obtain ⟨b, hb⟩ := blocks_get w s (show s.count w - 1 < s.count w by omega)
  obtain ⟨r, hr⟩ := run_sends wt w s h.1 (s.count w - 1) (by omega) fun i hi => h.get i (by omega)
  refine ⟨r, ?_⟩
  rw [hr, (sendFrom_sentSoFar w _ b r s hb).1 (h.get _ (by omega)), if_neg (by omega), Nat.sub_add_cancel (by omega)]

/-- How a request ends whose transaction `k` answers Err (R93, R94). -/
theorem run_err (wt : Waiting) (w : Sending) (s : State) (k : Nat) (b : Block) (hb : (w.blocks s.params)[k]? = some b)
    (h : s.BusErrAfter k) :
    Sys2Proof.core.run k (settle wt (sendFrom w 0 s)) =
      .next (react wt (((s.failedAt w k b).setPhase .dead).answerWith (some .busError))) := by
  obtain ⟨hk, -⟩ := List.getElem?_eq_some_iff.mp hb
  obtain ⟨r, hr⟩ := run_sends wt w s h.1 k hk h.get.1
  rw [hr, (sendFrom_sentSoFar w k b r s hb).2.1 h.get.2]
  simp [settle, finish, State.failedAt, h.1.1, h.1.2, State.answerWith, State.setPhase]

/-- How a request ends whose transaction `k` never returns (R95, R146). -/
theorem run_never (wt : Waiting) (w : Sending) (s : State) (k : Nat) (b : Block) (hb : (w.blocks s.params)[k]? = some b)
    (h : s.BusNeverAfter k) :
    Sys2Proof.core.run k (settle wt (sendFrom w 0 s)) = .next ((s.hungAt w k).answerWith none).block := by
  obtain ⟨hk, -⟩ := List.getElem?_eq_some_iff.mp hb
  obtain ⟨r, hr⟩ := run_sends wt w s h.1 k hk h.get.1
  rw [hr, (sendFrom_sentSoFar w k b r s hb).2.2 h.get.2]
  simp [settle, finish, State.block, State.answerWith]

/-- A request handed over directly has no one to react to it. -/
theorem settle_caller_sendFrom (w : Sending) (j : Nat) (s : State) (h : s.bus.transfer = none) :
    settle .caller (sendFrom w j s) = sendFrom w j s := by
  have key (u : State) (hu : u.bus.transfer = none ∨ ∃ x j, u.bus.transfer = some ⟨x, j, .caller⟩) : settle .caller u = u := by
    unfold settle
    split
    · rfl
    · rcases hu with hu | ⟨x, j, hu⟩
      · simp only [hu, react]
      · simp only [hu, State.setTransfer]
        rw [← hu]
  have hw (b : Block) : ∀ inc, (busWrite inc b s).2.bus.transfer = none := by
    intro inc
    unfold busWrite
    split
    · rw [State.recordOk_eq]
      exact h
    · exact h
    · exact h
  have hc (o : BusOutcome) (u : State) (hu : u.bus.transfer = none) : (conclude w (o, u)).bus.transfer = none := by
    cases o
    · cases w
      · simp only [conclude, finish, State.answerWith, State.configure]
        split <;> exact hu
      · exact hu
    · exact hu
    · exact hu
  apply key
  unfold sendFrom
  split
  · exact .inl h
  · next b _ =>
    have ht := hw b (w.relies s)
    split
    · next t he =>
      rw [he] at ht
      split
      · exact .inr ⟨w, _, rfl⟩
      · exact .inl (hc .ok t ht)
    · next t he =>
      rw [he] at ht
      exact .inl (hc .err t ht)
    · next t he =>
      rw [he] at ht
      exact .inl (hc .never t ht)

end Sys2Proof.Machine
end

