-- ==== Sys2Proof/Laws/Requests.lean ====
section
/-! SUPPORT. What a whole request does, said once for each of its endings: the `command` operation, a line's sub-command, and a
shutdown attempt. -/

namespace Sys2Proof.Machine

/-- The frame of a case is the bytes written out in Safety (R54 to R56). -/
theorem commandBytes_case (p : Params) (c : Case) : (frameOf p c).bytes = commandBytes p c.velocity := by
  cases c with
  | release => rfl
  | brake => rfl
  | forward v =>
    obtain ⟨v, h1, h2⟩ := v
    have h0 : ¬ v = 0 := by omega
    have h3 : 0 < v := h1
    simp only [frameOf, forwardFrame, Frame.bytes, Case.velocity, commandBytes, SubBlock.bytes, dutyBlock, dutyOfSpeed,
      inputBlock, dutyFull, padByte]
    simp only [Int.natCast_eq_zero, h0, if_false, Int.natCast_pos, h3, if_true, Int.natAbs_natCast]
    simp
    constructor
    · apply BitVec.eq_of_toNat_eq; simp
    · apply BitVec.eq_of_toNat_eq; simp [Nat.shiftRight_eq_div_pow]; omega
  | reverse v =>
    obtain ⟨v, h1, h2⟩ := v
    have h0 : ¬ v = 0 := by omega
    have h3 : ¬ (0 : Int) < -(v:Int) := by omega
    simp only [frameOf, reverseFrame, Frame.bytes, Case.velocity, commandBytes, SubBlock.bytes, dutyBlock, dutyOfSpeed,
      inputBlock, dutyFull, padByte]
    simp only [Int.neg_eq_zero, Int.natCast_eq_zero, h0, if_false, h3, Int.natAbs_neg, Int.natAbs_natCast]
    simp
    constructor
    · apply BitVec.eq_of_toNat_eq; simp
    · apply BitVec.eq_of_toNat_eq; simp [Nat.shiftRight_eq_div_pow]; omega

/-- A frame has 12 bytes (R51). -/
theorem commandBytes_length (p : Params) (vel) : (commandBytes p vel).length = 12 := by
  unfold commandBytes
  split
  · rfl
  · split
    · rfl
    · split <;> rfl

/-- A bank starts at 6 + 16 * i (R64). -/
theorem bankAddress_toNat (m : Motor) : (BitVec.ofNat 8 (6 + 16 * m.val) : RegAddr).toNat = 6 + 16 * m.val := by
  rw [BitVec.toNat_ofNat]; omega

/-- A case's operands decode to its instruction (R50). -/
theorem decodeCommand_case (m : Motor) (c : Case) : decodeCommand m.val c.velocity = caseInstr m c := by
  have hm : (m.val:Int) ≤ 3 := by omega
  cases c with
  | release => simp [decodeCommand, validate, selectMotor, selectCase, hm, caseInstr, Case.velocity]
  | brake => simp [decodeCommand, validate, selectMotor, selectCase, hm, caseInstr, Case.velocity]
  | forward v =>
    obtain ⟨v, h1, h2⟩ := v
    have h3: ¬ (4095 ≤ v) := by omega
    have h4 : v ≠ 0 := by omega
    have h5 : 0 < v := h1
    simp [decodeCommand, validate, selectMotor, selectCase, hm, caseInstr, h3, h4, h5, Case.velocity]
  | reverse v =>
    obtain ⟨v, h1, h2⟩ := v
    have h3: ¬ (4095 ≤ v) := by omega
    have h4 : v ≠ 0 := by omega
    have h6 : ¬ ((v:Int) < 0) := by omega
    simp [decodeCommand, validate, selectMotor, selectCase, hm, caseInstr, h3, h4, h6, Case.velocity]

/-- A case's operands pass validation (R50, R77). -/
theorem validate_case (m : Motor) (c : Case) : validate m.val c.velocity = .ok (m, c) := by
  have h := decodeCommand_case m c
  unfold decodeCommand at h
  cases hv : validate m.val c.velocity with
  | error e => rw [hv] at h; cases c <;> cases h
  | ok mc => 
    obtain ⟨m', c'⟩ := mc
    rw [hv] at h
    cases c <;> cases c' <;> simp [caseInstr] at h <;> simp [h]

/-- A velocity of magnitude 4095 or more is rejected (R77, R79). -/
theorem validate_fast (m : Motor) (v : Int) (h : 4095 ≤ v.natAbs) : validate m.val (some v) = .error (.velocity v) := by
  have hm : (m.val:Int) ≤ 3 := by omega
  simp [validate, selectMotor, hm, selectCase, h]

/-- The four command rows are one shared operation. -/
theorem exec_caseInstr (m : Motor) (c : Case) (s : State) :
    exec (caseInstr m c) s = .next (phaseGate false (emit m c) s) := by
  cases c <;> rfl

/-- Every request `Command(bus, i, vel)`, valid or not, is the whole `command` operation (R78). -/
theorem exec_decodeCommand (i vel s) : exec (decodeCommand i vel) s = .next (command false i vel s) := by
  unfold decodeCommand
  cases hv : validate i vel with
  | error e => simp only [exec, execRejectOutOfRange, hv, command]; unfold phaseGate commandBody; simp only [hv]
  | ok mc => obtain ⟨m, c⟩ := mc; simp only [exec_caseInstr, command]; unfold phaseGate commandBody; simp only [hv]

/-- A command takes at most 12 transactions. -/
theorem commandSends_le (s : State) (m vel) : s.commandSends m vel ≤ 12 := by
  have := sends_le s (BitVec.ofNat 8 (6 + 16 * m.val)) (commandBytes s.params vel)
  rw [commandBytes_length] at this; exact this

/-- A command, or a shutdown attempt, that passes the phase check sends its frame (R78, R125, D31). -/
theorem command_passes (sh : Bool) (m : Motor) (c : Case) (s : State)
    (h : s.mon.phase = .ready ∨ (sh = true ∧ s.mon.phase = .dead)) :
    command sh m.val c.velocity s = sendFrom (.frame m c) 0 s := by
  have hb : commandBody m.val c.velocity s = sendFrom (.frame m c) 0 s := by
    simp only [commandBody, validate_case]
    rfl
  rcases h with h | ⟨h, h2⟩
  · simp only [command, phaseGate, h, hb]
  · simp only [command, phaseGate, h, h2, hb, if_true]

/-- A command sends the chunks of its frame (R85, R93). -/
theorem count_frame (m : Motor) (c : Case) (s : State) : s.count (.frame m c) = s.commandSends m c.velocity := by
  show (splitBlock s.params (bankStart m) (frameOf s.params c).bytes).length = _
  rw [commandBytes_case]
  rfl

/-- A frame takes a transaction at least. -/
theorem commandSends_pos (s : State) (m vel) : 0 < s.commandSends m vel := by
  show 0 < (chunksFrom s.params.maxBlock (commandBytes s.params vel).length _ (commandBytes s.params vel)).length
  have hl : (commandBytes s.params vel).length = 11 + 1 := commandBytes_length _ _
  have hne : ¬ (commandBytes s.params vel).isEmpty = true := by
    rw [List.isEmpty_iff]
    intro h
    rw [h] at hl
    cases hl
  rw [hl, chunksFrom, if_neg hne]
  simp

/-- What a command's transactions leave when all have answered Ok (R86). -/
theorem sentSoFar_all (m : Motor) (c : Case) (r) (s : State) :
    conclude (.frame m c) (.ok, (s.sentSoFar (.frame m c) (s.count (.frame m c))).answerWith r) = s.commanded m c.velocity := by
  have ht : ((Sending.frame m c).blocks s.params).take (s.count (.frame m c)) = splitBlock s.params (bankStart m) (frameOf s.params c).bytes :=
    List.take_length
  have hr : (splitBlock s.params (bankStart m) (frameOf s.params c).bytes).foldl (fun r b => Block.land s.initialized b r) s.mon.regs =
      if s.initialized = true then Memory.writeBytes s.mon.regs (bankStart m).toNat (frameOf s.params c).bytes
      else (splitBlock s.params (bankStart m) (frameOf s.params c).bytes).foldl (fun r b => Block.land false b r) s.mon.regs := by
    cases hi : s.initialized
    · rfl
    · rw [if_pos rfl, ← writeBlocks_splitBlock s.params _ _ (bank_fits m _), ← landBlocks_true]
      rfl
  simp only [conclude, finish, State.sentSoFar, Monitor.sent, ht, Sending.relies, hr, State.answerWith, State.commanded, State.accepted,
    ← commandBytes_case]
  rfl

/-- A command, or a shutdown attempt, all of whose transactions answer Ok (R78, R113): what it leaves after the last. -/
theorem command_ok (sh : Bool) (wt : Waiting) (m : Motor) (c : Case) (s : State)
    (h : s.mon.phase = .ready ∨ (sh = true ∧ s.mon.phase = .dead)) (hb : s.BusOk (s.commandSends m c.velocity)) :
    Sys2Proof.core.run (s.commandSends m c.velocity - 1) (settle wt (command sh m.val c.velocity s)) =
      .next (react wt (s.commanded m c.velocity)) := by
  have hn := commandSends_pos s m c.velocity
  rw [← count_frame] at hb hn ⊢
  obtain ⟨r, hr⟩ := run_done wt (.frame m c) s hb hn
  rw [command_passes sh m c s h, hr, sentSoFar_all]
  simp [settle, State.commanded, State.accepted, hb.1.1, hb.1.2]

/-- Between two of its transactions (R93, R144). -/
theorem command_part (sh : Bool) (wt : Waiting) (m : Motor) (c : Case) (s : State) (j : Nat)
    (h : s.mon.phase = .ready ∨ (sh = true ∧ s.mon.phase = .dead)) (hb : s.BusOk j) (h1 : 1 ≤ j) (hj : j < s.commandSends m c.velocity) :
    Sys2Proof.core.run (j - 1) (settle wt (command sh m.val c.velocity s)) = .next (s.partWay (.frame m c) wt j) := by
  rw [command_passes sh m c s h]
  exact run_part wt (.frame m c) s j hb h1 (by rw [count_frame]; exact hj)

/-- A command that validation rejects (R79). -/
theorem command_rejected (i vel e) (s : State) (h : s.mon.phase = .ready) (hv : validate i vel = .error e) :
    command false i vel s = s.answerWith (some (.outOfRange e)) := by
  simp only [command, phaseGate, h, commandBody, hv]

/-- A frame that fits in `MAX_BLOCK` is one transaction (R93). -/
theorem splitBlock_single (p : Params) (m : Motor) (c : Case) (hp : 12 ≤ p.maxBlock) :
    splitBlock p (bankStart m) (frameOf p c).bytes = [⟨bankStart m, commandBytes p c.velocity⟩] := by
  rw [commandBytes_case]
  unfold splitBlock
  have : (commandBytes p c.velocity).length = 11 + 1 := commandBytes_length _ _
  rw [this]
  refine chunksFrom_single _ _ _ _ ?_ (by omega)
  intro h; rw [h] at this; cases this

/-- A command, or a shutdown attempt, whose transaction `k` answers Err (R93, R94, R95). -/
theorem command_err (sh : Bool) (wt : Waiting) (m : Motor) (c : Case) (s : State) (k : Nat) (b : Block)
    (h : s.mon.phase = .ready ∨ (sh = true ∧ s.mon.phase = .dead)) (hk : (s.chunksOf m c)[k]? = some b)
    (he : s.BusErrAfter k) :
    Sys2Proof.core.run k (settle wt (command sh m.val c.velocity s)) = .next (react wt { s with
      mon := { s.mon with
        phase := .dead
        regs := Memory.forgetRange (landBlocks s.initialized s.mon.regs ((s.chunksOf m c).take k)) b.start.toNat b.bytes.length
        trace := s.mon.trace ++ ((s.chunksOf m c).take k).map (Block.record · .ok) ++ [Block.record b .err] }
      bus := { s.bus with outcomes := s.bus.outcomes.drop (k + 1), draws := s.bus.draws + (k + 1) }
      call := { s.call with answer := some .busError } }) := by
  rw [command_passes sh m c s h, run_err wt (.frame m c) s k b hk he]
  rfl

/-- A command, or a shutdown attempt, whose transaction `k` never returns (R95). -/
theorem command_never (sh : Bool) (wt : Waiting) (m : Motor) (c : Case) (s : State) (k : Nat) (b : Block)
    (h : s.mon.phase = .ready ∨ (sh = true ∧ s.mon.phase = .dead)) (hk : (s.chunksOf m c)[k]? = some b)
    (he : s.BusNeverAfter k) :
    Sys2Proof.core.run k (settle wt (command sh m.val c.velocity s)) = .next { s with
      mon := s.mon.sent s.initialized ((s.chunksOf m c).take k)
      bus := { s.bus with outcomes := s.bus.outcomes.drop (k + 1), draws := s.bus.draws + (k + 1), blocked := true }
      call := { s.call with answer := none } } := by
  rw [command_passes sh m c s h, run_never wt (.frame m c) s k b hk he]
  rfl

/-- A request handed over directly has no one to react to it. -/
theorem settle_caller_command (sh : Bool) (m : Motor) (c : Case) (s : State)
    (h : s.mon.phase = .ready ∨ (sh = true ∧ s.mon.phase = .dead)) (ht : s.bus.transfer = none) :
    settle .caller (command sh m.val c.velocity s) = command sh m.val c.velocity s := by
  rw [command_passes sh m c s h, settle_caller_sendFrom _ _ s ht]

/-- What a register reads as after a command, where R36 may be relied on. -/
theorem read_commanded (s : State) (m : Motor) (vel) (a : Nat) (hi : s.initialized = true) :
    Memory.read (s.commanded m vel).mon.regs a =
      if 6 + 16 * m.val ≤ a ∧ a < 6 + 16 * m.val + 12 then (commandBytes s.params vel)[a - (6 + 16 * m.val)]?
      else Memory.read s.mon.regs a := by
  simp only [State.commanded, State.accepted, hi, if_true]
  rw [Memory.read_writeBytes, bankAddress_toNat, commandBytes_length]

/-- A command leaves every register outside its bank. -/
theorem read_commanded_off (s : State) (m : Motor) (vel) (a : Nat) (h : ¬ (6 + 16 * m.val ≤ a ∧ a < 6 + 16 * m.val + 12)) :
    Memory.read (s.commanded m vel).mon.regs a = Memory.read s.mon.regs a := by
  simp only [State.commanded, State.accepted]
  split
  · rw [Memory.read_writeBytes, bankAddress_toNat, commandBytes_length, if_neg h]
  · refine read_landBlocks_off false _ _ a fun b hb hin => h ?_
    have hl := commandBytes_length s.params vel
    have ha := bankAddress_toNat m
    obtain ⟨-, hlo, hhi⟩ := chunksFrom_inside _ _ s.params.maxBlockPos _ _ (by rw [ha, hl]; omega) b hb
    rw [ha] at hlo
    rw [ha, hl] at hhi
    omega

/-- A command uses up at most 12 answers. -/
theorem State.BusOk.commanded (m : Motor) (vel) (s : State) (n k : Nat) (hb : s.BusOk n) (hk : k + 12 ≤ n) :
    (s.commanded m vel).BusOk k := by
  have h2 := hb.drop (k := s.commandSends m vel)
  have h3 : State.BusOk (n - s.commandSends m vel) (s.commanded m vel) := ⟨hb.1, h2⟩
  exact h3.mono (by have := commandSends_le s m vel; omega)

/-- Every velocity in range has its case (R50). -/
theorem exists_case (v : Int) (h : ¬ 4095 ≤ v.natAbs) : ∃ c : Case, c.velocity = some v := by
  by_cases h0 : v = 0
  · exact ⟨.brake, by simp [Case.velocity, h0]⟩
  · by_cases h1 : 0 < v
    · exact ⟨.forward ⟨v.natAbs, by omega, by omega⟩, by simp [Case.velocity]; omega⟩
    · exact ⟨.reverse ⟨v.natAbs, by omega, by omega⟩, by simp only [Case.velocity]; congr 1; omega⟩

/-! ## One request of a line -/

/-- One request of a line uses up at most 12 answers. -/
theorem State.BusOk.performed (x : Motor × Option Int) (s : State) (n k : Nat) (hb : s.BusOk n) (hk : k + 12 ≤ n) :
    (s.performed x).BusOk k := by
  unfold State.performed State.settled
  split
  · exact hb.commanded _ _ _ _ _ hk
  · split
    · exact State.BusOk.mono (n := n) hb (by omega)
    · exact hb.commanded _ _ _ _ _ hk

/-- One request of a line changes nothing of the host but its diagnostics, and not the phase, the parameters or the inbox. -/
theorem performed_frame (x : Motor × Option Int) (s : State) :
    (s.performed x).mon.phase = s.mon.phase ∧ (s.performed x).params = s.params ∧
      (s.performed x).call.inbox = s.call.inbox ∧ (s.performed x).bus.blocked = s.bus.blocked ∧
      (s.performed x).bus.transfer = s.bus.transfer ∧ (s.performed x).host = { s.host with diags := (s.performed x).host.diags } := by
  obtain ⟨m, vel⟩ := x
  unfold State.performed State.settled
  cases vel with
  | none => exact ⟨rfl, rfl, rfl, rfl, rfl, rfl⟩
  | some v =>
    simp only
    split <;> exact ⟨rfl, rfl, rfl, rfl, rfl, rfl⟩

/-- A request of a line takes a step at least. -/
theorem requestSteps_pos (x : Motor × Option Int) (s : State) : 0 < s.requestSteps x := by
  unfold State.requestSteps
  split
  · exact commandSends_pos _ _ _
  · split
    · exact Nat.zero_lt_one
    · exact commandSends_pos _ _ _

/-- A line's request whose index is out of range (R79, R111). -/
theorem subCommand_rejected (i vel e) (s : State) (hf : s.BusFree) (h : s.mon.phase = .ready) (hv : validate i vel = .error e) :
    subCommand i vel s = (s.rejectedWith e (outOfRangeDiag s.host.line e)).tick := by
  rw [subCommand, command_rejected i vel e s h hv]
  simp only [settle, State.answerWith, hf.1, hf.2]
  rfl

/-- A line's request whose transactions answer Ok: it is performed, and a signal comes one request nearer (R111, R116). -/
theorem subCommand_performed (x : Motor × Option Int) (s : State) (h : s.mon.phase = .ready) (hb : s.BusOk 12) :
    Sys2Proof.core.run (s.requestSteps x - 1) (subCommand x.1.val x.2 s) = .next (s.performed x).tick := by
  obtain ⟨m, vel⟩ := x
  have ok (c : Case) : Sys2Proof.core.run (s.commandSends m c.velocity - 1) (subCommand m.val c.velocity s) =
      .next (s.commanded m c.velocity).tick :=
    command_ok false .line m c s (.inl h) (hb.mono (commandSends_le _ _ _))
  cases vel with
  | none => exact ok .release
  | some v =>
    simp only [State.performed, State.settled, State.requestSteps]
    split
    · next hv =>
      rw [subCommand_rejected _ _ _ s hb.1 h (validate_fast m v hv)]
      rfl
    · next hv =>
      obtain ⟨c, hc⟩ := exists_case v hv
      rw [← hc]
      exact ok c

/-- The host with other requests left, and another signal to come. -/
def State.withWork (rest : List (Int × Option Int)) (signal : Option Nat) (s : State) : State :=
  { s with host := { s.host with pending := rest, signalIn := signal } }

/-- A request does not depend on the requests left, nor on a signal to come. -/
theorem performed_withWork (x : Motor × Option Int) (rest signal) (s : State) :
    (s.withWork rest signal).performed x = (s.performed x).withWork rest signal := by
  obtain ⟨m, vel⟩ := x
  unfold State.performed State.settled
  cases vel with
  | none => rfl
  | some v =>
    simp only
    split <;> rfl

/-- The first request that is left, issued with every transaction answering Ok and no signal there. -/
theorem issueFirst_performed (x : Motor × Option Int) (rest old : List (Int × Option Int)) (signal : Option Nat) (s : State)
    (h : s.mon.phase = .ready) (hb : s.BusOk 12) (hs : signal ≠ some 0) :
    Sys2Proof.core.run (s.requestSteps x - 1) (issueFirst (((x.1.val : Int), x.2) :: rest) (s.withWork old signal)) =
      .next ((s.performed x).withWork rest (signal.map (· - 1))) := by
  have hd : (s.withWork old signal).signalDue = false := by simpa [State.signalDue, State.withWork] using hs
  simp only [issueFirst, hd, Bool.false_eq_true, if_false]
  have e : (s.withWork old signal).setPending rest = s.withWork rest signal := rfl
  have hp := subCommand_performed x (s.withWork rest signal) h hb
  rw [performed_withWork] at hp
  rw [e]
  exact hp

/-! ## One release of the shutdown -/

/-- The step of a release begins it, no signal being there or none that matters (R116). -/
theorem shutdownNext_eq (m : Motor) (rest : List Int) (e : EndKind) (s : State)
    (hs : s.host.signalIn ≠ some 0 ∨ s.params.signalShutdown = true) :
    shutdownNext ((m.val : Int) :: rest) e s = settle (.shutdown m.val rest e) (command true m.val Case.release.velocity s) := by
  have hd : (s.signalDue && !s.params.signalShutdown) = false := by
    rcases hs with hs | hs
    · simp [State.signalDue, hs]
    · simp [hs]
  simp only [shutdownNext, hd, Bool.false_eq_true, if_false, Case.velocity]

/-- A shutdown attempt passes the phase check once the block is not Fresh (D31). -/
theorem passes_of_not_fresh {s : State} (h : s.mon.phase ≠ .fresh) : s.mon.phase = .ready ∨ (true = true ∧ s.mon.phase = .dead) := by
  cases hp : s.mon.phase <;> simp_all

/-- A shutdown attempt that succeeds (R113). -/
theorem shutdownNext_ok (m : Motor) (rest : List Int) (e : EndKind) (s : State)
    (hs : s.host.signalIn ≠ some 0 ∨ s.params.signalShutdown = true) (h : s.mon.phase ≠ .fresh)
    (hb : s.BusOk (s.commandSends m none)) :
    Sys2Proof.core.run (s.commandSends m none - 1) (shutdownNext ((m.val : Int) :: rest) e s) =
      .next ((s.commanded m none).tick.shutdownLeft rest e) := by
  have hr := command_ok true (.shutdown m.val rest e) m .release s (passes_of_not_fresh h) hb
  rw [shutdownNext_eq m rest e s hs]
  exact hr

end Sys2Proof.Machine
end

