-- ==== Sys2Proof/Laws/Steps.lean ====
section
/-! SUPPORT. Which step the host takes while requests of a line, or releases of the shutdown, are left; what a line that expands into
requests does; and several requests of a line. -/

namespace Sys2Proof.Machine

/-! ## The host's next step -/

/-- A host that takes lines finds the bus free, and is not over. -/
theorem hostStopped_false {s : State} (h : s.hostStopped = false) : s.BusFree ∧ s.host.stage.isOver = false := by
  simp only [State.hostStopped, Bool.or_eq_false_iff, Option.isSome_eq_false_iff, Option.isNone_iff_eq_none] at h
  exact ⟨⟨h.1.1, h.2⟩, h.1.2⟩

theorem hostStopped_of {s : State} (h : s.BusFree) (ho : s.host.stage.isOver = false) : s.hostStopped = false := by
  simp [State.hostStopped, h.1, h.2, ho]

/-- The step while a line has requests left (R48). -/
theorem step_pending (s : State) (x : Int × Option Int) (rest : List (Int × Option Int)) (h : s.hostStopped = false)
    (hi : s.call.inbox = []) (hp : s.host.pending = x :: rest) : step s = .next (issueFirst (x :: rest) s) := by
  obtain ⟨⟨hb, ht⟩, ho⟩ := hostStopped_false h
  rw [step, nextStep, hb, ht, hi]
  unfold hostStep
  cases hs : s.host.stage <;> simp_all [HostStage.isOver]

/-- The step while the shutdown runs (R113). -/
theorem step_stopping (s : State) (todo : List Int) (e : EndKind) (hf : s.BusFree) (hi : s.call.inbox = [])
    (hs : s.host.stage = .stopping todo e) : step s = .next (shutdownNext todo e s) := by
  simp [step, nextStep, hf.1, hf.2, hi, hostStep, hs]

/-! ## A line that expands into requests -/

/-- Such a line issues its requests (R105 to R109). -/
theorem exec_requests (i : Instr) (requests : List (Int × Option Int)) (s : State) (h : i.requests = some requests) :
    exec i s = .next (issueLine requests s) := by
  cases i with
  | releaseAll => cases h; rfl
  | releaseOne t0 => cases t0 <;> cases h; rfl
  | setOne t0 t1 => cases t0 <;> cases t1 <;> cases h <;> rfl
  | setAll t0 t1 t2 t3 => cases t0 <;> cases t1 <;> cases t2 <;> cases t3 <;> cases h; rfl
  | _ => cases h

/-- It has 1 to 4 of them. -/
theorem length_requests (i : Instr) (requests : List (Int × Option Int)) (h : i.requests = some requests) :
    1 ≤ requests.length ∧ requests.length ≤ 4 := by
  cases i with
  | releaseAll => cases h; simp
  | releaseOne t0 => cases t0 <;> cases h; simp
  | setOne t0 t1 => cases t0 <;> cases t1 <;> cases h <;> simp
  | setAll t0 t1 t2 t3 => cases t0 <;> cases t1 <;> cases t2 <;> cases t3 <;> cases h; simp
  | _ => cases h

/-- A fault recorded twice is recorded once: they are a set (R19). -/
theorem addFault_twice (f : ModelFault) (fs : List ModelFault) : addFault f (addFault f fs) = addFault f fs := by
  unfold addFault
  refine List.filter_congr fun g hg => ?_
  by_cases h : g = f
  · simp [h]
  · simpa [List.mem_filter, h] using fun _ => hg

/-! ## Several requests of a line -/

/-- Several requests change nothing of the host but its diagnostics, and not the phase, the parameters or the inbox. -/
theorem performedAll_frame (xs : List (Motor × Option Int)) (s : State) :
    (s.performedAll xs).mon.phase = s.mon.phase ∧ (s.performedAll xs).params = s.params ∧
      (s.performedAll xs).call.inbox = s.call.inbox ∧ (s.performedAll xs).bus.blocked = s.bus.blocked ∧
      (s.performedAll xs).bus.transfer = s.bus.transfer ∧ (s.performedAll xs).host = { s.host with diags := (s.performedAll xs).host.diags } := by
  induction xs generalizing s with
  | nil => exact ⟨rfl, rfl, rfl, rfl, rfl, rfl⟩
  | cons x xs ih =>
    obtain ⟨a, b, c, d, d2, e⟩ := ih (s.performed x)
    obtain ⟨a', b', c', d', d2', e'⟩ := performed_frame x s
    refine ⟨a.trans a', b.trans b', c.trans c', d.trans d', d2.trans d2', ?_⟩
    have h : s.performedAll (x :: xs) = (s.performed x).performedAll xs := rfl
    rw [h, e, e']

/-- Several requests use up at most 12 answers each. -/
theorem State.BusOk.performedAll (xs : List (Motor × Option Int)) (s : State) (n k : Nat) (hb : s.BusOk n)
    (h : k + 12 * xs.length ≤ n) : (s.performedAll xs).BusOk k := by
  induction xs generalizing s n with
  | nil => exact hb.mono (by simpa using h)
  | cons x xs ih =>
    simp only [List.length_cons] at h
    exact ih (s.performed x) (n - 12) (hb.performed x s n _ (by omega)) (by omega)

end Sys2Proof.Machine
end

