-- ==== Sys2Proof/Laws/Text.lean ====
section
/-! SUPPORT. Lines written from tokens read back as the same tokens (R103, R104). -/

namespace Sys2Proof.Machine

/-- Reading two runs of digits one after the other. -/
theorem digitsValue_append (acc : Nat) (xs ys) : digitsValue acc (xs ++ ys) = (digitsValue acc xs).bind (fun a => digitsValue a ys) := by
  induction xs generalizing acc with
  | nil => rfl
  | cons x xs ih => simp only [List.cons_append, digitsValue]; cases digitValue x <;> simp [ih]

/-- A digit written is the digit read. -/
theorem digitValue_digitByte (d : Nat) (h : d < 10) : digitValue (digitByte d) = some d := by
  simp [digitValue, digitByte]
  have : (48 + d) % 256 = 48 + d := by omega
  rw [this]; omega

/-- The digits written for a number give it back. -/
theorem digitsValue_text : ∀ (f n acc : Nat), n < f → digitsValue acc (digitsText f n) = some (acc * 10 ^ (digitsText f n).length + n) := by
  intro f
  induction f with
  | zero => intro n acc h; omega
  | succ f ih =>
    intro n acc h
    rw [digitsText]
    split
    · next h10 => simp [digitsValue, digitValue_digitByte n h10]; ring
    · rw [digitsValue_append, ih _ _ (by omega)]
      simp [digitsValue, digitValue_digitByte (n % 10) (by omega)]
      rw [pow_succ]
      have := Nat.div_add_mod n 10
      nlinarith

/-- A number has at least one digit. -/
theorem digitsText_ne : ∀ f n, n < f → digitsText f n ≠ [] := by
  intro f n h
  cases f with
  | zero => omega
  | succ f => rw [digitsText]; split <;> simp

/-- Only decimal digits are written. -/
theorem digitsText_digit : ∀ f n, ∀ b ∈ digitsText f n, 0x30 ≤ b.toNat ∧ b.toNat ≤ 0x39 := by
  intro f
  have hd : ∀ d, d < 10 → 0x30 ≤ (digitByte d).toNat ∧ (digitByte d).toNat ≤ 0x39 := by
    intro d h; simp [digitByte]; omega
  induction f with
  | zero => simp [digitsText]
  | succ f ih =>
    intro n b hb
    rw [digitsText] at hb
    split at hb
    · simp at hb; subst hb; exact hd n (by omega)
    · simp at hb
      rcases hb with hb | rfl
      · exact ih _ _ hb
      · exact hd _ (by omega)

/-- A natural number written is the number read (R104). -/
theorem naturalValue_text (n : Nat) : naturalValue (naturalText n) = some n := by
  have h := digitsText_ne (n+1) n (by omega)
  have h2 := digitsValue_text (n+1) n 0 (by omega)
  unfold naturalText
  cases hx : digitsText (n+1) n with
  | nil => exact absurd hx h
  | cons a l => rw [naturalValue, ← hx, h2]; simp

/-- A digit is no byte below 0x30. -/
theorem digit_ne (b c : Byte) (h : 0x30 ≤ b.toNat ∧ b.toNat ≤ 0x39) (hc : c.toNat < 0x30) : b ≠ c := by
  rintro rfl; omega

/-- A digit is neither whitespace nor a sign. -/
theorem digit_ne' (b : Byte) (h : 0x30 ≤ b.toNat ∧ b.toNat ≤ 0x39) : ¬ b = 32#8 ∧ ¬ b = 9#8 ∧ ¬ b = 11#8 ∧ ¬ b = 12#8 ∧ ¬ b = 13#8 ∧ ¬ b = 45#8 ∧ ¬ b = 43#8 := by
  refine ⟨?_, ?_, ?_, ?_, ?_, ?_, ?_⟩ <;> exact digit_ne b _ h (by decide)

/-- An integer written reads as the numeric token of its value (R104). -/
theorem readToken_int (v : Int) : readToken (integerText v) = .num v := by
  cases v with
  | ofNat n =>
    have h := naturalValue_text n
    have hd := digitsText_digit (n+1) n
    simp only [integerText]
    unfold readToken numericValue
    cases hx : naturalText n with
    | nil => exact absurd hx (digitsText_ne _ _ (by omega))
    | cons a l =>
      have ha := hd a (by unfold naturalText at hx; rw [hx]; simp)
      rw [hx] at h
      simp [digit_ne' a ha, h]
  | negSucc n =>
    simp only [integerText]
    unfold readToken numericValue
    simp [naturalValue_text]
    omega

/-- An integer is written without whitespace. -/
theorem integerText_chars (v : Int) : integerText v ≠ [] ∧ ∀ b ∈ integerText v, isSpace b = false := by
  have key : ∀ b : Byte, (0x30 ≤ b.toNat ∧ b.toNat ≤ 0x39) → isSpace b = false := by
    intro b h
    simp [isSpace, digit_ne' b h]
  cases v with
  | ofNat n => exact ⟨digitsText_ne _ _ (by omega), fun b hb => key b (digitsText_digit _ _ b hb)⟩
  | negSucc n =>
    refine ⟨by simp [integerText], fun b hb => ?_⟩
    simp only [integerText, List.mem_cons] at hb
    rcases hb with rfl | hb
    · decide
    · exact key b (digitsText_digit _ _ b hb)

/-- A well-formed token is written without whitespace, and reads as itself (R103, R104). -/
theorem tokenText_chars (t : Token) (h : t.wf = true) : tokenText t ≠ [] ∧ (∀ b ∈ tokenText t, isSpace b = false) ∧ readToken (tokenText t) = t := by
  cases t with
  | num v => exact ⟨(integerText_chars v).1, (integerText_chars v).2, readToken_int v⟩
  | word w =>
    simp [Token.wf] at h
    refine ⟨h.1.1, fun b hb => (h.1.2 b hb).1, ?_⟩
    simp only [tokenText, readToken]
    cases hh : numericValue w <;> simp_all

/-- A run without whitespace goes into the token being read (R103). -/
theorem splitFrom_run (cur tok rest : List Byte) (h : ∀ b ∈ tok, isSpace b = false) : splitFrom cur (tok ++ rest) = splitFrom (cur ++ tok) rest := by
  induction tok generalizing cur with
  | nil => simp
  | cons b tok ih =>
    simp only [List.cons_append, splitFrom]
    rw [if_neg (by simp [h b])]
    rw [ih _ (fun x hx => h x (List.mem_cons_of_mem _ hx))]; simp

/-- The tokens of a written line are the texts of its tokens (R103). -/
theorem tokens_lineText (ts : List Token) (h : ∀ t ∈ ts, t.wf = true) : splitFrom [] (lineText ts) = ts.map tokenText := by
  induction ts with
  | nil => rfl
  | cons t ts ih =>
    obtain ⟨h1, h2, h3⟩ := tokenText_chars t (h t (by simp))
    cases ts with
    | nil =>
      have := splitFrom_run [] (tokenText t) [] h2
      simp only [List.append_nil, List.nil_append] at this
      simp [lineText, this, splitFrom, h1]
    | cons u us =>
      have := splitFrom_run [] (tokenText t) (0x20 :: lineText (u :: us)) h2
      simp only [List.nil_append] at this
      rw [lineText, this, splitFrom]
      · rw [if_pos (by decide), if_neg (by simp [h1]), ih (fun x hx => h x (List.mem_cons_of_mem _ hx))]; rfl
      · simp

/-- A line written from well-formed tokens has exactly these tokens (R103, R104). -/
theorem lineTokens_lineText (ts : List Token) (h : ∀ t ∈ ts, t.wf = true) : lineTokens (lineText ts) = ts := by
  rw [lineTokens, tokens_lineText ts h, List.map_map]
  conv_rhs => rw [← List.map_id ts]
  exact List.map_congr_left fun t ht => (tokenText_chars t (h t ht)).2.2

end Sys2Proof.Machine
end

