-- ==== Sys2Proof/Tests/Slice0.lean ====
section
/-! SUPPORT. The model's own tests, each from a vector of 95_test_vectors.md or a rule of the spec, and the witnesses: for every
statement with hypotheses, a concrete state and operands that meet them. -/

open Sys2Proof Sys2Proof.Machine

namespace Sys2Proof.Tests

/-! ## Small states -/

/-- The spec's defaults with a concrete mode transaction, no shutdown on a signal, and a given `MAX_BLOCK`. -/
def paramsWith (maxBlock : Nat) (h : 1 ≤ maxBlock) : Params where
  inputOn := ⟨0xFF, 0, 0, 0⟩
  inputOff := ⟨0, 0, 0, 0⟩
  inputsDiffer := by decide
  maxBlock := maxBlock
  maxBlockPos := h
  initWrites := [⟨0, [0xA1, 0xA2], by decide, by decide, by decide⟩]
  initWritesNonempty := by decide
  shutdownPolicy := .bestEffort
  shutdownAfterBusError := false
  signalShutdown := false

/-- The same with the spec's default, a `MAX_BLOCK` that splits nothing. -/
def params : Params := paramsWith 12 (by decide)

/-- Process start, with the answers the bus will give. -/
def fresh (answers : List BusOutcome) (p : Params := params) : State :=
  { State.resetWith p with bus := ⟨answers, 0, false, none⟩ }

/-- A host that reads line 1 with the block in a phase, and the answers the bus will give. -/
def inPhase (phase : Phase) (answers : List BusOutcome) (p : Params := params) : State :=
  { State.resetWith p with
    mon := ⟨phase, [], [], [], phase != .fresh⟩
    bus := ⟨answers, 0, false, none⟩
    host := ⟨.reading, [], false, 1, [], [], none⟩ }

/-- The same, with the block initialized. -/
def ready (answers : List BusOutcome) (p : Params := params) : State := inPhase .ready answers p

/-- `n` answers Ok. -/
def oks (n : Nat) : List BusOutcome := List.replicate n .ok

def after : Host.Outcome State Fault Refusal → Option State
  | .next s => some s
  | .fault _ => none
  | .refused _ => none

def trace : Host.Outcome State Fault Refusal → List (Nat × List Byte × TxOutcome)
  | .next s => s.mon.trace.map fun t => (t.start.toNat, t.bytes, t.outcome)
  | .fault _ => []
  | .refused _ => []

def diags : Host.Outcome State Fault Refusal → List Diag
  | .next s => s.host.diags
  | .fault _ => []
  | .refused _ => []

def answer : Host.Outcome State Fault Refusal → Option Result
  | .next s => s.call.answer
  | .fault _ => none
  | .refused _ => none

def rel : List Byte := [0, 0, 0, 0, 0, 0, 0, 0, 0, 0, 0, 0]

def brk : List Byte := [0, 0, 0, 0, 0xFF, 0, 0, 0, 0xFF, 0, 0, 0]

def s1 : Speed := ⟨1, by decide, by decide⟩
def s100 : Speed := ⟨100, by decide, by decide⟩
def s500 : Speed := ⟨500, by decide, by decide⟩
def s1000 : Speed := ⟨1000, by decide, by decide⟩
def s4094 : Speed := ⟨4094, by decide, by decide⟩

/-! ## Well-formedness: each check refuses an ill-formed term -/

/-- R79: both operands in range are no rejected request. -/
theorem test_wf_reject_in_range : (Instr.rejectOutOfRange 3 (some 4094)).wf = false := by decide

/-- R79, R77: 4 and -1 are no motor index, 4095 and -4095 no velocity. -/
theorem test_wf_reject_out_of_range :
    (Instr.rejectOutOfRange 4 none).wf && (Instr.rejectOutOfRange (-1) none).wf &&
      (Instr.rejectOutOfRange 0 (some 4095)).wf && (Instr.rejectOutOfRange 0 (some (-4095))).wf = true := by decide

/-- R91. -/
theorem test_wf_block_other_device : (Instr.writeBlock 0x41 0 [1]).wf = false := by decide

/-- R90. -/
theorem test_wf_block_empty : (Instr.writeBlock 0x40 0 []).wf = false := by decide

/-- R33: register 256 does not exist. -/
theorem test_wf_block_past_end : (Instr.writeBlock 0x40 255 [1, 2]).wf = false := by decide

/-- R33: register 255 does. -/
theorem test_wf_block_at_end : (Instr.writeBlock 0x40 255 [1]).wf = true := by decide

/-- R103: a token has characters, and no whitespace; R102: no newline. -/
theorem test_wf_word_not_a_token :
    (Instr.releaseOne (.word [])).wf || (Instr.releaseOne (.word [0x61, 0x20])).wf ||
      (Instr.releaseOne (.word [0x61, 0x0A])).wf = false := by decide

/-- R104: `-7` is numeric, so it is no other text. -/
theorem test_wf_word_numeric :
    (Instr.setOne (.num 1) (.word [0x2D, 0x37])).wf || (Instr.setAll (.word [0x37]) (.num 0) (.num 0) (.num 0)).wf =
      false := by decide

/-- R110: 2 or 4 tokens are not malformed; 3 and 5 are. -/
theorem test_wf_malformed :
    (Instr.malformed [.num 1, .num 2]).wf || (Instr.malformed [.num 1, .num 2, .num 3, .num 4]).wf = false ∧
      (Instr.malformed [.num 1, .num 2, .num 3]).wf &&
        (Instr.malformed [.num 1, .num 2, .num 3, .num 4, .num 5]).wf = true := by decide

/-! ## Decoding: words written out from the spec's encodings -/

/-- R57, L2.2: Release. -/
theorem test_decode_release : decode params (.image 38 rel) = .ok (.cmdRelease 2) := by decide

/-- R57, L2.2: Brake. -/
theorem test_decode_brake : decode params (.image 22 brk) = .ok (.cmdBrake 1) := by decide

/-- L2.2: (3, some 1), duty 0xFFE. -/
theorem test_decode_forward :
    decode params (.image 54 [0xFE, 0x0F, 0, 0, 0, 0, 0, 0, 0xFF, 0, 0, 0]) = .ok (.cmdForward 3 s1) := by decide

/-- L2.2: (0, some (-4094)), duty 1. -/
theorem test_decode_reverse :
    decode params (.image 6 [1, 0, 0, 0, 0xFF, 0, 0, 0, 0, 0, 0, 0]) = .ok (.cmdReverse 0 s4094) := by decide

/-- R69: the mode transaction. -/
theorem test_decode_initialize : decode params (.image 0 [0xA1, 0xA2]) = .ok .initializeChip := by decide

/-- R49, R50, R79: requests. -/
theorem test_decode_requests :
    decode params .initRequest = .ok .initializeChip ∧
      decode params (.command 1 (some (-500))) = .ok (.cmdReverse 1 s500) ∧
      decode params (.command 7 (some 9999)) = .ok (.rejectOutOfRange 7 (some 9999)) ∧
      decode params (.baseCall 4) = .ok (.baseRegister 4) ∧
      decode params (.blockCall 0x40 200 [5]) = .ok (.writeBlock 0x40 200 [5]) := by decide

/-- L2.4: the four images that are no frame of the block, and a start register of no bank. -/
theorem test_decode_foreign :
    decode params (.image 6 [0, 0, 0, 0, 0, 0, 0, 0, 0xFF, 0, 0, 0]) = .error (.drivingDuty 0) ∧
      decode params (.image 6 [5, 0, 0, 0, 0, 0, 0, 0, 0, 0, 0, 0]) = .error (.equalLevelsDuty 5) ∧
      decode params (.image 6 [0, 0x10, 0, 0, 0, 0, 0, 0, 0, 0, 0, 0]) = .error .dutyHighNibble ∧
      decode params (.image 6 [0, 0, 0, 0, 0x7F, 0, 0, 0, 0, 0, 0, 0]) = .error .inputLevel ∧
      decode params (.image 7 rel) = .error (.startRegister 7) := by decide

/-- L2.5: "", "   \t ", "3", "x". -/
theorem test_decode_lines_0_1 :
    decodeLine [] = .releaseAll ∧ decodeLine [0x20, 0x20, 0x20, 0x09, 0x20] = .releaseAll ∧
      decodeLine [0x33] = .releaseOne (.num 3) ∧ decodeLine [0x78] = .releaseOne (.word [0x78]) := by decide

/-- L2.5: "+1 -0", "\t1\t-1\r", "1 1.5", "1 0x10". -/
theorem test_decode_lines_2 :
    decodeLine [0x2B, 0x31, 0x20, 0x2D, 0x30] = .setOne (.num 1) (.num 0) ∧
      decodeLine [0x09, 0x31, 0x09, 0x2D, 0x31, 0x0D] = .setOne (.num 1) (.num (-1)) ∧
      decodeLine [0x31, 0x20, 0x31, 0x2E, 0x35] = .setOne (.num 1) (.word [0x31, 0x2E, 0x35]) ∧
      decodeLine [0x31, 0x20, 0x30, 0x78, 0x31, 0x30] = .setOne (.num 1) (.word [0x30, 0x78, 0x31, 0x30]) := by decide

/-- L2.5: "1 2 3 x", "0 1 2". -/
theorem test_decode_lines_3_4 :
    decodeLine [0x31, 0x20, 0x32, 0x20, 0x33, 0x20, 0x78] = .setAll (.num 1) (.num 2) (.num 3) (.word [0x78]) ∧
      decodeLine [0x30, 0x20, 0x31, 0x20, 0x32] = .malformed [.num 0, .num 1, .num 2] := by decide

/-- R113: the end of the stream; and the words of the opcode table. -/
theorem test_decode_end : decode params .streamEnd = .ok .endOfStream ∧ decodeTableWord 0 0 = some .endOfStream := by
  decide

/-- R57, numbered as the opcode table numbers bits: (0, some 1000) is `17 0C 00 00 00 00 00 00 FF 00 00 00`. -/
theorem test_decode_word :
    decodeTableWord 96 (0x17 + 0x0C * 2 ^ 8 + 0xFF * 2 ^ 64) = some (.cmdForward 0 s1000) := by decide

/-! ## One step of each instruction -/

/-- L2.7: initialize from Fresh. -/
theorem test_initialize : trace (exec .initializeChip (fresh [.ok])) = [(0, [0xA1, 0xA2], .ok)] := by decide

/-- L2.7: initialize with the transaction failing: Dead, BusError. -/
theorem test_initialize_error :
    (after (exec .initializeChip (fresh [.err]))).map (fun s => (s.mon.phase, s.call.answer)) = some (.dead, some .busError) := by decide

/-- L2.2: (3, none). -/
theorem test_cmd_release : trace (exec (.cmdRelease 3) (ready [.ok])) = [(54, rel, .ok)] := by decide

/-- L2.7: a command while Fresh. -/
theorem test_cmd_release_fresh :
    after (exec (.cmdRelease 1) (fresh [.ok])) = some ((fresh [.ok]).faulted .notInitialized) := by decide

/-- L2.2: (1, some 0). -/
theorem test_cmd_brake : trace (exec (.cmdBrake 1) (ready [.ok])) = [(22, brk, .ok)] := by decide

/-- L2.2: (2, some 1000). -/
theorem test_cmd_forward :
    trace (exec (.cmdForward 2 s1000) (ready [.ok])) =
      [(38, [0x17, 0x0C, 0, 0, 0, 0, 0, 0, 0xFF, 0, 0, 0], .ok)] := by decide

/-- P6: (1, some 100) under `MAX_BLOCK` 4, its second chunk failing in the step after. -/
theorem test_cmd_forward_split :
    trace (step ((after (exec (.cmdForward 1 s100) (ready [.ok, .err] (paramsWith 4 (by decide))))).getD State.reset)) =
      [(22, [0x9B, 0x0F, 0, 0], .ok), (26, [0, 0, 0, 0], .err)] := by decide

/-- L2.2: (1, some (-500)). -/
theorem test_cmd_reverse :
    trace (exec (.cmdReverse 1 s500) (ready [.ok])) =
      [(22, [0x0B, 0x0E, 0, 0, 0xFF, 0, 0, 0, 0, 0, 0, 0], .ok)] := by decide

/-- L2.2: (3, some (-7)); the motor then reads Driving(reverse, 7). -/
theorem test_cmd_reverse_reads :
    (after (exec (.cmdReverse 3 ⟨7, by decide, by decide⟩) (ready [.ok]))).map (fun s => (s.motor 3, s.motor 0)) = some (.state (.drivingReverse 7), .unknown) := by decide

/-- L2.3: (7, some 9999), both bad: the index is reported. -/
theorem test_reject_index :
    answer (exec (.rejectOutOfRange 7 (some 9999)) (ready [])) = some (.outOfRange (.motorIndex 7)) := by decide

/-- L2.3: (0, some (-4095)). -/
theorem test_reject_velocity :
    answer (exec (.rejectOutOfRange 0 (some (-4095))) (ready [])) = some (.outOfRange (.velocity (-4095))) := by decide

/-- L2.1. -/
theorem test_base_register :
    (after (exec (.baseRegister 3) (fresh []))).map (fun s => s.call.offset) = some (some 54) := by decide

/-- L2.1: outside the domain. -/
theorem test_base_register_domain :
    (after (exec (.baseRegister 4) (fresh []))).map (fun s => (s.mon.faults, s.call.offset)) = some ([.baseRegisterDomain], none) := by decide

/-- L2.8: Ok, byte k to start + k. -/
theorem test_write_block :
    (after (exec (.writeBlock 0x40 38 [0x17, 0x0C]) (ready [.ok]))).map (fun s => (s.mon.regs, s.mon.phase)) = some ([(38, 0x17), (39, 0x0C)], .ready) := by decide

/-- R139: before `initialize` several bytes land nowhere known. -/
theorem test_write_block_fresh :
    (after (exec (.writeBlock 0x40 38 [0x17, 0x0C]) { fresh [.ok] with mon := ⟨.fresh, [], [(38, 1), (40, 2)], [], false⟩ })).map
        (fun s => (s.mon.regs, s.call.answer)) = some ([(40, 2)], some .ok) := by decide

/-- L2.8: Err, the targets become unknown. -/
theorem test_write_block_error :
    (after (exec (.writeBlock 0x40 38 [0x17, 0x0C]) { ready [.err] with mon := ⟨.ready, [], [(38, 1), (40, 2)], [], true⟩ })).map (fun s => (s.mon.regs, s.mon.phase)) = some ([(40, 2)], .dead) := by decide

/-- L1.4, R48: a 0-token line releases motor 0 and leaves the releases of 1, 2, 3, each to a step of its own. -/
theorem test_release_all :
    trace (exec .releaseAll (ready (oks 4))) = [(6, rel, .ok)] ∧
      (after (exec .releaseAll (ready (oks 4)))).map (fun s => s.host.pending) = some [(1, none), (2, none), (3, none)] := by
  decide

/-- R48: the step of a request that is left issues it alone; motors not yet reached are as before. -/
theorem test_release_all_next :
    (after (step { ready (oks 4) with host := ⟨.reading, [], false, 1, [(1, none), (2, none)], [], none⟩ })).map
        (fun s => (s.motor 1, s.motor 2, s.host.pending)) = some (.state .floating, .unknown, [(2, none)]) := by decide

/-- L2.5: "3". -/
theorem test_release_one : trace (exec (.releaseOne (.num 3)) (ready [.ok])) = [(54, rel, .ok)] := by decide

/-- L2.5: "9". -/
theorem test_release_one_rejected :
    diags (exec (.releaseOne (.num 9)) (ready [.ok])) = [⟨.outOfRangeMotorIndex, .line 1, some 9⟩] := by decide

/-- L1.5 A: "2 1000". -/
theorem test_set_one :
    trace (exec (.setOne (.num 2) (.num 1000)) (ready [.ok])) =
      [(38, [0x17, 0x0C, 0, 0, 0, 0, 0, 0, 0xFF, 0, 0, 0], .ok)] := by decide

/-- P5 line 1: "2 fast" falls back to release. -/
theorem test_set_one_fallback :
    trace (exec (.setOne (.num 2) (.word [0x66, 0x61, 0x73, 0x74])) (ready [.ok])) = [(38, rel, .ok)] := by decide

/-- P3 line 1: "4094 -4094 4095 0", its first request. -/
theorem test_set_all :
    trace (exec (.setAll (.num 4094) (.num (-4094)) (.num 4095) (.num 0)) (ready (oks 3))) =
      [(6, [1, 0, 0, 0, 0, 0, 0, 0, 0xFF, 0, 0, 0], .ok)] := by decide

/-- P3: its third request is rejected with its diagnostic, and the fourth is still left. -/
theorem test_set_all_rejected :
    (after (step { ready (oks 3) with host := ⟨.reading, [], false, 1, [(2, some 4095), (3, some 0)], [], none⟩ })).map
        (fun s => (s.host.diags, s.host.pending, s.mon.trace)) =
      some ([⟨.outOfRangeVelocity, .line 1, some 4095⟩], [(3, some 0)], []) := by decide

/-- L2.5: "0 1 2". -/
theorem test_malformed :
    after (exec (.malformed [.num 0, .num 1, .num 2]) (ready [])) =
      some { ready [] with host := ⟨.reading, [], false, 1, [], [⟨.parseError, .line 1, none⟩], none⟩ } := by decide

/-- P7, best_effort: the release of motor 1 fails, is logged, and motors 2 and 3 are left. -/
theorem test_end_of_stream_best_effort :
    (after (step { ready [.err] with host := ⟨.stopping [1, 2, 3] .normal, [], true, 1, [], [], none⟩ })).map
        (fun s => (s.host.diags, s.host.stage)) = some ([⟨.busError, .eos, some 1⟩], .stopping [2, 3] .normal) := by decide

/-- P7, stop_at_first_error: the failed release of motor 0 ends the shutdown. -/
theorem test_end_of_stream_stops :
    (after (exec .endOfStream (ready [.err] { params with shutdownPolicy := .stopAtFirstError }))).map
        (fun s => (s.host.diags, s.host.stage)) = some ([⟨.busError, .eos, some 0⟩], .ended .normal) := by decide

/-! ## The step -/

/-- The first step from a placed word runs it, before anything else: a command while Fresh (R124). -/
theorem test_step_places_word :
    after (step ((fresh []).withFetchWord 96 0)) = some ((fresh []).faulted .notInitialized) := by decide

/-- P1: at startup the host initializes; the next step runs its first line, "2 1000". -/
theorem test_step_startup :
    (after (step (fresh [.ok]))).map (fun s => (s.host.stage, s.mon.phase, s.mon.trace.length)) = some (.reading, .ready, 1) := by decide

/-- P1 line 1, read from the stream. -/
theorem test_step_line :
    trace (step ((ready [.ok]).feed [0x32, 0x20, 0x31, 0x30, 0x30, 0x30, 0x0A] true)) =
      [(38, [0x17, 0x0C, 0, 0, 0, 0, 0, 0, 0xFF, 0, 0, 0], .ok)] := by decide

/-! ## The hypotheses of the statements can be met -/

theorem witness_EncodeDecodeAgree :
    (Instr.cmdForward 3 s4094).wf ∧ (Instr.rejectOutOfRange 4 (some 4095)).wf ∧ (Instr.writeBlock 0x40 255 [1]).wf ∧
      (Instr.setOne (.num (-1)) (.word [0x78])).wf ∧ (Instr.malformed [.num 1, .word [0x78], .num 3]).wf := by decide

theorem witness_FrameDecodesToItsCase : (frameOf params .brake).bytes = brk := by decide

theorem witness_DecodedImageIsItsFrame : decodeFrame params brk = .ok .brake ∧ decodeFrame params rel = .ok .release := by
  decide

/-- D1's blocks, and one image for each clause of R61's list. -/
theorem witness_ForeignImagesRefused :
    params.inputOn = ⟨0xFF, 0x00, 0x00, 0x00⟩ ∧ params.inputOff = ⟨0x00, 0x00, 0x00, 0x00⟩ ∧
      foreignImage [0, 0, 1, 0, 0, 0, 0, 0, 0, 0, 0, 0] ∧ foreignImage [0, 0x10, 0, 0, 0, 0, 0, 0, 0, 0, 0, 0] ∧
      foreignImage [0, 0, 0, 0, 0x7F, 0, 0, 0, 0, 0, 0, 0] ∧ foreignImage [5, 0, 0, 0, 0, 0, 0, 0, 0, 0, 0, 0] ∧
      foreignImage [0, 0, 0, 0, 0, 0, 0, 0, 0xFF, 0, 0, 0] ∧
      foreignImage [0xFF, 0x0F, 0, 0, 0, 0, 0, 0, 0xFF, 0, 0, 0] := by
  refine ⟨rfl, rfl, ?_, ?_, ?_, ?_, ?_, ?_⟩ <;> unfold foreignImage <;> decide

theorem witness_LineFormByTokenCount :
    lineTokens [0x20] = [] ∧ lineTokens [0x33] = [.num 3] ∧ lineTokens [0x33, 0x09, 0x30] = [.num 3, .num 0] ∧
      lineTokens [0x31, 0x20, 0x32, 0x20, 0x33, 0x20, 0x34] = [.num 1, .num 2, .num 3, .num 4] ∧
      (lineTokens [0x31, 0x20, 0x32, 0x20, 0x33]).length = 3 ∧
      (lineTokens [0x31, 0x20, 0x32, 0x20, 0x33, 0x20, 0x34, 0x20, 0x35]).length = 5 := by decide

theorem witness_NumericTokenGrammar :
    readToken [0x30, 0x30, 0x37] = .num 7 ∧ readToken [0x2B, 0x31, 0x32] = .num 12 ∧ readToken [0x2D, 0x30] = .num 0 ∧
      readToken [0x2D] = .word [0x2D] := by decide

theorem witness_WhitespaceSeparatesTokens :
    ([0x33] : List Byte) ≠ [] ∧ (∀ b ∈ ([0x33] : List Byte), b ∉ [(0x20 : Byte), 0x09, 0x0B, 0x0C, 0x0D]) ∧
      (0x0B : Byte) ∈ [(0x20 : Byte), 0x09, 0x0B, 0x0C, 0x0D] := by decide

theorem witness_BaseRegisterReturnsOffset : ((0 : Int) ≤ 0 ∧ (0 : Int) ≤ 3) ∧ ((0 : Int) ≤ 3 ∧ (3 : Int) ≤ 3) := by decide

theorem witness_BaseRegisterOutsideItsDomain : ((-1 : Int) < 0 ∨ 3 < (-1 : Int)) ∧ ((4 : Int) < 0 ∨ 3 < (4 : Int)) := by
  decide

/-- The last register of motor 0's bank, and the last channel. -/
theorem witness_BanksAreDisjoint :
    (0 : Motor) ≠ 1 ∧ 6 + 16 * (0 : Motor).val ≤ 17 ∧ 17 < 6 + 16 * (0 : Motor).val + 12 ∧ 4 * (3 : Motor).val + 3 < 16 := by
  decide

theorem witness_InitializeSucceeds :
    (fresh [.ok]).mon.phase = .fresh ∧ (fresh [.ok]).BusOk (fresh [.ok]).params.initWrites.length := ⟨rfl, ⟨⟨rfl, rfl⟩, rfl⟩⟩

theorem witness_InitializeConfiguresTheChip :
    (fresh [.ok]).mon.phase = .fresh ∧ (fresh [.ok]).BusOk (fresh [.ok]).params.initWrites.length ∧ inBank 6 ∧ inBank 65 :=
  ⟨rfl, ⟨⟨rfl, rfl⟩, rfl⟩, ⟨0, by decide⟩, ⟨3, by decide⟩⟩

theorem witness_InitializeFailureIsFatal :
    (fresh [.err]).mon.phase = .fresh ∧ (∃ w, (fresh [.err]).params.initWrites[0]? = some w) ∧ (fresh [.err]).BusErrAfter 0 := ⟨rfl, ⟨_, rfl⟩, ⟨⟨rfl, rfl⟩, rfl⟩⟩

theorem witness_InitializeOutOfOrderIsAFault :
    (ready []).mon.phase = .ready ∧ (inPhase .dead []).mon.phase = .dead := ⟨rfl, rfl⟩

theorem witness_CmdReleaseWritesItsFrame :
    (ready (oks 1)).mon.phase = .ready ∧ (ready (oks 1)).BusOk ((ready (oks 1)).commandSends 3 none) := ⟨rfl, ⟨⟨rfl, rfl⟩, rfl⟩⟩

/-- Under `MAX_BLOCK` 1 a frame takes twelve transactions. -/
theorem witness_CmdBrakeWritesItsFrame :
    (ready (oks 12) (paramsWith 1 (by decide))).mon.phase = .ready ∧
      (ready (oks 12) (paramsWith 1 (by decide))).BusOk ((ready (oks 12) (paramsWith 1 (by decide))).commandSends 3 (some 0)) := ⟨rfl, ⟨⟨rfl, rfl⟩, rfl⟩⟩

theorem witness_CmdForwardWritesItsFrame :
    (ready (oks 1)).mon.phase = .ready ∧ (ready (oks 1)).BusOk ((ready (oks 1)).commandSends 0 (some s4094.val)) := ⟨rfl, ⟨⟨rfl, rfl⟩, rfl⟩⟩

theorem witness_CmdReverseWritesItsFrame :
    (ready (oks 1)).mon.phase = .ready ∧ (ready (oks 1)).BusOk ((ready (oks 1)).commandSends 0 (some (-(s1.val : Int)))) := ⟨rfl, ⟨⟨rfl, rfl⟩, rfl⟩⟩

theorem witness_MotorReadsTheCommandedState :
    (ready (oks 12) (paramsWith 4 (by decide))).mon.phase = .ready ∧
      (ready (oks 12) (paramsWith 4 (by decide))).BusOk 12 ∧ 1 ≤ 2 ∧
      2 * (ready (oks 12) (paramsWith 4 (by decide))).params.maxBlock < 12 :=
  ⟨rfl, ⟨⟨rfl, rfl⟩, rfl⟩, by decide, by decide⟩

/-- P6: `MAX_BLOCK` 4, the second chunk failing; and the one transaction of an unsplit frame. -/
theorem witness_CommandBusErrorIsFatal :
    ((ready [.ok, .err] (paramsWith 4 (by decide))).mon.phase = .ready ∧
      (∃ b, (splitBlock (paramsWith 4 (by decide)) (bankStart 1) (frameOf (paramsWith 4 (by decide)) .brake).bytes)[1]? = some b) ∧
      (ready [.ok, .err] (paramsWith 4 (by decide))).BusErrAfter 1) ∧
    (ready [.err]).mon.phase = .ready ∧
      (∃ b, (splitBlock params (bankStart 1) (frameOf params .brake).bytes)[0]? = some b) ∧ (ready [.err]).BusErrAfter 0 :=
  ⟨⟨rfl, ⟨_, rfl⟩, ⟨⟨rfl, rfl⟩, rfl⟩⟩, rfl, ⟨_, rfl⟩, ⟨⟨rfl, rfl⟩, rfl⟩⟩

/-- The state in which a line has two requests left. -/
def midLine (answers : List BusOutcome) (p : Params := params) (signal : Option Nat := none) : State :=
  { ready answers p with host := ⟨.reading, [], false, 1, [(2, some 0), (3, some 0)], [], signal⟩ }

/-- Dead, and `initialize` never succeeded. -/
def neverReady (answers : List BusOutcome) : State :=
  { inPhase .dead answers with mon := ⟨.dead, [], [(6, 1), (18, 2)], [], false⟩ }

/-- The state in which the shutdown has some motors still to release. -/
def shuttingDown (todo : List Int) (e : EndKind) (s : State) : State := { s with host := { s.host with stage := .stopping todo e } }

/-- The second chunk of a frame under `MAX_BLOCK` 4: on a request of the block, the first of a line, one left of a line, the first
release of the shutdown. The last release of a shutdown on a block never initialized; the mode transaction, also at the host's startup; a
direct call. -/
theorem witness_UnreturnedWriteBlocksForEver :
    ((∃ b, ((ready [.ok, .never] (paramsWith 4 (by decide))).chunksOf 0 .release)[1]? = some b) ∧
      (ready [.ok, .never] (paramsWith 4 (by decide))).BusNeverAfter 1 ∧
      (ready [.ok, .never] (paramsWith 4 (by decide))).mon.phase = .ready ∧
      (ready [.ok, .never] (paramsWith 4 (by decide))).hostStopped = false ∧
      (ready [.ok, .never] (paramsWith 4 (by decide))).host.signalIn ≠ some 0 ∧
      Instr.releaseAll.expandsTo ((0, Case.release.velocity) :: [(1, none), (2, none), (3, none)])) ∧
    ((∃ b, ((midLine [.ok, .never] (paramsWith 4 (by decide))).chunksOf 2 .brake)[1]? = some b) ∧
      (midLine [.ok, .never] (paramsWith 4 (by decide))).BusNeverAfter 1 ∧
      (midLine [.ok, .never] (paramsWith 4 (by decide))).mon.phase = .ready ∧
      (midLine [.ok, .never] (paramsWith 4 (by decide))).hostStopped = false ∧
      (midLine [.ok, .never] (paramsWith 4 (by decide))).host.signalIn ≠ some 0 ∧
      (midLine [.ok, .never] (paramsWith 4 (by decide))).call.inbox = [] ∧
      (midLine [.ok, .never] (paramsWith 4 (by decide))).host.pending = (((2 : Motor).val : Int), Case.brake.velocity) :: [(3, some 0)]) ∧
    ((∃ b, ((shuttingDown [3] .signalled (neverReady [.never])).chunksOf 3 .release)[0]? = some b) ∧
      (shuttingDown [3] .signalled (neverReady [.never])).BusNeverAfter 0 ∧
      (shuttingDown [3] .signalled (neverReady [.never])).mon.phase ≠ .fresh ∧
      (shuttingDown [3] .signalled (neverReady [.never])).host.signalIn ≠ some 0 ∧
      (shuttingDown [3] .signalled (neverReady [.never])).call.inbox = [] ∧
      (shuttingDown [3] .signalled (neverReady [.never])).host.stage = .stopping (((3 : Motor).val : Int) :: []) .signalled) ∧
    ((fresh [.never]).mon.phase = .fresh ∧ (∃ w, (fresh [.never]).params.initWrites[0]? = some w) ∧
      (fresh [.never]).BusNeverAfter 0 ∧ (fresh [.never]).call.inbox = [] ∧ (fresh [.never]).host.stage = .startup ∧
      (fresh [.never]).host.pending = []) ∧
    ([1] : List Byte) ≠ [] ∧ (255 : RegAddr).toNat + ([1] : List Byte).length ≤ 256 ∧
      (ready [.never]).bus.outcomes.head? = some .never :=
  ⟨⟨⟨_, rfl⟩, ⟨⟨rfl, rfl⟩, rfl⟩, rfl, rfl, by decide, rfl⟩, ⟨⟨_, rfl⟩, ⟨⟨rfl, rfl⟩, rfl⟩, rfl, rfl, by decide, rfl, rfl⟩,
    ⟨⟨_, rfl⟩, ⟨⟨rfl, rfl⟩, rfl⟩, by decide, by decide, rfl, rfl⟩, ⟨rfl, ⟨_, rfl⟩, ⟨⟨rfl, rfl⟩, rfl⟩, rfl, rfl, rfl⟩,
    by decide, by decide, rfl⟩

theorem witness_RejectedRequestHasNoEffect :
    (ready []).mon.phase = .ready ∧ ((-1 : Int) < 0 ∨ 3 < (-1 : Int)) ∧ ((4 : Int) < 0 ∨ 3 < (4 : Int)) ∧
      (0 : Int) ≤ 3 ∧ (3 : Int) ≤ 3 ∧ 4095 ≤ (4095 : Int).natAbs ∧ 4095 ≤ (-4095 : Int).natAbs := by decide

/-- Before startup; and lines of one request and of four, some out of range, a host that reads and has a request left. -/
theorem witness_UninitializedCommandIsAFault :
    (fresh []).mon.phase = .fresh ∧ (fresh []).Running ∧
      (Instr.setOne (.num 9) (.word [0x78])).requests = some [(9, none)] ∧
      (Instr.setAll (.num 4095) (.num 0) (.num (-1)) (.num 7)).requests = some [(0, some 4095), (1, some 0), (2, some (-1)), (3, some 7)] ∧
      (inPhase .fresh []).mon.phase = .fresh ∧ ((inPhase .fresh []).setPending [(2, none)]).Running ∧ (inPhase .fresh []).call.inbox = [] :=
  ⟨rfl, ⟨rfl, rfl⟩, rfl, rfl, rfl, ⟨rfl, rfl⟩, rfl⟩

theorem witness_CommandAfterBusErrorIsAFault :
    (inPhase .dead []).mon.phase = .dead ∧ (inPhase .dead []).Running ∧ (inPhase .dead []).call.inbox = [] ∧
      (Instr.releaseOne (.num (-1))).requests = some [(-1, none)] ∧
      Instr.releaseAll.requests = some [(0, none), (1, none), (2, none), (3, none)] :=
  ⟨rfl, ⟨rfl, rfl⟩, rfl, rfl, rfl⟩

/-- R124, R48: a 0-token line on a Fresh block: its first request faults, and the three others are left. -/
theorem test_release_all_fresh :
    (after (exec .releaseAll (inPhase .fresh []))).map (fun s => (s.mon.faults, s.mon.trace.length, s.host.pending)) =
      some ([.notInitialized], 0, [(1, none), (2, none), (3, none)]) := by decide

theorem witness_DutyIsInverted :
    (forwardFrame params s4094).duty = ⟨0x01, 0, 0, 0⟩ ∧ (reverseFrame params s1).duty = ⟨0xFE, 0x0F, 0, 0⟩ ∧
      (brakeFrame params).duty = ⟨0, 0, 0, 0⟩ := by decide

/-- The same request after different histories, with the same answers to come. -/
theorem witness_CommandsIgnoreHistory :
    (ready [.ok]).mon.phase = .ready ∧
      ({ ready [.ok] with mon := ⟨.ready, [], [(6, 1)], [⟨0x40, 6, [1], .ok⟩], true⟩ } : State).mon.phase = .ready ∧
      (ready [.ok]).params = ({ ready [.ok] with mon := ⟨.ready, [], [(6, 1)], [⟨0x40, 6, [1], .ok⟩], true⟩ } : State).params ∧
      (ready [.ok]).bus = ({ ready [.ok] with mon := ⟨.ready, [], [(6, 1)], [⟨0x40, 6, [1], .ok⟩], true⟩ } : State).bus ∧ (ready [.ok]).BusFree := ⟨rfl, rfl, rfl, rfl, rfl, rfl⟩

theorem witness_ReissuedCommandChangesNoRegister : (ready (oks 24)).mon.phase = .ready ∧ (ready (oks 24)).BusOk 24 := ⟨rfl, ⟨⟨rfl, rfl⟩, rfl⟩⟩

/-- The last register alone, and the whole chip. -/
theorem witness_WriteBlockSucceeds :
    ((ready [.ok]).initialized = true ∧ (fresh [.ok]).initialized = false) ∧
      ([1] : List Byte) ≠ [] ∧ (255 : RegAddr).toNat + ([1] : List Byte).length ≤ 256 ∧
      (0 : RegAddr).toNat + (List.replicate 256 (0 : Byte)).length ≤ 256 ∧ (ready [.ok]).bus.outcomes.head? = some .ok :=
  ⟨⟨rfl, rfl⟩, by decide, by decide, by rw [List.length_replicate]; decide, rfl⟩

theorem witness_WriteBlockFails :
    ([1] : List Byte) ≠ [] ∧ (255 : RegAddr).toNat + ([1] : List Byte).length ≤ 256 ∧
      (ready [.err]).bus.outcomes.head? = some .err := by decide

theorem witness_WriteBlockStopsOutsideItsRanges :
    (0x41 : DevAddr) ≠ 0x40 ∧ ([1, 2] : List Byte) ≠ [] ∧ 256 < (255 : RegAddr).toNat + ([1, 2] : List Byte).length := by
  decide

/-- A host that runs, an initialized block, and answers for every transaction of a line. -/
theorem witness_host_line :
    (ready (oks 48)).Running ∧ (ready (oks 48)).mon.phase = .ready ∧ (ready (oks 48)).BusOk 48 ∧
      (ready (oks 48)).call.inbox = [] :=
  ⟨⟨rfl, rfl⟩, rfl, ⟨⟨rfl, rfl⟩, rfl⟩, rfl⟩

theorem witness_ReleaseAllReleasesInOrder :
    (ready (oks 48)).Running ∧ (ready (oks 48)).mon.phase = .ready ∧ (ready (oks 48)).BusOk 48 ∧
      (ready (oks 48)).call.inbox = [] := witness_host_line

theorem witness_ReleaseOneReleasesItsMotor :
    (ready (oks 1)).Running ∧ (ready (oks 1)).mon.phase = .ready ∧ (ready (oks 1)).BusOk ((ready (oks 1)).commandSends 3 none) ∧
      ((-1 : Int) < 0 ∨ 3 < (-1 : Int)) ∧ ((4 : Int) < 0 ∨ 3 < (4 : Int)) :=
  ⟨⟨rfl, rfl⟩, rfl, ⟨⟨rfl, rfl⟩, rfl⟩, by decide, by decide⟩

theorem witness_SetOneSetsItsMotor :
    (ready (oks 12)).Running ∧ (ready (oks 12)).mon.phase = .ready ∧ (ready (oks 12)).BusOk 12 ∧
      ((-1 : Int) < 0 ∨ 3 < (-1 : Int)) ∧ ((4 : Int) < 0 ∨ 3 < (4 : Int)) :=
  ⟨⟨rfl, rfl⟩, rfl, ⟨⟨rfl, rfl⟩, rfl⟩, by decide, by decide⟩

theorem witness_SetAllSetsInOrder :
    (ready (oks 48)).Running ∧ (ready (oks 48)).mon.phase = .ready ∧ (ready (oks 48)).BusOk 48 ∧
      (ready (oks 48)).call.inbox = [] := witness_host_line

theorem witness_SetAllFailsAsAWhole :
    (ready []).hostStopped = false ∧ ∃ w, Token.word w ∈ ([.num 1, .num 2, .num 3, .word [0x78]] : List Token) :=
  ⟨rfl, [0x78], by decide⟩

theorem witness_MalformedLineIsReported : (ready []).hostStopped = false := rfl

/-- R139: a shutdown after `initialize` failed sends the release, which lands nowhere known. -/
theorem test_end_of_stream_never_ready :
    (after (exec .endOfStream (neverReady [.ok]))).map (fun s => (s.mon.regs, s.mon.trace.length, s.motor 0)) =
      some ([(18, 2)], 1, .unknown) := by decide

/-- While Ready, while Dead, also where `initialize` never succeeded, and while Fresh. -/
theorem witness_EndOfStreamReleasesEveryMotor :
    ((ready (oks 48)).hostStopped = false ∧ (ready (oks 48)).host.signalIn = none ∧ (ready (oks 48)).mon.phase ≠ .fresh ∧
      (ready (oks 48)).BusOk 48 ∧ (ready (oks 48)).call.inbox = []) ∧
      (inPhase .dead (oks 48)).hostStopped = false ∧ (inPhase .dead (oks 48)).host.signalIn = none ∧
      (inPhase .dead (oks 48)).mon.phase ≠ .fresh ∧ (inPhase .dead (oks 48)).BusOk 48 ∧
      (inPhase .dead (oks 48)).call.inbox = [] ∧
      ((neverReady (oks 48)).hostStopped = false ∧ (neverReady (oks 48)).host.signalIn = none ∧
        (neverReady (oks 48)).mon.phase ≠ .fresh ∧ (neverReady (oks 48)).BusOk 48 ∧
        (neverReady (oks 48)).initialized = false) ∧
      (inPhase .fresh []).hostStopped = false ∧ (inPhase .fresh []).host.signalIn = none ∧
        (inPhase .fresh []).mon.phase = .fresh ∧ (inPhase .fresh []).call.inbox = [] :=
  ⟨⟨rfl, rfl, by decide, ⟨⟨rfl, rfl⟩, rfl⟩, rfl⟩, rfl, rfl, by decide, ⟨⟨rfl, rfl⟩, rfl⟩, rfl,
    ⟨rfl, rfl, by decide, ⟨⟨rfl, rfl⟩, rfl⟩, rfl⟩, rfl, rfl, rfl, rfl⟩

/-- Which releases fail, and on which chunk: P7's motor 1, with one chunk a frame; or motor 0 on its first of three, motor 1 on its second
and motor 3 on its last. -/
def failsAt (m : Motor) : Option Nat := if m = 1 then some 0 else none
def failsMidFrame (m : Motor) : Option Nat := if m = 0 then some 0 else if m = 1 then some 1 else if m = 3 then some 2 else none

/-- R93, R94: under `MAX_BLOCK` 4 these attempts take 1, 2, 3 and 3 transactions. -/
theorem test_attempts_split :
    ((ready [] (paramsWith 4 (by decide))).attempts [0, 1, 2, 3] failsMidFrame).map (fun t => (t.start.toNat, t.outcome)) =
      [(6, .err), (22, .ok), (26, .err), (38, .ok), (42, .ok), (46, .ok), (54, .ok), (58, .ok), (62, .err)] := by decide

/-- P7, from the end of the stream; and split frames, in the shutdown that follows a fatal `BusError`. -/
theorem witness_BestEffortShutdownTriesEveryMotor :
    ((ready [.ok, .err, .ok, .ok]).BusFree ∧ (ready [.ok, .err, .ok, .ok]).host.signalIn = none ∧
      (ready [.ok, .err, .ok, .ok]).call.inbox = [] ∧ (ready [.ok, .err, .ok, .ok]).mon.phase ≠ .fresh ∧
      (ready [.ok, .err, .ok, .ok]).params.shutdownPolicy = .bestEffort ∧
      (∀ m k, failsAt m = some k → k < (ready [.ok, .err, .ok, .ok]).commandSends m none) ∧
      (ready [.ok, .err, .ok, .ok]).bus.outcomes =
        ((ready [.ok, .err, .ok, .ok]).attempts [0, 1, 2, 3] failsAt).map Transaction.answer ++ [] ∧
      (ready [.ok, .err, .ok, .ok]).hostStopped = false ∧ (ready [.ok, .err, .ok, .ok]).mon.configured = true) ∧
    (∀ m k, failsMidFrame m = some k → k < (ready [] (paramsWith 4 (by decide))).commandSends m none) ∧
      (shuttingDown [0, 1, 2, 3] .fatalBusError (inPhase .dead [] (paramsWith 4 (by decide)))).host.stage =
        .stopping [0, 1, 2, 3] .fatalBusError ∧
      (inPhase .dead [.err, .ok, .err, .ok, .ok, .ok, .ok, .ok, .err, .never] (paramsWith 4 (by decide))).bus.outcomes =
        ((inPhase .dead [] (paramsWith 4 (by decide))).attempts [0, 1, 2, 3] failsMidFrame).map Transaction.answer ++ [.never] :=
  ⟨⟨⟨rfl, rfl⟩, rfl, rfl, by decide, rfl, by decide, rfl, rfl, rfl⟩, by decide, rfl, rfl⟩

/-- P7's state under `stop_at_first_error`. -/
def stopping (answers : List BusOutcome) (p : Params := params) : State := ready answers { p with shutdownPolicy := .stopAtFirstError }

/-- The release of motor 1 fails; under `MAX_BLOCK` 4, the last chunk of motor 3's, in a shutdown for a signal; and the very first. -/
theorem witness_StoppingShutdownStopsAtTheFirstError :
    ((stopping [.ok, .err]).host.signalIn = none ∧ (stopping [.ok, .err]).call.inbox = [] ∧
      (stopping [.ok, .err]).mon.phase ≠ .fresh ∧ (stopping [.ok, .err]).params.shutdownPolicy = .stopAtFirstError ∧
      0 < (stopping [.ok, .err]).commandSends 1 none ∧
      (stopping [.ok, .err]).BusErrAfter ((stopping [.ok, .err]).stepsFor (releases.take (1 : Motor).val) + 0) ∧
      (stopping [.ok, .err]).hostStopped = false ∧ (stopping [.ok, .err]).mon.configured = true) ∧
    (2 < (stopping (oks 11 ++ [.err]) (paramsWith 4 (by decide))).commandSends 3 none ∧
      (stopping (oks 11 ++ [.err]) (paramsWith 4 (by decide))).BusErrAfter
        ((stopping [] (paramsWith 4 (by decide))).stepsFor (releases.take (3 : Motor).val) + 2) ∧
      (shuttingDown [0, 1, 2, 3] .signalled (stopping (oks 11 ++ [.err]) (paramsWith 4 (by decide)))).host.stage =
        .stopping [0, 1, 2, 3] .signalled) ∧
    (stopping [.err]).BusErrAfter ((stopping []).stepsFor (releases.take (0 : Motor).val) + 0) :=
  ⟨⟨rfl, rfl, by decide, rfl, by decide, ⟨⟨rfl, rfl⟩, rfl⟩, rfl, rfl⟩, ⟨by decide, ⟨⟨rfl, rfl⟩, rfl⟩, rfl⟩, ⟨⟨rfl, rfl⟩, rfl⟩⟩

/-- With `SHUTDOWN_AFTER_BUSERROR`, the state after the fatal BusError of the request on motor 2 (`midLine`). -/
def afterFatal : State :=
  (after (step (midLine (.err :: oks 48) { params with shutdownAfterBusError := true }))).getD State.reset

/-- A line's own step and the step of a request that is left, under both values of `SHUTDOWN_AFTER_BUSERROR`. -/
theorem witness_BusErrorEndsTheProcess :
    (midLine (.err :: oks 48)).hostStopped = false ∧ (midLine (.err :: oks 48)).host.signalIn ≠ some 0 ∧
      (midLine (.err :: oks 48)).mon.phase = .ready ∧ (∃ b, ((midLine (.err :: oks 48)).chunksOf 2 .brake)[0]? = some b) ∧
      (midLine (.err :: oks 48)).BusErrAfter 0 ∧
      (Instr.setOne (.num (2 : Motor).val) (.num 0)).expandsTo [(2, Case.brake.velocity)] ∧
      Instr.releaseAll.expandsTo ((0, Case.release.velocity) :: [(1, none), (2, none), (3, none)]) ∧
      (midLine (.err :: oks 48)).call.inbox = [] ∧
      (∃ rest, (midLine (.err :: oks 48)).host.pending = (((2 : Motor).val : Int), Case.brake.velocity) :: rest) ∧
      (midLine (.err :: oks 48)).params.shutdownAfterBusError = false ∧
      (midLine (.err :: oks 48) { params with shutdownAfterBusError := true }).params.shutdownAfterBusError = true ∧
      (midLine (.err :: oks 48)).host.signalIn = none ∧ afterFatal.BusOk 48 ∧
      (midLine (.err :: oks 48)).mon.configured = true :=
  ⟨rfl, by decide, rfl, ⟨_, rfl⟩, ⟨⟨rfl, rfl⟩, rfl⟩, rfl, rfl, rfl, ⟨_, rfl⟩, rfl, rfl, rfl, ⟨⟨rfl, rfl⟩, rfl⟩, rfl⟩

/-- A signal that comes after `n` more requests. -/
def signalled (p : Params) (n : Nat) : State :=
  { ready (oks 60) p with host := ⟨.reading, [], false, 1, [], [], some n⟩ }

/-- While the host reads, and within a line, under both values of `SIGNAL_SHUTDOWN`. -/
theorem witness_SignalEndsLineProcessing :
    ((signalled params 0).hostStopped = false ∧ (signalled params 0).call.inbox = [] ∧
      (signalled params 0).host.stage = .reading ∧ (signalled params 0).host.signalIn = some 0 ∧
      (signalled params 0).params.signalShutdown = false) ∧
    (midLine (oks 48) { params with signalShutdown := true } (some 0)).hostStopped = false ∧
      (midLine (oks 48) { params with signalShutdown := true } (some 0)).call.inbox = [] ∧
      (midLine (oks 48) { params with signalShutdown := true } (some 0)).host.pending ≠ [] ∧
      (midLine (oks 48) { params with signalShutdown := true } (some 0)).host.signalIn = some 0 ∧
      (midLine (oks 48) { params with signalShutdown := true } (some 0)).params.signalShutdown = true ∧
      (midLine (oks 48) { params with signalShutdown := true } (some 0)).mon.phase ≠ .fresh ∧
      (midLine (oks 48) { params with signalShutdown := true } (some 0)).BusOk 48 :=
  ⟨⟨rfl, rfl, rfl, rfl, rfl⟩, rfl, rfl, by decide, rfl, rfl, by decide, ⟨⟨rfl, rfl⟩, rfl⟩⟩

/-- After the first request of a release-all line, and after the third of a set-all line. -/
theorem witness_SignalAbandonsTheRestOfALine :
    Instr.releaseAll.expandsTo [(0, none), (1, none), (2, none), (3, none)] ∧
      (Instr.setAll (.num 0) (.num 1) (.num 2) (.num 3)).expandsTo [(0, some 0), (1, some 1), (2, some 2), (3, some 3)] ∧
      (signalled params 1).host.signalIn = some 1 ∧ (signalled params 3).host.signalIn = some 3 ∧
      (signalled params 3).hostStopped = false ∧ (signalled params 3).call.inbox = [] ∧
      (signalled params 3).mon.phase = .ready ∧ (signalled params 3).BusOk 48 :=
  ⟨rfl, rfl, rfl, rfl, rfl, rfl, rfl, ⟨⟨rfl, rfl⟩, rfl⟩⟩

/-- Before the first release and after the third, under both values of `SIGNAL_SHUTDOWN`. -/
theorem witness_SignalEndsTheShutdown :
    ((signalled params 0).hostStopped = false ∧ (signalled params 0).host.signalIn = some 0 ∧
      (signalled params 0).call.inbox = [] ∧ (signalled params 0).mon.phase ≠ .fresh ∧ (signalled params 0).BusOk 48 ∧
      (signalled params 0).params.signalShutdown = false) ∧
    (signalled { params with signalShutdown := true } 3).hostStopped = false ∧
      (signalled { params with signalShutdown := true } 3).host.signalIn = some 3 ∧
      (signalled { params with signalShutdown := true } 3).call.inbox = [] ∧
      (signalled { params with signalShutdown := true } 3).mon.phase ≠ .fresh ∧
      (signalled { params with signalShutdown := true } 3).BusOk 48 ∧
      (signalled { params with signalShutdown := true } 3).params.signalShutdown = true :=
  ⟨⟨rfl, rfl, rfl, by decide, ⟨⟨rfl, rfl⟩, rfl⟩, rfl⟩, rfl, rfl, rfl, by decide, ⟨⟨rfl, rfl⟩, rfl⟩, rfl⟩

/-- Two mode transactions of which the second fails; and one that succeeds. -/
def twoModeWrites : Params :=
  { params with
    initWrites := [⟨0, [0xA1], by decide, by decide, by decide⟩, ⟨1, [0xA2], by decide, by decide, by decide⟩]
    initWritesNonempty := by decide }

theorem witness_StartupInitializesFirst :
    ((fresh [.ok]).BusFree ∧ (fresh [.ok]).call.inbox = [] ∧ (fresh [.ok]).host.stage = .startup ∧
      (fresh [.ok]).host.pending = [] ∧ (fresh [.ok]).mon.phase = .fresh ∧
      (fresh [.ok]).BusOk (fresh [.ok]).params.initWrites.length) ∧
    ((∃ w, (fresh [.ok, .err] twoModeWrites).params.initWrites[1]? = some w) ∧
      (fresh [.ok, .err] twoModeWrites).BusErrAfter 1) ∧
    (∃ w, (fresh [.err]).params.initWrites[0]? = some w) ∧ (fresh [.err]).BusErrAfter 0 :=
  ⟨⟨⟨rfl, rfl⟩, rfl, rfl, rfl, rfl, ⟨⟨rfl, rfl⟩, rfl⟩⟩, ⟨⟨_, rfl⟩, ⟨⟨rfl, rfl⟩, rfl⟩⟩, ⟨_, rfl⟩, ⟨⟨rfl, rfl⟩, rfl⟩⟩

/-- Motor 1 set to Forward 100 under `MAX_BLOCK` 4, with the bank holding the frame of Brake: the first chunk has been sent. -/
def betweenChunks (answers : List BusOutcome) : State :=
  (after (exec (.cmdForward 1 s100)
    { ready answers (paramsWith 4 (by decide)) with
      mon := ⟨.ready, [], Memory.writeBytes [] 22 brk, [], true⟩ })).getD State.reset

/-- R144: after the first chunk the new duty is paired with the old H-bridge levels, and the request has no result yet. -/
theorem test_between_chunks :
    bankBytes (betweenChunks [.ok, .ok]).mon.regs 22 12 = some [0x9B, 0x0F, 0, 0, 0xFF, 0, 0, 0, 0xFF, 0, 0, 0] ∧
      (betweenChunks [.ok, .ok]).call.answer = none := by decide

/-- Each clause: a request being sent, an item, an item that is no instruction, a request that is left, a line, and the end of the input with and without
text left. -/
theorem witness_StepRunsTheDecodedInstruction :
    (betweenChunks [.ok]).bus.blocked = false ∧
      (betweenChunks [.ok]).bus.transfer = some ⟨.frame 1 (.forward s100), 1, .caller⟩ ∧
      (ready []).bus.blocked = false ∧ (ready []).bus.transfer = none ∧ decode params (.baseCall 0) = .ok (.baseRegister 0) ∧
      ((ready []).placeItem (.baseCall 0)).call.inbox = [.baseCall 0] ∧
      decode params (.image 7 rel) = .error (.startRegister 7) ∧
      ((ready []).placeItem (.image 7 rel)).call.inbox = [.image 7 rel] ∧
      (midLine []).hostStopped = false ∧ (midLine []).host.pending = [(2, some 0), (3, some 0)] ∧
      (midLine []).host.signalIn ≠ some 0 ∧
      ((ready []).feed [0x33, 0x0A, 0x30] true).host.stage = .reading ∧
      ((ready []).feed [0x33, 0x0A, 0x30] true).host.pending = [] ∧
      ((ready []).feed [0x33, 0x0A, 0x30] true).host.signalIn ≠ some 0 ∧
      takeLine ((ready []).feed [0x33, 0x0A, 0x30] true).host.stream = some ([0x33], [0x30]) ∧
      takeLine ((ready []).feed [0x30] true).host.stream = none ∧ takeLine ((ready []).feed [] true).host.stream = none ∧
      ((ready []).feed [] true).host.inputEnded = true := by decide

theorem witness_WaitingMachineStays :
    (ready []).block.bus.blocked = true ∧ ((ready []).endHost .normal).host.stage = .ended .normal ∧
      ((ready []).endHost .normal).call.inbox = [] ∧
      ((ready []).endHost .normal).bus.transfer = none ∧ (ready []).bus.transfer = none ∧ (ready []).host.stage = .reading ∧ (ready []).call.inbox = [] ∧
      (ready []).host.pending = [] ∧ (ready []).host.signalIn ≠ some 0 ∧ (ready []).host.inputEnded = false ∧ takeLine (ready []).host.stream = none := by
  decide

/-- The step of the invariants: it runs a command, from a state that meets them all. -/
theorem witness_invariants :
    (fresh [.ok]).ImageIsReplay ∧ (fresh [.ok]).TraceInRange ∧ (fresh [.ok]).WritesOnlyItsRegisters ∧
      Memory.wf (fresh [.ok]).mon.regs = true ∧ ∃ t, step (fresh [.ok]) = .next t ∧ t.mon.trace ≠ [] := by
  refine ⟨rfl, ?_, ⟨?_, ?_⟩, rfl, _, rfl, by decide⟩
  · intro t ht
    cases ht
  · rintro ⟨it, h, _⟩
    cases h
  · intro a h
    exact absurd rfl h

/-- Without a direct call, and with one once the chip is configured. -/
theorem witness_StepKeepsImageAsReplay :
    ((fresh [.ok]).ImageIsReplay ∧ (fresh [.ok]).KnownIsReplay ∧ ¬ (fresh [.ok]).hasBlockCall ∧
      (fresh [.ok]).mon.phase ≠ .dead ∧ ¬ (fresh [.ok]).sendsFrame ∧ ∃ t, step (fresh [.ok]) = .next t) ∧
    ((ready [.ok]).placeItem (.blockCall 0x40 8 [1, 2])).hasBlockCall ∧
      ((ready [.ok]).placeItem (.blockCall 0x40 8 [1, 2])).initialized = true ∧
      ((ready [.ok]).placeItem (.blockCall 0x40 8 [1, 2])).ImageIsReplay := by
  refine ⟨⟨rfl, ?_, witness_invariants.2.2.1.1, by decide, ?_, _, rfl⟩, ⟨_, List.mem_singleton.mpr rfl, _, _, _, rfl⟩, rfl, rfl⟩
  · intro a b h
    cases h
  · rintro ⟨m, c, j, wt, h⟩
    cases h

theorem witness_StepKeepsRegistersCanonical :
    Memory.wf (fresh [.ok]).mon.regs = true ∧ ∃ t, step (fresh [.ok]) = .next t := ⟨rfl, _, rfl⟩

theorem witness_StepKeepsTraceInRange :
    (fresh [.ok]).TraceInRange ∧ ((betweenChunks [.ok, .ok]).TransferInRange ∧ ∃ t, step (betweenChunks [.ok, .ok]) = .next t) ∧
      ∃ t, step (fresh [.ok]) = .next t :=
  ⟨witness_invariants.2.1, ⟨fun x hx => by cases hx; exact ⟨by decide, by decide⟩, _, rfl⟩, _, rfl⟩

theorem witness_StepWritesOnlyItsRegisters : (fresh [.ok]).WritesOnlyItsRegisters ∧ ∃ t, step (fresh [.ok]) = .next t :=
  ⟨witness_invariants.2.2.1, _, rfl⟩

theorem witness_StepOnlyAddsToHistory :
    ∃ t, step ({ fresh [.ok] with mon := ⟨.fresh, [.baseRegisterDomain], [], [], false⟩ }) = .next t := ⟨_, rfl⟩

/-- A step of a Ready block, and one of a Dead block. -/
theorem witness_StepKeepsPhaseOrder :
    (∃ t, step ((ready [.err]).placeItem (.command 0 none)) = .next t) ∧
      ∃ t, step ((inPhase .dead []).placeItem (.command 0 none)) = .next t := ⟨⟨_, rfl⟩, _, rfl⟩

/-- Register 18 is in no bank, and no target of a command on motor 0. -/
theorem witness_BlockRequestFrame :
    (Instr.cmdBrake 0).isHostLine = false ∧ (∃ t, exec (.cmdBrake 0) (ready [.ok]) = .next t) ∧
      ¬ (Instr.cmdBrake 0).targets params 18 ∧ (∃ t, exec (.rejectOutOfRange 4 none) (ready []) = .next t) ∧
      ∃ t, exec (.baseRegister 2) (ready []) = .next t :=
  ⟨rfl, ⟨_, rfl⟩, by unfold Instr.targets; decide, ⟨_, rfl⟩, _, rfl⟩

/-- A line's own step, the step of a request that is left, a release of the shutdown, and the next transaction of a command. -/
theorem witness_HostLineFrame :
    (Instr.releaseAll.isHostLine = true ∧ (∃ t, exec .releaseAll (ready (oks 4)) = .next t) ∧
      ¬ Instr.releaseAll.targets params 18) ∧
    ((midLine [.ok]).bus.transfer = none ∧ (midLine [.ok]).call.inbox = [] ∧ (midLine [.ok]).hostStopped = false ∧
      (midLine [.ok]).host.pending = (2, some 0) :: [(3, some 0)] ∧ ∃ t, step (midLine [.ok]) = .next t) ∧
    (({ ready [.ok] with host := ⟨.stopping [3] .normal, [], true, 1, [], [], none⟩ } : State).host.stage =
        .stopping [3] .normal ∧
      ∃ t, step { ready [.ok] with host := ⟨.stopping [3] .normal, [], true, 1, [], [], none⟩ } = .next t) ∧
    (betweenChunks [.ok, .ok]).bus.transfer = some ⟨.frame 1 (.forward s100), 1, .caller⟩ ∧
      ¬ (Sending.frame 1 (.forward s100)).targets params 34 ∧ ∃ t, step (betweenChunks [.ok, .ok]) = .next t :=
  ⟨⟨rfl, ⟨_, rfl⟩, by unfold Instr.targets; decide⟩, ⟨rfl, rfl, rfl, rfl, _, rfl⟩, ⟨rfl, _, rfl⟩, rfl,
    by unfold Sending.targets; decide, _, rfl⟩

theorem witness_FaultsArePrecise :
    (Instr.cmdRelease 0).isHostLine = false ∧
      ∃ t, exec (.cmdRelease 0) (fresh []) = .next t ∧ t.mon.faults ≠ (fresh []).mon.faults :=
  ⟨rfl, _, rfl, by decide⟩

end Sys2Proof.Tests
end

/-! PROOFS. The state: what every step keeps of it, derived from its moves (R19, R26, R33); the state at process start (R28); and what
the motors read as after a command and between its chunks (R24, R93, R144). -/

namespace Sys2Proof.Machine

section Moves

variable {Q : Block → Bool → Prop} {s t : State}

/-! ### The canonical form of the register image (R33) -/

/-- Whatever transaction a step sends has a register for every byte (R33, R90). -/
theorem Sent.fits {call : Prop} {b : Block} {placed : Bool} (h : Sent call s b placed) :
    b.start.toNat + b.bytes.length ≤ registerCount := by
  rcases h with ⟨hi, -⟩ | ⟨-, ⟨-, hfit⟩, -⟩
  · exact hi.range.2.1
  · exact hfit

/-- A move whose transactions fit in the chip keeps the canonical form. -/
theorem Move.keeps_wf (hfit : ∀ b placed, Q b placed → b.start.toNat + b.bytes.length ≤ registerCount) (h : Move Q s t)
    (hs : s.mon.regs.wf = true) : t.mon.regs.wf = true := by
  cases h with
  | transaction b o hq => exact wf_applyTransaction _ (Block.record b o) (hfit b true hq) hs
  | unplaced b hq => exact Memory.wf_forgetRange _ _ _ hs
  | _ => exact hs

/-! ### The registers that become known (R26) -/

/-- A register of a block that `Q` allows a transaction to carry. -/
def Reaches (Q : Block → Bool → Prop) (a : Nat) : Prop :=
  ∃ b placed, Q b placed ∧ b.start.toNat ≤ a ∧ a < b.start.toNat + b.bytes.length

@[simp] theorem Block.record_start (b : Block) (o : TxOutcome) : (Block.record b o).start = b.start := rfl
@[simp] theorem Block.record_bytes (b : Block) (o : TxOutcome) : (Block.record b o).bytes = b.bytes := rfl

theorem Move.known (h : Move Q s t) (a : Nat) (ha : Memory.read t.mon.regs a ≠ none) :
    Memory.read s.mon.regs a ≠ none ∨ Reaches Q a := by
  cases h with
  | transaction b o hq =>
    by_cases hin : b.start.toNat ≤ a ∧ a < b.start.toNat + b.bytes.length
    · exact .inr ⟨b, true, hq, hin⟩
    · rw [State.recordTransaction_mon_regs, read_applyTransaction, Block.record_start, Block.record_bytes, if_neg hin] at ha
      exact .inl ha
  | unplaced b hq =>
    by_cases hin : b.start.toNat ≤ a ∧ a < b.start.toNat + b.bytes.length
    · exact .inr ⟨b, false, hq, hin⟩
    · rw [State.recordUnplaced_mon_regs, Memory.read_forgetRange, Block.record_start, Block.record_bytes, if_neg hin] at ha
      exact .inl ha
  | _ => exact .inl ha

/-- A register that is known after a chain of moves was known before, or is one of its transactions'. -/
theorem Moves.known (h : Moves Q s t) (a : Nat) (ha : Memory.read t.mon.regs a ≠ none) :
    Memory.read s.mon.regs a ≠ none ∨ Reaches Q a :=
  h.lift (R := fun s t => Memory.read t.mon.regs a ≠ none → Memory.read s.mon.regs a ≠ none ∨ Reaches Q a)
    (fun _ => .inl) (fun _ _ _ h1 h2 ht => (h2 ht).elim h1 .inr) (fun _ _ hm => hm.known a) ha

theorem Move.inbox_suffix (h : Move Q s t) : t.call.inbox <:+ s.call.inbox := by
  cases h with
  | call c hi => exact hi
  | _ => exact List.suffix_refl _

/-- Nothing but the environment puts a request into the inbox. -/
theorem Moves.inbox_suffix (h : Moves Q s t) : t.call.inbox <:+ s.call.inbox :=
  h.lift (R := fun s t => t.call.inbox <:+ s.call.inbox) (fun _ => List.suffix_refl _)
    (fun _ _ _ h1 h2 => h2.trans h1) fun _ _ => Move.inbox_suffix

/-- While no direct WRITE_BLOCK call waits, a step's transactions lie in the banks and the mode registers (R26, R41). -/
theorem Reaches.own_register {a : Nat} (hc : ¬ s.hasBlockCall) (h : Reaches (Sent s.hasBlockCall s) a) :
    inBank a ∨ inModeRegisters s.params a := by
  obtain ⟨b, placed, ⟨hi, -⟩ | ⟨hcall, -⟩, hlo, hhi⟩ := h
  · exact hi.range.2.2 a hlo hhi
  · exact absurd hcall hc

/-! ### The order of the phases (R19, R72, R139) -/

/-- The phase of `t` comes no earlier than that of `s`, and what `s` says of the chip's configuration still holds. -/
structure State.PhaseOrder (s t : State) : Prop where
  dead : s.mon.phase = .dead → t.mon.phase = .dead
  notFresh : s.mon.phase ≠ .fresh → t.mon.phase ≠ .fresh
  configured : s.mon.configured = true → t.mon.configured = true
  readyConfigured : (s.mon.phase = .ready → s.mon.configured = true) → t.mon.phase = .ready → t.mon.configured = true

theorem State.PhaseOrder.refl (s : State) : s.PhaseOrder s := ⟨id, id, id, id⟩

theorem State.PhaseOrder.trans {s t u : State} (h1 : s.PhaseOrder t) (h2 : t.PhaseOrder u) : s.PhaseOrder u where
  dead := h2.dead ∘ h1.dead
  notFresh := h2.notFresh ∘ h1.notFresh
  configured := h2.configured ∘ h1.configured
  readyConfigured := h2.readyConfigured ∘ h1.readyConfigured

theorem Move.phaseOrder (h : Move Q s t) : s.PhaseOrder t := by
  cases h with
  | dead => exact ⟨fun _ => rfl, fun _ => (nofun), id, fun _ => (nofun)⟩
  | configure hf => exact ⟨fun hd => (nomatch hf.symm.trans hd), fun hn => absurd hf hn, fun _ => rfl, fun _ _ => rfl⟩
  | _ => exact ⟨id, id, id, id⟩

theorem Moves.phaseOrder (h : Moves Q s t) : s.PhaseOrder t :=
  h.lift .refl (fun _ _ _ => .trans) fun _ _ => Move.phaseOrder

end Moves

/-! ### What every step keeps -/

/-- Settles O53: a step is a chain of moves, and the transactions among them fit in the chip. -/
theorem stepKeepsRegistersCanonical : Obligations.StepKeepsRegistersCanonical := by
  intro s t hs h
  exact (moves_step s t h).keeps (P := fun s => s.mon.regs.wf = true)
    (fun _ _ hm => hm.keeps_wf fun _ _ => Sent.fits) hs

/-- Settles O55: a register that a step makes known is one of a transaction of the block's own. -/
theorem stepWritesOnlyItsRegisters : Obligations.StepWritesOnlyItsRegisters := by
  rintro s t ⟨hcall, hregs⟩ h
  have hm := moves_step s t h
  refine ⟨fun ⟨it, hit, hb⟩ => hcall ⟨it, hm.inbox_suffix.subset hit, hb⟩, fun a ha => ?_⟩
  rw [hm.params_eq]
  exact (hm.known a ha).elim (hregs a) (Reaches.own_register hcall)

/-- Settles O57: only a `BusError` and a successful INITIALIZE change the phase, the latter from `Fresh` alone. -/
theorem stepKeepsPhaseOrder : Obligations.StepKeepsPhaseOrder := by
  intro s t h
  obtain ⟨dead, notFresh, configured, readyConfigured⟩ := (moves_step s t h).phaseOrder
  exact ⟨dead, notFresh, configured, readyConfigured⟩

/-! ### Process start (R28, R137) -/

/-- Settles O10: every part is the definition's own value. -/
theorem resetState : Obligations.ResetState :=
  ⟨rfl, rfl, rfl, Memory.read_nil, rfl, rfl, rfl, rfl, rfl, rfl, rfl, rfl, rfl, rfl, rfl, rfl⟩

/-- Settles O11: at process start nothing is known, recorded, handed over or being sent, so each invariant holds of nothing. -/
theorem invariantsHoldAtReset : Obligations.InvariantsHoldAtReset := by
  intro p
  refine ⟨rfl, ?trace, ⟨?calls, ?known⟩, rfl, ?replay, ?transfer, ?ready⟩
  case trace =>
    intro t ht
    cases ht
  case calls =>
    rintro ⟨it, hit, -⟩
    cases hit
  case known => exact fun a ha => absurd (Memory.read_nil a) ha
  case replay => exact fun a b hb => hb
  case transfer =>
    intro x hx
    cases hx
  case ready =>
    intro hp
    cases hp

/-! ### The first chunks of a transfer (R93, R144) -/

/-- The first `j` chunks are the chunks of the first `j * size` bytes. -/
theorem take_chunksFrom (size fuel : Nat) (hsize : 1 ≤ size) (j : Nat) (start : RegAddr) (bytes : List Byte) :
    (chunksFrom size fuel start bytes).take j = chunksFrom size fuel start (bytes.take (j * size)) := by
  induction fuel generalizing j start bytes with
  | zero => simp [chunksFrom]
  | succ fuel ih =>
    cases j with
    | zero => simp [chunksFrom]
    | succ j =>
      by_cases hempty : bytes = []
      · simp [chunksFrom, hempty]
      · have htake : (bytes.take ((j + 1) * size)).take size = bytes.take size := by
          rw [List.take_take, Nat.min_eq_left (Nat.le_mul_of_pos_left size j.succ_pos)]
        have hdrop : (bytes.take ((j + 1) * size)).drop size = (bytes.drop size).take (j * size) := by
          rw [List.drop_take, Nat.succ_mul, Nat.add_sub_cancel]
        have hpos : (j + 1) * size ≠ 0 := Nat.mul_ne_zero j.succ_ne_zero (by omega)
        have hempty' : bytes.take ((j + 1) * size) ≠ [] := fun h => (List.take_eq_nil_iff.mp h).elim hpos hempty
        rw [chunksFrom, chunksFrom, if_neg (by simpa using hempty), if_neg (by simpa using hempty'), List.take_succ_cons, ih,
          htake, hdrop]

/-- There is a chunk for every multiple of the size inside the transfer. -/
theorem lt_length_chunksFrom (size fuel : Nat) (hsize : 1 ≤ size) (j : Nat) (start : RegAddr) (bytes : List Byte)
    (hfuel : bytes.length ≤ fuel) (hj : j * size < bytes.length) : j < (chunksFrom size fuel start bytes).length := by
  induction fuel generalizing j start bytes with
  | zero => omega
  | succ fuel ih =>
    have hne : ¬ bytes.isEmpty = true := by
      rw [List.isEmpty_iff_length_eq_zero]
      omega
    rw [chunksFrom, if_neg hne, List.length_cons]
    cases j with
    | zero => exact Nat.succ_pos _
    | succ j =>
      rw [Nat.succ_mul] at hj
      refine Nat.succ_lt_succ (ih j _ _ ?_ ?_)
      · rw [List.length_drop]
        omega
      · rw [List.length_drop]
        omega

/-- After the first `j` chunks the bytes in them have landed (R36, R93). -/
theorem writeBlocks_take_splitBlock (p : Params) (start : RegAddr) (bytes : List Byte) (hfit : start.toNat + bytes.length ≤ 256)
    (j : Nat) (m : Memory) :
    writeBlocks m ((splitBlock p start bytes).take j) =
      Memory.writeBytes m start.toNat (bytes.take (j * p.maxBlock)) := by
  have hle : (bytes.take (j * p.maxBlock)).length ≤ bytes.length := List.length_take_le' _ _
  rw [splitBlock, take_chunksFrom _ _ p.maxBlockPos,
    writeBlocks_chunksFrom _ _ p.maxBlockPos start _ (by omega) hle]

/-- A frame has a chunk for every multiple of `MAX_BLOCK` below 12 (R93). -/
theorem lt_commandSends (s : State) (m : Motor) (vel : Option Int) (j : Nat) (hj : j * s.params.maxBlock < 12) :
    j < s.commandSends m vel := by
  rw [← commandBytes_length s.params vel] at hj
  exact lt_length_chunksFrom _ _ s.params.maxBlockPos j _ _ (Nat.le_refl _) hj

/-- What a register reads as between two chunks of a frame, where R36 may be relied on: new bytes in the chunks already sent, old
bytes in the rest (R144). -/
theorem read_partWay_frame (s : State) (m : Motor) (c : Case) (wt : Waiting) (j a : Nat) (hi : s.initialized = true)
    (hj : j * s.params.maxBlock ≤ 12) :
    Memory.read (s.partWay (.frame m c) wt j).mon.regs a =
      if 6 + 16 * m.val ≤ a ∧ a < 6 + 16 * m.val + j * s.params.maxBlock then
        (frameOf s.params c).bytes[a - (6 + 16 * m.val)]?
      else Memory.read s.mon.regs a := by
  have hregs : (s.partWay (.frame m c) wt j).mon.regs =
      landBlocks s.initialized s.mon.regs
        ((splitBlock s.params (bankStart m) (frameOf s.params c).bytes).take j) := rfl
  have hlen : ((frameOf s.params c).bytes.take (j * s.params.maxBlock)).length = j * s.params.maxBlock := by
    rw [List.length_take, Frame.length_bytes, Nat.min_eq_left hj]
  rw [hregs, hi, landBlocks_true, writeBlocks_take_splitBlock _ _ _ (bank_fits m _), Memory.read_writeBytes, hlen, bankStart_toNat]
  split
  · rw [List.getElem?_take, if_pos (by omega)]
  · rfl

/-! ### The frame in a bank reads as its case (R24, R60) -/

theorem levelOf_inputBlock (p : Params) (l : Level) : levelOf p (inputBlock p l) = some l := by
  cases l with
  | on => simp [levelOf, inputBlock, p.inputsDiffer]
  | off => simp [levelOf, inputBlock]

theorem dutyBlock_low (d : BitVec 12) : (dutyBlock d).b0.toNat = d.toNat % 256 := by
  simp [dutyBlock]

theorem dutyBlock_high (d : BitVec 12) : (dutyBlock d).b1.toNat = d.toNat / 256 := by
  have hd := d.isLt
  simp [dutyBlock, Nat.shiftRight_eq_div_pow]
  omega

/-- An image of a duty and two levels decodes to the case of these (R52, R53, R60). -/
theorem decodeFrame_bytes (p : Params) (d : BitVec 12) (l1 l2 : Level) :
    decodeFrame p (Frame.bytes ⟨dutyBlock d, inputBlock p l1, inputBlock p l2⟩) = caseOfImage d.toNat l1 l2 := by
  have hd := d.isLt
  have hhigh : ¬ 16 ≤ (dutyBlock d).b1.toNat := by
    rw [dutyBlock_high]
    omega
  have hpads : (dutyBlock d).b2 = padByte ∧ (dutyBlock d).b3 = padByte := ⟨rfl, rfl⟩
  have hduty : (dutyBlock d).b0.toNat + 256 * (dutyBlock d).b1.toNat = d.toNat := by
    rw [dutyBlock_low, dutyBlock_high, Nat.mod_add_div]
  have hlevel (l : Level) : levelOf p ⟨(inputBlock p l).b0, (inputBlock p l).b1, (inputBlock p l).b2, (inputBlock p l).b3⟩ =
      some l := levelOf_inputBlock p l
  simp [decodeFrame, Frame.bytes, SubBlock.bytes, hpads, hhigh, hduty, hlevel]

theorem dutyOfSpeed_toNat (v : Speed) : (dutyOfSpeed v).toNat = 4095 - v.val := by
  rw [dutyOfSpeed, dutyFull, BitVec.toNat_ofNat]
  omega

theorem decodeFrame_frameOf (p : Params) (c : Case) : decodeFrame p (frameOf p c).bytes = .ok c := by
  cases c with
  | release => exact decodeFrame_bytes p 0 .off .off
  | brake => exact decodeFrame_bytes p 0 .on .on
  | forward v =>
    have hpos := v.pos
    have hlt := v.lt
    rw [frameOf, forwardFrame, decodeFrame_bytes, dutyOfSpeed_toNat, caseOfImage, dif_pos (by omega)]
    congr
    omega
  | reverse v =>
    have hpos := v.pos
    have hlt := v.lt
    rw [frameOf, reverseFrame, decodeFrame_bytes, dutyOfSpeed_toNat, caseOfImage, dif_pos (by omega)]
    congr
    omega

/-- Registers that read as the bytes of a list hold the list. -/
theorem bankBytes_eq_some (m : Memory) (a : Nat) (bytes : List Byte)
    (h : ∀ k, k < bytes.length → Memory.read m (a + k) = bytes[k]?) : bankBytes m a bytes.length = some bytes := by
  induction bytes generalizing a with
  | nil => rfl
  | cons b rest ih =>
    have hhead : Memory.read m a = some b := h 0 (Nat.succ_pos _)
    have htail : bankBytes m (a + 1) rest.length = some rest := ih (a + 1) fun k hk => by
      rw [Nat.add_assoc, Nat.add_comm 1 k, h (k + 1) (Nat.succ_lt_succ hk), List.getElem?_cons_succ]
    simp only [List.length_cons, bankBytes, hhead, htail]

/-- What a bank holds depends on its own registers alone. -/
theorem bankBytes_congr {m m' : Memory} {n a : Nat} (h : ∀ k, k < n → Memory.read m (a + k) = Memory.read m' (a + k)) :
    bankBytes m a n = bankBytes m' a n := by
  induction n generalizing a with
  | zero => rfl
  | succ n ih =>
    have hhead : Memory.read m a = Memory.read m' a := h 0 (Nat.succ_pos _)
    have htail : bankBytes m (a + 1) n = bankBytes m' (a + 1) n := ih fun k hk => by
      rw [Nat.add_assoc, Nat.add_comm 1 k]
      exact h (k + 1) (Nat.succ_lt_succ hk)
    simp only [bankBytes, hhead, htail]

/-- A motor whose bank holds a case's frame reads as the case's logical state (R24). -/
theorem motor_of_frame (s : State) (m : Motor) (c : Case)
    (h : ∀ k, k < 12 → Memory.read s.mon.regs (6 + 16 * m.val + k) = (frameOf s.params c).bytes[k]?) :
    s.motor m = .state c.logical := by
  have hbank : bankBytes s.mon.regs (bankStart m).toNat bankLen = some (frameOf s.params c).bytes := by
    rw [bankStart_toNat]
    exact bankBytes_eq_some s.mon.regs (6 + 16 * m.val) (frameOf s.params c).bytes h
  simp only [State.motor, hbank, decodeFrame_frameOf]

/-- A motor whose bank has not changed reads as before. -/
theorem motor_congr {s t : State} (m : Motor) (hp : t.params = s.params)
    (h : ∀ k, k < 12 → Memory.read t.mon.regs (6 + 16 * m.val + k) = Memory.read s.mon.regs (6 + 16 * m.val + k)) :
    t.motor m = s.motor m := by
  have hbank : bankBytes t.mon.regs (bankStart m).toNat bankLen = bankBytes s.mon.regs (bankStart m).toNat bankLen := by
    rw [bankStart_toNat]
    exact bankBytes_congr h
  rw [State.motor, State.motor, hbank, hp]

/-- The commanded motor reads as its case (R24, R30, R80 to R83). -/
theorem motor_commanded_same (s : State) (m : Motor) (c : Case) (hi : s.initialized = true) :
    (s.commanded m c.velocity).motor m = .state c.logical := by
  refine motor_of_frame _ m c fun k hk => ?_
  rw [read_commanded s m _ _ hi, if_pos (by omega), Nat.add_sub_cancel_left, ← commandBytes_case]
  rfl

/-- Banks do not overlap, so a command leaves every other motor as it was (R67). -/
theorem motor_commanded_other (s : State) {m j : Motor} (vel : Option Int) (hj : j ≠ m) :
    (s.commanded m vel).motor j = s.motor j := by
  have hne : j.val ≠ m.val := fun h => hj (Fin.ext h)
  exact motor_congr j rfl fun k hk => read_commanded_off s m vel _ (by omega)

/-- Settles O23: the command is its frame's chunks, one in each step, and what they leave in the banks is what the motors read. -/
theorem motorReadsTheCommandedState : Obligations.MotorReadsTheCommandedState := by
  intro m c s hready hok
  have hi := initialized_of_ready hready
  have hcaller := settle_caller_command false m c s (.inl hready) hok.1.2
  refine ⟨command false m.val c.velocity s, by rw [← decodeCommand_case, exec_decodeCommand], fun j h1 hj => ?_, ?_⟩
  · have hsends := lt_commandSends s m c.velocity j hj
    have hok' := hok.mono (Nat.le_trans (Nat.le_of_lt hsends) (commandSends_le s m c.velocity))
    have hrun := command_part false .caller m c s j (.inl hready) hok' h1 hsends
    rw [hcaller] at hrun
    exact ⟨_, hrun, fun a => read_partWay_frame s m c .caller j a hi (Nat.le_of_lt hj)⟩
  · have hrun := command_ok false .caller m c s (.inl hready) (hok.mono (commandSends_le s m c.velocity))
    rw [hcaller] at hrun
    exact ⟨_, hrun, motor_commanded_same s m c hi, fun j hj => motor_commanded_other s _ hj⟩

end Sys2Proof.Machine

/-! PROOFS. The memory: the register image is the replay of the trace, in every step (R45, R99); a command issued again changes no
register (R44). -/

namespace Sys2Proof.Machine

/-! ### The register image and the replay of the trace (R45) -/

section Replay

variable {Q : Block → Bool → Prop} {s t : State}

/-- A move keeps the known registers as the replay of the trace: where a transaction's bytes are not known to have landed (R139), its
registers become unknown, and nothing is claimed of them. -/
theorem Move.keeps_knownIsReplay (h : Move Q s t) (hs : s.KnownIsReplay) : t.KnownIsReplay := by
  cases h with
  | transaction b o hq =>
    intro a x hx
    rw [State.recordTransaction_mon_regs, read_applyTransaction] at hx
    rw [State.recordTransaction_mon_trace, replay_snoc, read_applyTransaction]
    split
    · next hin => rwa [if_pos hin] at hx
    · next hout =>
      rw [if_neg hout] at hx
      exact hs a x hx
  | unplaced b hq =>
    intro a x hx
    rw [State.recordUnplaced_mon_regs, Memory.read_forgetRange] at hx
    rw [State.recordUnplaced_mon_trace, replay_snoc, read_applyTransaction]
    split
    · next hin =>
      rw [if_pos hin] at hx
      cases hx
    · next hout =>
      rw [if_neg hout] at hx
      exact hs a x hx
  | _ => exact hs

/-- A move all of whose transactions place their bytes keeps the whole register image as the replay of the trace (R36, R45). -/
theorem Move.keeps_imageIsReplay (hplaced : ∀ b, ¬ Q b false) (h : Move Q s t) (hs : s.ImageIsReplay) : t.ImageIsReplay := by
  cases h with
  | transaction b o hq =>
    rw [State.ImageIsReplay, State.recordTransaction_mon_regs, State.recordTransaction_mon_trace, replay_snoc, hs]
  | unplaced b hq => exact absurd hq (hplaced b)
  | _ => exact hs

/-- A step's transaction leaves its bytes unplaced only where `initialize` has not succeeded, and then only a frame's, of a block that
is Dead or is sending it, or a direct call's (R139). -/
theorem Sent.unplaced {b : Block} (h : Sent s.hasBlockCall s b false) :
    s.initialized = false ∧ (s.hasBlockCall ∨ s.mon.phase = .dead ∨ s.sendsFrame) := by
  rcases h with ⟨-, hown⟩ | ⟨hcall, -, hinit⟩
  · obtain ⟨hinit, hframe⟩ := hown rfl
    exact ⟨hinit, .inr hframe⟩
  · exact ⟨hinit rfl, .inl hcall⟩

end Replay

/-- Settles O52: a step is a chain of moves, each of which keeps the known registers so; the whole image as long as none of them leaves
its bytes unplaced, which needs a block that is not initialized, and one of the three cases excluded. -/
theorem stepKeepsImageAsReplay : Obligations.StepKeepsImageAsReplay := by
  intro s t h
  have hm := moves_step s t h
  refine ⟨hm.keeps fun _ _ => Move.keeps_knownIsReplay, fun hreliable => hm.keeps fun _ _ => Move.keeps_imageIsReplay ?_⟩
  intro b hb
  obtain ⟨hinit, hcause⟩ := hb.unplaced
  rcases hreliable with hi | ⟨hcall, hdead, hframe⟩
  · rw [hinit] at hi
    cases hi
  · rcases hcause with hc | hc | hc
    · exact hcall hc
    · exact hdead hc
    · exact hframe hc

/-! ### The same command again (R44) -/

/-- A command row whose transactions all answer Ok, run to its last transaction (R30, R78). -/
theorem exec_caseInstr_commanded (m : Motor) (c : Case) (s : State) (hready : s.mon.phase = .ready) (hok : s.BusOk 12) :
    ∃ t, exec (caseInstr m c) s = .next t ∧
      Sys2Proof.core.run (s.commandSends m c.velocity - 1) t = .next (s.commanded m c.velocity) := by
  have hrun := command_ok false .caller m c s (.inl hready) (hok.mono (commandSends_le s m c.velocity))
  rw [settle_caller_command false m c s (.inl hready) hok.1.2] at hrun
  exact ⟨command false m.val c.velocity s, by rw [← decodeCommand_case, exec_decodeCommand], hrun⟩

/-- The frame's bytes are in its bank already, so writing them again changes no register (R44). -/
theorem read_commanded_twice (s : State) (m : Motor) (vel : Option Int) (a : Nat) (hi : s.initialized = true) :
    Memory.read ((s.commanded m vel).commanded m vel).mon.regs a = Memory.read (s.commanded m vel).mon.regs a := by
  rw [read_commanded (s.commanded m vel) m vel a hi, read_commanded s m vel a hi]
  split
  · rfl
  · rfl

/-- The records of a command whose transactions all answer Ok (R20, R93). -/
def State.commandRecords (m : Motor) (vel : Option Int) (s : State) : List Transaction :=
  (splitBlock s.params (BitVec.ofNat 8 (6 + 16 * m.val)) (commandBytes s.params vel)).map (Block.record · .ok)

@[simp] theorem State.commanded_mon_trace (m : Motor) (vel : Option Int) (s : State) :
    (s.commanded m vel).mon.trace = s.mon.trace ++ s.commandRecords m vel := rfl

theorem commandRecords_ne_nil (s : State) (m : Motor) (vel : Option Int) : s.commandRecords m vel ≠ [] := by
  have hlen : (s.commandRecords m vel).length = s.commandSends m vel := List.length_map _
  rw [← List.length_pos_iff, hlen]
  exact commandSends_pos s m vel

/-- Settles O32: both commands send the same chunks, for these do not depend on the register image, and the second finds its own bytes
in the bank. -/
theorem reissuedCommandChangesNoRegister : Obligations.ReissuedCommandChangesNoRegister := by
  intro m c s hready hok
  obtain ⟨t, ht, hrun⟩ := exec_caseInstr_commanded m c s hready (hok.mono (by decide))
  obtain ⟨u, hu, hrun'⟩ := exec_caseInstr_commanded m c (s.commanded m c.velocity) hready
    (hok.commanded m c.velocity s 24 12 (by decide))
  exact ⟨t, _, u, _, s.commandRecords m c.velocity, ht, hrun, hu, hrun',
    fun a => read_commanded_twice s m c.velocity a (initialized_of_ready hready),
    State.commanded_mon_trace m c.velocity s, State.commanded_mon_trace m c.velocity (s.commanded m c.velocity),
    commandRecords_ne_nil s m c.velocity⟩

end Sys2Proof.Machine

/-! PROOFS. The encodings of 30_encoding.md: requests, calls and lines read back as the instructions they encode (R49, R103, R105); bank
images and commands are in bijection (R60), so that an image no command writes is refused (R61). -/

namespace Sys2Proof.Machine

/-! ### Decoding what was encoded (R49, R58, R103) -/

/-- Operands out of their range are read as the rejected request (R79). -/
theorem decodeCommand_rejected (i : Int) (vel : Option Int) (h : outOfRangeOperands i vel = true) :
    decodeCommand i vel = .rejectOutOfRange i vel := by
  unfold decodeCommand
  cases hv : validate i vel with
  | ok mc => simp [outOfRangeOperands, hv] at h
  | error e => rfl

theorem decodeBlockCall_accepted (dev : DevAddr) (start : RegAddr) (bytes : List Byte)
    (h : blockOperands dev start bytes = true) : decodeBlockCall dev start bytes = .ok (.writeBlock dev start bytes) := by
  simp only [blockOperands, Bool.and_eq_true, decide_eq_true_eq, Bool.not_eq_true'] at h
  obtain ⟨⟨hdev, hne⟩, hfits⟩ := h
  rw [decodeBlockCall, if_neg (not_not_intro hdev), if_neg (by simp [hne]), if_neg (Nat.not_lt.2 hfits)]

/-- A line of 3 tokens, or of 5 or more, has none of the four forms (R110). -/
theorem decodeLine_malformed (text : List Byte) (hlen : (lineTokens text).length = 3 ∨ 5 ≤ (lineTokens text).length) :
    decodeLine text = .malformed (lineTokens text) := by
  unfold decodeLine
  split
  case h_5 => rfl
  all_goals
    next htokens => simp [htokens] at hlen

/-- Settles O2: a command's operands are those of its case, a call's pass its checks, and a line's tokens read back as they were
written. -/
theorem encodeDecodeAgree : Obligations.EncodeDecodeAgree := by
  intro p i hwf
  cases i with
  | initializeChip => rfl
  | cmdRelease m => exact congrArg Except.ok (decodeCommand_case m .release)
  | cmdBrake m => exact congrArg Except.ok (decodeCommand_case m .brake)
  | cmdForward m v => exact congrArg Except.ok (decodeCommand_case m (.forward v))
  | cmdReverse m v => exact congrArg Except.ok (decodeCommand_case m (.reverse v))
  | rejectOutOfRange i vel => exact congrArg Except.ok (decodeCommand_rejected i vel hwf)
  | baseRegister i => rfl
  | writeBlock dev start bytes => exact decodeBlockCall_accepted dev start bytes hwf
  | releaseAll => rfl
  | releaseOne t0 =>
    have htokens := lineTokens_lineText [t0] (by simpa [Instr.wf] using hwf)
    simp only [encode, decode, decodeLine, htokens]
  | setOne t0 t1 =>
    have htokens := lineTokens_lineText [t0, t1] (by simpa [Instr.wf] using hwf)
    simp only [encode, decode, decodeLine, htokens]
  | setAll t0 t1 t2 t3 =>
    have htokens := lineTokens_lineText [t0, t1, t2, t3] (by simpa [Instr.wf, and_assoc] using hwf)
    simp only [encode, decode, decodeLine, htokens]
  | malformed ts =>
    simp only [Instr.wf, Bool.and_eq_true, Bool.or_eq_true, beq_iff_eq, decide_eq_true_eq, List.all_eq_true] at hwf
    obtain ⟨hlen, htokens⟩ := hwf
    have hline := decodeLine_malformed (lineText ts)
    rw [lineTokens_lineText ts htokens] at hline
    exact congrArg Except.ok (hline hlen)
  | endOfStream => rfl

/-- Settles O6: each of the four velocities is that of its case, whose logical state is by definition the one named. -/
theorem velocitySelectsCase : Obligations.VelocitySelectsCase := by
  intro m
  exact ⟨⟨decodeCommand_case m .release, rfl⟩, ⟨decodeCommand_case m .brake, rfl⟩, fun v =>
    ⟨⟨decodeCommand_case m (.forward v), rfl⟩, ⟨decodeCommand_case m (.reverse v), rfl⟩⟩⟩

/-! ### Bank images and their cases (R60) -/

/-- Each motor's bank starts at a register of its own (R66). -/
theorem motorOfBank_bankStart (m : Motor) : motorOfBank (bankStart m) = some m := by
  revert m
  decide

/-- Settles O3: the start register names the motor, and a frame decodes to its case, so it belongs to one case only. -/
theorem frameDecodesToItsCase : Obligations.FrameDecodesToItsCase := by
  intro p m c
  refine ⟨?_, fun c' heq => ?_⟩
  · simp only [encodeImage, decode, decodeImage, motorOfBank_bankStart, decodeFrame_frameOf]
  · have hcase : Except.ok c = (Except.ok c' : Except DecodeError Case) := by
      rw [← decodeFrame_frameOf p c, heq, decodeFrame_frameOf]
    exact Except.ok.inj hcase

/-- Only its own input block stands for a level (R53). -/
theorem eq_inputBlock_of_levelOf {p : Params} {b : SubBlock} {l : Level} (h : levelOf p b = some l) : b = inputBlock p l := by
  unfold levelOf at h
  split at h
  · next hoff => cases h; exact hoff
  · split at h
    · next hon => cases h; exact hon
    · cases h

/-- A duty pair without padding and with a zero high nibble is that of a duty (R52). -/
theorem exists_dutyBlock (d0 d1 : Byte) (h : d1.toNat < 16) :
    ∃ d : BitVec 12, d.toNat = d0.toNat + 256 * d1.toNat ∧ dutyBlock d = ⟨d0, d1, padByte, padByte⟩ := by
  obtain ⟨d, hd⟩ : ∃ d : BitVec 12, d.toNat = d0.toNat + 256 * d1.toNat :=
    ⟨BitVec.ofNat 12 (d0.toNat + 256 * d1.toNat), by rw [BitVec.toNat_ofNat]; omega⟩
  have hlow : (dutyBlock d).b0 = d0 := BitVec.eq_of_toNat_eq (by rw [dutyBlock_low, hd]; omega)
  have hhigh : (dutyBlock d).b1 = d1 := BitVec.eq_of_toNat_eq (by rw [dutyBlock_high, hd]; omega)
  exact ⟨d, hd, congrArg₂ (SubBlock.mk · · padByte padByte) hlow hhigh⟩

/-- The duty of the speed that a driving image's duty stands for is that duty again (R55, R60). -/
theorem dutyOfSpeed_eq {d : BitVec 12} {v : Speed} (h : v.val = 4095 - d.toNat) : dutyOfSpeed v = d := by
  apply BitVec.eq_of_toNat_eq
  rw [dutyOfSpeed_toNat, h]
  omega

/-- A duty and two levels that have a case are those of its frame (R54 to R56, R60). -/
theorem frameOf_of_caseOfImage (p : Params) {d : BitVec 12} {l1 l2 : Level} {c : Case}
    (h : caseOfImage d.toNat l1 l2 = .ok c) : frameOf p c = ⟨dutyBlock d, inputBlock p l1, inputBlock p l2⟩ := by
  have hzero (hd : d.toNat = 0) : d = 0 := BitVec.eq_of_toNat_eq hd
  cases l1 <;> cases l2 <;> simp only [caseOfImage] at h <;> split at h
  all_goals cases h
  case off.off.isTrue hd => rw [hzero hd]; rfl
  case on.on.isTrue hd => rw [hzero hd]; rfl
  case off.on.isTrue => rw [frameOf, forwardFrame, dutyOfSpeed_eq rfl]
  case on.off.isTrue => rw [frameOf, reverseFrame, dutyOfSpeed_eq rfl]

/-- What an image that decodes consists of (R52, R53, R60). -/
theorem exists_duty_levels_of_decodeFrame {p : Params} {f : List Byte} {c : Case} (h : decodeFrame p f = .ok c) :
    ∃ (d : BitVec 12) (l1 l2 : Level), f = Frame.bytes ⟨dutyBlock d, inputBlock p l1, inputBlock p l2⟩ ∧
      caseOfImage d.toNat l1 l2 = .ok c := by
  unfold decodeFrame at h
  split at h
  · next d0 d1 d2 d3 a0 a1 a2 a3 b0 b1 b2 b3 =>
    split at h
    · cases h
    · next hpads =>
      split at h
      · cases h
      · next hnibble =>
        split at h
        · next l1 l2 h1 h2 =>
          rw [not_or, not_not, not_not] at hpads
          obtain ⟨rfl, rfl⟩ := hpads
          obtain ⟨d, hd, hblock⟩ := exists_dutyBlock d0 d1 (Nat.not_le.1 hnibble)
          refine ⟨d, l1, l2, ?_, hd ▸ h⟩
          rw [hblock, ← eq_inputBlock_of_levelOf h1, ← eq_inputBlock_of_levelOf h2]
          rfl
        · cases h
  · cases h

/-- Settles O4: an image that decodes is made of a duty block and two input blocks, and these are the case's own. -/
theorem decodedImageIsItsFrame : Obligations.DecodedImageIsItsFrame := by
  intro p f c h
  obtain ⟨d, l1, l2, rfl, hcase⟩ := exists_duty_levels_of_decodeFrame h
  rw [frameOf_of_caseOfImage p hcase]

/-! ### Images that no command writes (R61) -/

/-- The first byte of a level's input block under D1. -/
def levelByte : Level → Byte
  | .on => onByte
  | .off => offByte

/-- D1's input block of a level (R53). -/
theorem inputBlock_of_d1 {p : Params} (hon : p.inputOn = ⟨0xFF, 0x00, 0x00, 0x00⟩) (hoff : p.inputOff = ⟨0x00, 0x00, 0x00, 0x00⟩)
    (l : Level) : inputBlock p l = ⟨levelByte l, 0x00, 0x00, 0x00⟩ := by
  cases l with
  | on => exact hon
  | off => exact hoff

theorem levelByte_inj {l1 l2 : Level} : levelByte l1 = levelByte l2 ↔ l1 = l2 := by
  cases l1 <;> cases l2 <;> decide

/-- The duty that bytes 0 and 1 of an image of these blocks hold (R52). -/
theorem dutyBlock_value (d : BitVec 12) : (dutyBlock d).b0.toNat + 256 * (dutyBlock d).b1.toNat = d.toNat := by
  rw [dutyBlock_low, dutyBlock_high, Nat.mod_add_div]

/-- An image made of a duty block and two of D1's input blocks has a property of R61's list only where the duty does not go with the
levels. -/
theorem duty_of_foreignImage {d : BitVec 12} {l1 l2 : Level}
    (h : foreignImage (Frame.bytes ⟨dutyBlock d, ⟨levelByte l1, 0x00, 0x00, 0x00⟩, ⟨levelByte l2, 0x00, 0x00, 0x00⟩⟩)) :
    (l1 = l2 ∧ d.toNat ≠ 0) ∨ (l1 ≠ l2 ∧ (d.toNat = 0 ∨ d.toNat = 4095)) := by
  obtain ⟨-, ⟨k, hk, hpad⟩ | hnibble | ⟨k, hk, hzero, hfull⟩ | ⟨heq, hduty⟩ | ⟨hdiff, hduty⟩⟩ := h
  · simp only [List.mem_cons, List.not_mem_nil, or_false] at hk
    rcases hk with rfl | rfl | rfl | rfl | rfl | rfl | rfl | rfl <;> exact absurd rfl hpad
  · have hhigh : 16 ≤ (dutyBlock d).b1.toNat := hnibble
    rw [dutyBlock_high] at hhigh
    omega
  · simp only [List.mem_cons, List.not_mem_nil, or_false] at hk
    rcases hk with rfl | rfl
    · cases l1 with
      | on => exact absurd rfl hfull
      | off => exact absurd rfl hzero
    · cases l2 with
      | on => exact absurd rfl hfull
      | off => exact absurd rfl hzero
  · exact .inl ⟨levelByte_inj.1 (Option.some.inj heq), dutyBlock_value d ▸ hduty⟩
  · exact .inr ⟨fun hl => hdiff (congrArg (fun l => some (levelByte l)) hl), dutyBlock_value d ▸ hduty⟩

/-- A driving duty is neither of the two that R61 refuses (R55, R84). -/
theorem dutyOfSpeed_ne_ends (v : Speed) : ¬ ((dutyOfSpeed v).toNat = 0 ∨ (dutyOfSpeed v).toNat = 4095) := by
  have hpos := v.pos
  have hlt := v.lt
  rw [dutyOfSpeed_toNat]
  omega

/-- No case's frame has a property of R61's list under D1. -/
theorem not_foreignImage_frameOf {p : Params} (hon : p.inputOn = ⟨0xFF, 0x00, 0x00, 0x00⟩)
    (hoff : p.inputOff = ⟨0x00, 0x00, 0x00, 0x00⟩) (c : Case) : ¬ foreignImage (frameOf p c).bytes := by
  intro h
  cases c with
  | release =>
    rw [frameOf, releaseFrame, inputBlock_of_d1 hon hoff] at h
    rcases duty_of_foreignImage h with ⟨-, hduty⟩ | ⟨hlevels, -⟩
    · exact hduty rfl
    · exact hlevels rfl
  | brake =>
    rw [frameOf, brakeFrame, inputBlock_of_d1 hon hoff] at h
    rcases duty_of_foreignImage h with ⟨-, hduty⟩ | ⟨hlevels, -⟩
    · exact hduty rfl
    · exact hlevels rfl
  | forward v =>
    rw [frameOf, forwardFrame, inputBlock_of_d1 hon hoff, inputBlock_of_d1 hon hoff] at h
    rcases duty_of_foreignImage h with ⟨hlevels, -⟩ | ⟨-, hduty⟩
    · cases hlevels
    · exact dutyOfSpeed_ne_ends v hduty
  | reverse v =>
    rw [frameOf, reverseFrame, inputBlock_of_d1 hon hoff, inputBlock_of_d1 hon hoff] at h
    rcases duty_of_foreignImage h with ⟨hlevels, -⟩ | ⟨-, hduty⟩
    · cases hlevels
    · exact dutyOfSpeed_ne_ends v hduty

/-- Settles O5: no frame is foreign, and an image that decodes is a frame. -/
theorem foreignImagesRefused : Obligations.ForeignImagesRefused := by
  intro p hon hoff
  refine ⟨not_foreignImage_frameOf hon hoff, fun f hforeign => ?_⟩
  cases hdecode : decodeFrame p f with
  | error e => exact ⟨e, rfl⟩
  | ok c =>
    rw [decodedImageIsItsFrame p f c hdecode] at hforeign
    exact absurd hforeign (not_foreignImage_frameOf hon hoff c)

/-! ### Words of the opcode table (R57) -/

/-- A 96-bit word with the bytes of a case's frame is that case's command on motor 0 (R57, R60). -/
theorem decodeTableWord_frame (w : Nat) (c : Case) (h : wordBytes 12 w = (frameOf Config.defaultParams c).bytes) :
    decodeTableWord 96 w = some (caseInstr 0 c) := by
  have hitem : tableItem 96 w = encodeImage Config.defaultParams 0 c := congrArg (Item.image (bankStart 0)) h
  obtain ⟨hdecode, -⟩ := frameDecodesToItsCase Config.defaultParams 0 c
  rw [decodeTableWord, hitem, hdecode]

/-- A 96-bit word with the bytes of a foreign image is no instruction (R61). -/
theorem decodeTableWord_foreign (w : Nat) (h : foreignImage (wordBytes 12 w)) : decodeTableWord 96 w = none := by
  have hitem : tableItem 96 w = .image (bankStart 0) (wordBytes 12 w) := rfl
  obtain ⟨-, hrefused⟩ := foreignImagesRefused Config.defaultParams rfl rfl
  obtain ⟨e, he⟩ := hrefused _ h
  rw [decodeTableWord, hitem]
  simp only [decode, decodeImage, motorOfBank_bankStart, he]

/-- Settles O1: the first four words hold the frames of their cases, and the fifth a duty of 0 with complementary levels, a foreign
image. -/
theorem tableWordsDecode : Obligations.TableWordsDecode := by
  refine ⟨decodeTableWord_frame _ .release (by decide), decodeTableWord_frame _ .brake (by decide),
    decodeTableWord_frame _ (.forward ⟨1000, by decide, by decide⟩) (by decide),
    decodeTableWord_frame _ (.reverse ⟨500, by decide, by decide⟩) (by decide), decodeTableWord_foreign _ ?_, by decide, rfl⟩
  unfold foreignImage
  decide

end Sys2Proof.Machine

/-! PROOFS. Bank addressing (R64 to R67): `base_register` on its domain and outside it, and the layout of the banks. -/

namespace Sys2Proof.Machine

/-! ### The offset of a motor's bank (R64, R65) -/

theorem selectMotor_accepted (i : Int) (hlo : 0 ≤ i) (hhi : i ≤ 3) :
    ∃ m : Motor, selectMotor i = .ok m ∧ i = m.val :=
  ⟨⟨i.toNat, by omega⟩, dif_pos ⟨hlo, hhi⟩, (Int.toNat_of_nonneg hlo).symm⟩

theorem selectMotor_rejected (i : Int) (h : i < 0 ∨ 3 < i) : selectMotor i = .error (.motorIndex i) :=
  dif_neg (by omega)

/-- The offset as a signed computation: the byte of R64's formula. -/
theorem bankStart_eq_ofInt (m : Motor) : bankStart m = BitVec.ofInt 8 (6 + 16 * (m.val : Int)) :=
  (BitVec.ofInt_natCast 8 (6 + 16 * m.val)).symm

theorem baseRegister_accepted (i : Int) (hlo : 0 ≤ i) (hhi : i ≤ 3) :
    baseRegister i = some (BitVec.ofInt 8 (6 + 16 * i)) := by
  obtain ⟨m, hm, rfl⟩ := selectMotor_accepted i hlo hhi
  simp only [baseRegister, hm, bankStart_eq_ofInt]

theorem baseRegister_rejected (i : Int) (h : i < 0 ∨ 3 < i) : baseRegister i = none := by
  rw [baseRegister, selectMotor_rejected i h]

/-- Settles O12: the caller gets the offset `baseRegister` computes, and nothing else changes. -/
theorem baseRegisterReturnsOffset : Obligations.BaseRegisterReturnsOffset := by
  intro i s hlo hhi
  refine ⟨?_, by omega, by omega⟩
  rw [exec, execBaseRegister, baseRegister_accepted i hlo hhi]

/-- Settles O13: `baseRegister` has no value there, so the request records its fault. -/
theorem baseRegisterOutsideItsDomain : Obligations.BaseRegisterOutsideItsDomain := by
  intro i s h
  rw [exec, execBaseRegister, baseRegister_rejected i h]
  rfl

/-! ### The layout of the banks (R42, R66, R67) -/

/-- A register lies in the bank of at most one motor: the stride exceeds a bank's length (R66). -/
theorem motor_unique_of_bank {i j : Motor} {a : Nat} (hi : 6 + 16 * i.val ≤ a ∧ a < 6 + 16 * i.val + 12)
    (hj : 6 + 16 * j.val ≤ a ∧ a < 6 + 16 * j.val + 12) : i = j :=
  Fin.ext (by omega)

/-- The fourth slot of a motor's stride is in no bank (R67). -/
theorem not_inBank_fourth_slot (i : Motor) (k : Nat) (hk : k < 4) : ¬ inBank (6 + 16 * i.val + 12 + k) := by
  rintro ⟨j, hlo, hhi⟩
  omega

/-- Sub-block `j` of motor `i` is chip channel 4 * i + j (R42). -/
theorem subblock_start_eq_channelStart (i : Motor) (j : Nat) (h : 4 * i.val + j < 16) :
    (bankStart i).toNat + 4 * j = channelStart ⟨4 * i.val + j, h⟩ := by
  simp only [bankStart_toNat, channelStart, bankBase0, subblockLen]
  omega

/-- Settles O14, from the layout lemmas above. -/
theorem banksAreDisjoint : Obligations.BanksAreDisjoint :=
  ⟨bankStart_toNat, fun _ _ _ hne hlo hhi hj => hne (motor_unique_of_bank ⟨hlo, hhi⟩ hj), not_inBank_fourth_slot,
    fun i j h _ => subblock_start_eq_channelStart i j h⟩

end Sys2Proof.Machine

/-! PROOFS. Requests that meet a model fault (R72, R78, R124): what a command and a line's request leave in a phase that refuses them, and
a line that expands into requests, in such a phase. -/

namespace Sys2Proof.Machine

/-! ### One request that faults -/

/-- The model fault of a command in a phase that refuses it (R78, R124); a Ready block takes it. -/
def Phase.commandFault : Phase → Option ModelFault
  | .fresh => some .notInitialized
  | .ready => none
  | .dead => some .afterBusError

@[simp] theorem State.faulted_bus (f : ModelFault) (s : State) : (s.faulted f).bus = s.bus := rfl
@[simp] theorem State.faulted_call_answer (f : ModelFault) (s : State) : (s.faulted f).call.answer = none := rfl

theorem faulted_setPending (f : ModelFault) (rest : List (Int × Option Int)) (s : State) :
    (s.setPending rest).faulted f = (s.faulted f).setPending rest := rfl

/-- A second request that meets the same fault changes nothing more. -/
theorem faulted_twice (f : ModelFault) (s : State) : (s.faulted f).faulted f = s.faulted f := by
  simp only [State.faulted, addFault_twice]

/-- A command in a phase that refuses it records the fault, whatever its operands (R78, R125). -/
theorem command_faulted (i : Int) (vel : Option Int) {f : ModelFault} {s : State} (hf : s.mon.phase.commandFault = some f) :
    command false i vel s = s.faulted f := by
  unfold command phaseGate
  cases hp : s.mon.phase with
  | fresh =>
    rw [hp] at hf
    cases hf
    rfl
  | ready =>
    rw [hp] at hf
    cases hf
  | dead =>
    rw [hp] at hf
    cases hf
    rfl

/-- Without a signal announced, a request that returns brings none nearer. -/
theorem tick_of_no_signal {s : State} (h : s.host.signalIn = none) : s.tick = s := by
  rw [State.tick, h, Option.map_none, ← h]

/-- The host makes nothing of a request of a line that has no result (assumption log 19). -/
theorem subCommand_faulted (i : Int) (vel : Option Int) {f : ModelFault} {s : State} (hf : s.mon.phase.commandFault = some f)
    (hrun : s.Running) : subCommand i vel s = s.faulted f := by
  obtain ⟨hstop, hsignal⟩ := hrun
  obtain ⟨⟨hb, ht⟩, -⟩ := hostStopped_false hstop
  rw [subCommand, command_faulted i vel hf]
  simp [settle, hb, ht, react, reactTo, tick_of_no_signal (s := s.faulted f) hsignal]

/-! ### The requests of a line -/

/-- The first request that is left faults, and the others stay. -/
theorem issueFirst_faulted (x : Int × Option Int) (rest : List (Int × Option Int)) {f : ModelFault} {s : State}
    (hf : s.mon.phase.commandFault = some f) (hrun : s.Running) :
    issueFirst (x :: rest) s = (s.faulted f).setPending rest := by
  have hdue : s.signalDue = false := by simp [State.signalDue, hrun.2]
  simp only [issueFirst, hdue, Bool.false_eq_true, if_false]
  exact subCommand_faulted x.1 x.2 (s := s.setPending rest) hf hrun

/-- The requests left of a line fault one after the other, one in each step, and leave what one of them leaves. -/
theorem run_pending_faulted (xs rest : List (Int × Option Int)) {f : ModelFault} {s : State}
    (hf : s.mon.phase.commandFault = some f) (hrun : s.Running) (hi : s.call.inbox = []) :
    Sys2Proof.core.run xs.length ((s.faulted f).setPending (xs ++ rest)) = .next ((s.faulted f).setPending rest) := by
  induction xs with
  | nil => rfl
  | cons x xs ih =>
    have hstep : step ((s.faulted f).setPending (x :: xs ++ rest)) = .next ((s.faulted f).setPending (xs ++ rest)) := by
      rw [step_pending ((s.faulted f).setPending (x :: xs ++ rest)) x (xs ++ rest) hrun.1 hi rfl,
        issueFirst_faulted x (xs ++ rest) (s := (s.faulted f).setPending (x :: xs ++ rest)) hf hrun, faulted_setPending,
        faulted_twice]
      rfl
    rw [List.length_cons, run_next _ hstep, ih]

/-- A line that expands into requests, in a phase that refuses them: its step records the fault of the first, and each of the others
records it again, in a step of its own (R48, R124). -/
theorem line_faulted (i : Instr) (requests : List (Int × Option Int)) {f : ModelFault} {s : State} (hreq : i.requests = some requests)
    (hf : s.mon.phase.commandFault = some f) (hrun : s.Running) :
    exec i s = .next ((s.faulted f).setPending (requests.tail ++ s.host.pending)) ∧
      (s.call.inbox = [] →
        Sys2Proof.core.run (requests.length - 1) ((s.faulted f).setPending (requests.tail ++ s.host.pending)) =
          .next (s.faulted f)) := by
  obtain ⟨hlen, -⟩ := length_requests i requests hreq
  obtain ⟨x, xs, rfl⟩ := List.exists_cons_of_length_pos hlen
  refine ⟨?_, run_pending_faulted xs s.host.pending hf hrun⟩
  rw [exec_requests i _ s hreq, issueLine, if_neg (by simp [hrun.1]), List.cons_append, issueFirst_faulted x _ hf hrun,
    List.tail_cons]

/-- Settles O29: a command that a Dead block refuses records its fault, and so does each request of a line. -/
theorem commandAfterBusErrorIsAFault : Obligations.CommandAfterBusErrorIsAFault := by
  have hf {s : State} (h : s.mon.phase = .dead) : s.mon.phase.commandFault = some .afterBusError := by rw [h]; rfl
  refine ⟨fun i vel s h => ?_, fun i requests s hreq h hrun => ⟨_, rfl, line_faulted i requests hreq (hf h) hrun⟩⟩
  rw [exec_decodeCommand, command_faulted i vel (hf h)]

end Sys2Proof.Machine

/-! PROOFS. `initialize` (R69 to R74): its transactions all answering Ok, one of them answering Err, and the request out of order. -/

namespace Sys2Proof.Machine

/-! ### What the request sends -/

/-- A Fresh block sends the first of `InitTransactions` (R69). -/
theorem exec_initializeChip_fresh {s : State} (h : s.mon.phase = .fresh) : exec .initializeChip s = .next (sendFrom .modes 0 s) := by
  rw [exec, execInitializeChip, h]

theorem count_modes (s : State) : s.count .modes = s.params.initWrites.length := List.length_map _

theorem count_modes_pos (s : State) : 0 < s.count .modes := by
  rw [count_modes]
  exact List.length_pos_iff.mpr s.params.initWritesNonempty

/-! ### Every transaction answers Ok -/

/-- The register image after `InitTransactions` (R29). -/
def initRegs (p : Params) (m : Memory) : Memory :=
  p.initWrites.foldl (fun m w => Memory.writeBytes m w.start.toNat w.bytes) m

/-- The records of `InitTransactions` that all answered Ok (R20, R69). -/
def initRecords (p : Params) : List Transaction := p.initWrites.map fun w => Block.record w.block .ok

/-- The state after an `initialize` of a Fresh block all of whose transactions answered Ok (R29, R69). -/
def State.chipConfigured (s : State) : State :=
  { s with
    mon := { s.mon with
      phase := .ready
      configured := true
      regs := initRegs s.params s.mon.regs
      trace := s.mon.trace ++ initRecords s.params }
    bus := { s.bus with
      outcomes := s.bus.outcomes.drop s.params.initWrites.length
      draws := s.bus.draws + s.params.initWrites.length }
    call := { s.call with answer := some .ok } }

/-- The bytes of `initialize`'s own transactions land in any phase (R29). -/
theorem sentSoFar_modes (s : State) : s.sentSoFar .modes (s.count .modes) =
    { s with
      mon := { s.mon with regs := initRegs s.params s.mon.regs, trace := s.mon.trace ++ initRecords s.params }
      bus := { s.bus with
        outcomes := s.bus.outcomes.drop s.params.initWrites.length
        draws := s.bus.draws + s.params.initWrites.length } } := by
  have hall : (Sending.modes.blocks s.params).take s.params.initWrites.length = s.params.initWrites.map InitWrite.block := by
    rw [← count_modes]
    exact List.take_length
  simp only [State.sentSoFar, Monitor.sent, hall, Sending.relies, Block.land_true, List.foldl_map, List.map_map, count_modes]
  rfl

/-- The last of `InitTransactions` to answer Ok makes a Fresh block Ready (R69). -/
theorem conclude_modes (r : Option Result) {s : State} (h : s.mon.phase = .fresh) :
    conclude .modes (.ok, (s.sentSoFar .modes (s.count .modes)).answerWith r) = s.chipConfigured := by
  have hphase : ((s.sentSoFar .modes (s.count .modes)).answerWith r).mon.phase = .fresh := h
  rw [conclude, State.configure_fresh _ hphase, sentSoFar_modes]
  rfl

/-- A successful `initialize`, after its last transaction, for whoever waits for it. -/
theorem run_initialize (wt : Waiting) {s : State} (h : s.mon.phase = .fresh) (hok : s.BusOk s.params.initWrites.length) :
    Sys2Proof.core.run (s.params.initWrites.length - 1) (settle wt (sendFrom .modes 0 s)) = .next (react wt s.chipConfigured) := by
  rw [← count_modes] at hok ⊢
  obtain ⟨r, hr⟩ := run_done wt .modes s hok (count_modes_pos s)
  rw [hr, conclude_modes r h]
  simp [settle, State.chipConfigured, hok.1.1, hok.1.2]

/-- `InitTransactions` are sent one in each step, up to the last (R43, R69). -/
theorem sendsUpTo_chipConfigured {s : State} (h : s.mon.phase = .fresh) (hok : s.BusOk s.params.initWrites.length) :
    s.SendsUpTo .modes .caller (sendFrom .modes 0 s) s.chipConfigured := by
  have hcaller := settle_caller_sendFrom .modes 0 s hok.1.2
  refine ⟨fun j h1 hj => ?_, ?_⟩
  · have hpart := run_part .caller .modes s j (hok.mono (by rw [← count_modes]; omega)) h1 hj
    rwa [hcaller] at hpart
  · have hdone := run_initialize .caller h hok
    rwa [hcaller, ← count_modes] at hdone

/-- Settles O15: between two transactions the request is part way, and the last leaves the chip configured. -/
theorem initializeSucceeds : Obligations.InitializeSucceeds := fun _ h hok =>
  ⟨_, exec_initializeChip_fresh h, sendsUpTo_chipConfigured h hok⟩

/-! ### The chip's settings (R70, R74) -/

/-- Every record's bytes lie inside the chip (R33) and outside the banks (R74). -/
theorem initRecords_range {p : Params} {t : Transaction} (ht : t ∈ initRecords p) :
    t.start.toNat + t.bytes.length ≤ registerCount ∧ (t.start.toNat + t.bytes.length ≤ 6 ∨ 70 ≤ t.start.toNat) := by
  obtain ⟨w, -, rfl⟩ := List.mem_map.mp ht
  exact ⟨w.fits, w.offBanks⟩

/-- The register image after `InitTransactions` is what their records do to it (R45). -/
theorem initRegs_eq_foldl (p : Params) (m : Memory) : initRegs p m = (initRecords p).foldl applyTransaction m := by
  rw [initRecords, List.foldl_map]
  rfl

/-- Transactions keep the canonical form when each has a register for every byte. -/
theorem wf_foldl_applyTransaction (ts : List Transaction) (hfit : ∀ t ∈ ts, t.start.toNat + t.bytes.length ≤ registerCount)
    {m : Memory} (hm : m.wf = true) : Memory.wf (ts.foldl applyTransaction m) = true := by
  induction ts generalizing m with
  | nil => exact hm
  | cons t ts ih =>
    exact ih (fun x hx => hfit x (List.mem_cons_of_mem t hx)) (wf_applyTransaction m t (hfit t (List.mem_cons_self ..)) hm)

/-- The same transactions from an image that knows more leave an image that knows more: every byte known after them in the one case is
known in the other. -/
theorem read_foldl_applyTransaction_mono (ts : List Transaction) {m m' : Memory}
    (h : ∀ a b, Memory.read m a = some b → Memory.read m' a = some b) (a : Nat) (b : Byte)
    (hb : Memory.read (ts.foldl applyTransaction m) a = some b) : Memory.read (ts.foldl applyTransaction m') a = some b := by
  induction ts generalizing m m' with
  | nil => exact h a b hb
  | cons t ts ih =>
    refine ih (fun c x hx => ?_) hb
    rw [read_applyTransaction] at hx ⊢
    split
    · next hin => rwa [if_pos hin] at hx
    · next hout =>
      rw [if_neg hout] at hx
      exact h c x hx

/-- Transactions leave the registers that none of them targets. -/
theorem read_foldl_applyTransaction_off (ts : List Transaction) (m : Memory) (a : Nat)
    (hoff : ∀ t ∈ ts, ¬ (t.start.toNat ≤ a ∧ a < t.start.toNat + t.bytes.length)) :
    Memory.read (ts.foldl applyTransaction m) a = Memory.read m a := by
  induction ts generalizing m with
  | nil => rfl
  | cons t ts ih =>
    rw [List.foldl_cons, ih _ fun x hx => hoff x (List.mem_cons_of_mem t hx), read_applyTransaction,
      if_neg (hoff t (List.mem_cons_self ..))]

/-- A cell of the mode image is what its register holds after `InitTransactions`, whatever it held before. -/
theorem read_initRegs_of_modeImage {p : Params} {c : Host.Cell} (hc : c ∈ modeImage p) (m : Memory) :
    Memory.read (initRegs p m) c.1 = some c.2 := by
  have hwf : Memory.wf (modeImage p) = true := wf_foldl_applyTransaction (initRecords p) (fun t ht => (initRecords_range ht).1) rfl
  rw [initRegs_eq_foldl]
  exact read_foldl_applyTransaction_mono (initRecords p) (by simp) c.1 c.2 (Memory.read_of_mem hwf hc).1

/-- `InitTransactions` write no bank register (R74). -/
theorem read_initRegs_of_inBank {a : Nat} (ha : inBank a) (p : Params) (m : Memory) :
    Memory.read (initRegs p m) a = Memory.read m a := by
  rw [initRegs_eq_foldl]
  refine read_foldl_applyTransaction_off _ m a fun t ht hin => ?_
  obtain ⟨-, hrange⟩ := initRecords_range ht
  obtain ⟨i, hlo, hhi⟩ := ha
  omega

/-- The three settings hold once every mode register has its configured byte (R70). -/
theorem modeEffects_chipConfigured (s : State) :
    s.chipConfigured.modeEffects = [.autoIncrement, .internalOscillator, .invertedPushPullOutputs] := by
  refine if_pos (List.all_eq_true.mpr fun c hc => ?_)
  exact decide_eq_true (read_initRegs_of_modeImage hc s.mon.regs)

/-- Settles O16: after the last transaction the mode registers hold their bytes, and none of them lies in a bank. -/
theorem initializeConfiguresTheChip : Obligations.InitializeConfiguresTheChip := by
  intro s h hok
  obtain ⟨-, hlast⟩ := sendsUpTo_chipConfigured h hok
  rw [count_modes] at hlast
  exact ⟨_, _, exec_initializeChip_fresh h, hlast, modeEffects_chipConfigured s,
    fun a ha => read_initRegs_of_inBank ha s.params s.mon.regs⟩

/-! ### A transaction answers Err (R73) -/

/-- An `initialize` whose transaction `k` answers Err, for whoever waits for it (R73, R94). -/
theorem run_initialize_err (wt : Waiting) {s : State} {k : Nat} {w : InitWrite} (hw : s.params.initWrites[k]? = some w)
    (herr : s.BusErrAfter k) :
    Sys2Proof.core.run k (settle wt (sendFrom .modes 0 s)) =
      .next (react wt (((s.failedAt .modes k w.block).setPhase .dead).answerWith (some .busError))) := by
  refine run_err wt .modes s k w.block ?_ herr
  rw [Sending.blocks, List.getElem?_map, hw]
  rfl

/-- The records of such an `initialize`: the transactions before the failed one, and that one. -/
theorem failedAt_modes_trace (s : State) (k : Nat) (w : InitWrite) :
    (s.failedAt .modes k w.block).mon.trace =
      s.mon.trace ++ (s.params.initWrites.take k).map (fun v => ⟨0x40, v.start, v.bytes, .ok⟩) ++
        [⟨0x40, w.start, w.bytes, .err⟩] := by
  simp only [State.failedAt, Monitor.sent, Sending.blocks, ← List.map_take, List.map_map]
  rfl

/-- The registers of the failed transaction are unknown (R73, R95). -/
theorem failedAt_read_own (v : Sending) (s : State) (k : Nat) (b : Block) (a : Nat) (hlo : b.start.toNat ≤ a)
    (hhi : a < b.start.toNat + b.bytes.length) : Memory.read (s.failedAt v k b).mon.regs a = none := by
  rw [State.failedAt, Memory.read_forgetRange, if_pos ⟨hlo, hhi⟩]

/-- Settles O17: the request ends with the failed transaction, in the step that sends it. -/
theorem initializeFailureIsFatal : Obligations.InitializeFailureIsFatal := by
  intro s k w h hw herr
  have hrun := run_initialize_err .caller hw herr
  rw [settle_caller_sendFrom .modes 0 s herr.1.2] at hrun
  exact ⟨_, _, exec_initializeChip_fresh h, hrun, herr.1.2, rfl, rfl, failedAt_read_own .modes s k w.block,
    failedAt_modes_trace s k w⟩

/-! ### Out of order (R72, R143) -/

/-- Settles O18: the request looks at the phase before it does anything else. -/
theorem initializeOutOfOrderIsAFault : Obligations.InitializeOutOfOrderIsAFault := by
  intro s
  refine ⟨fun h => ?_, fun h => ?_⟩
  · rw [exec, execInitializeChip, h]
    rfl
  · rw [exec, execInitializeChip, h]
    rfl

end Sys2Proof.Machine

/-! PROOFS. The frames of the block's rows (R36, R74, R86, R95): what a request leaves unchanged, for every outcome of the bus. -/

namespace Sys2Proof.Machine

/-! ### What the operations leave unchanged -/

/-- `t` differs from `s` in the monitor, the bus and the answer alone, and in no register outside `T`. -/
structure State.ChangesOnly (s : State) (T : Nat → Prop) (t : State) : Prop where
  params : t.params = s.params
  host : t.host = s.host
  inbox : t.call.inbox = s.call.inbox
  offset : t.call.offset = s.call.offset
  regs : ∀ a, ¬ T a → Memory.read t.mon.regs a = Memory.read s.mon.regs a

section ChangesOnly

variable {T : Nat → Prop}

theorem State.ChangesOnly.trans {s t u : State} (h1 : s.ChangesOnly T t) (h2 : t.ChangesOnly T u) : s.ChangesOnly T u where
  params := h2.params.trans h1.params
  host := h2.host.trans h1.host
  inbox := h2.inbox.trans h1.inbox
  offset := h2.offset.trans h1.offset
  regs a ha := (h2.regs a ha).trans (h1.regs a ha)

theorem changesOnly_refl (s : State) : s.ChangesOnly T s := ⟨rfl, rfl, rfl, rfl, fun _ _ => rfl⟩

theorem changesOnly_answerWith (r : Option Result) (s : State) : s.ChangesOnly T (s.answerWith r) :=
  ⟨rfl, rfl, rfl, rfl, fun _ _ => rfl⟩

theorem changesOnly_recordFault (f : ModelFault) (s : State) : s.ChangesOnly T (s.recordFault f) :=
  ⟨rfl, rfl, rfl, rfl, fun _ _ => rfl⟩

theorem changesOnly_awaitNext (w : Sending) (j : Nat) (s : State) : s.ChangesOnly T (s.awaitNext w j) :=
  ⟨rfl, rfl, rfl, rfl, fun _ _ => rfl⟩

theorem changesOnly_configure (s : State) : s.ChangesOnly T s.configure := by
  by_cases h : s.mon.phase = .fresh
  · rw [State.configure_fresh s h]
    exact ⟨rfl, rfl, rfl, rfl, fun _ _ => rfl⟩
  · rw [State.configure_of_not_fresh s h]
    exact changesOnly_refl s

theorem changesOnly_finish (r : BusOutcome × State) : r.2.ChangesOnly T (finish r) := by
  obtain ⟨o, s⟩ := r
  cases o <;> exact ⟨rfl, rfl, rfl, rfl, fun _ _ => rfl⟩

theorem changesOnly_conclude (w : Sending) (r : BusOutcome × State) : r.2.ChangesOnly T (conclude w r) := by
  obtain ⟨o, s⟩ := r
  cases o with
  | ok =>
    cases w with
    | modes => exact (changesOnly_configure s).trans (changesOnly_finish (.ok, s.configure))
    | frame m c => exact changesOnly_finish (.ok, s)
  | err => exact changesOnly_finish (.err, s)
  | never => exact changesOnly_finish (.never, s)

/-- A transaction leaves the registers it does not target: where it answers Err, and where its bytes land nowhere known, it only makes
its own unknown (R36, R95, R139). -/
theorem changesOnly_busWrite (inc : Bool) (b : Block) (s : State)
    (hT : ∀ a, b.start.toNat ≤ a → a < b.start.toNat + b.bytes.length → T a) : s.ChangesOnly T (busWrite inc b s).2 := by
  have hoff {a : Nat} (ha : ¬ T a) : ¬ (b.start.toNat ≤ a ∧ a < b.start.toNat + b.bytes.length) := fun h => ha (hT a h.1 h.2)
  unfold busWrite
  split
  · rw [State.recordOk_eq]
    exact ⟨rfl, rfl, rfl, rfl, fun a ha => Block.read_land_off inc b s.mon.regs a (hoff ha)⟩
  · exact ⟨rfl, rfl, rfl, rfl, fun a ha => (read_applyTransaction s.mon.regs (Block.record b .err) a).trans (if_neg (hoff ha))⟩
  · exact ⟨rfl, rfl, rfl, rfl, fun _ _ => rfl⟩

/-- Every transaction of a request lies in the registers that the request targets (R41, R69, R93). -/
theorem Sending.targets_of_mem_blocks {p : Params} {w : Sending} {b : Block} (hb : b ∈ w.blocks p) (a : Nat)
    (hlo : b.start.toNat ≤ a) (hhi : a < b.start.toNat + b.bytes.length) : w.targets p a := by
  cases w with
  | modes =>
    obtain ⟨v, hv, rfl⟩ := List.mem_map.mp hb
    exact ⟨v, hv, hlo, hhi⟩
  | frame m c =>
    obtain ⟨-, hfirst, hlast⟩ := chunksFrom_inside _ _ p.maxBlockPos _ _ (bank_fits m _) b hb
    rw [bankStart_toNat] at hfirst hlast
    rw [Frame.length_bytes] at hlast
    exact ⟨by omega, by omega⟩

/-- A request's transaction `j` changes registers that the request targets alone. -/
theorem changesOnly_sendFrom (w : Sending) (j : Nat) (s : State) : s.ChangesOnly (w.targets s.params) (sendFrom w j s) := by
  unfold sendFrom
  split
  · exact changesOnly_refl s
  · next b hb =>
    have hwrite := changesOnly_busWrite (w.relies s) b s (Sending.targets_of_mem_blocks (List.mem_of_getElem? hb))
    split
    · next t ht =>
      rw [ht] at hwrite
      split
      · exact hwrite.trans (changesOnly_awaitNext w (j + 1) t)
      · exact hwrite.trans (changesOnly_conclude w (.ok, t))
    · next t ht =>
      rw [ht] at hwrite
      exact hwrite.trans (changesOnly_conclude w (.err, t))
    · next t ht =>
      rw [ht] at hwrite
      exact hwrite.trans (changesOnly_conclude w (.never, t))

/-- A request that the phase check refuses records its fault and changes no register (R124). -/
theorem changesOnly_phaseGate (sh : Bool) (k : State → State) (s : State) (hk : s.ChangesOnly T (k s)) :
    s.ChangesOnly T (phaseGate sh k s) := by
  unfold phaseGate
  split
  · split
    · exact hk
    · exact changesOnly_recordFault _ s
  · exact changesOnly_recordFault _ s
  · exact hk

end ChangesOnly

/-! ### The rows -/

/-- The row of a command targets its motor's bank, whatever its case (R41). -/
theorem targets_caseInstr (m : Motor) (c : Case) (p : Params) : (caseInstr m c).targets p = (Sending.frame m c).targets p := by
  cases c <;> rfl

/-- A command changes registers of its motor's bank alone (R86). -/
theorem changesOnly_caseInstr (m : Motor) (c : Case) {s t : State} (h : exec (caseInstr m c) s = .next t) :
    s.ChangesOnly ((caseInstr m c).targets s.params) t := by
  rw [exec_caseInstr] at h
  cases h
  rw [targets_caseInstr]
  exact changesOnly_phaseGate false _ s (changesOnly_sendFrom (.frame m c) 0 s)

/-- `initialize` changes registers of `InitTransactions` alone (R74). -/
theorem changesOnly_initializeChip {s t : State} (h : exec .initializeChip s = .next t) :
    s.ChangesOnly (Instr.initializeChip.targets s.params) t := by
  simp only [exec, execInitializeChip, Host.Outcome.next.injEq] at h
  subst h
  split
  · exact changesOnly_recordFault _ s
  · exact changesOnly_recordFault _ s
  · exact changesOnly_sendFrom .modes 0 s

/-- A direct call changes the registers of its bytes alone (R36, R95). -/
theorem changesOnly_writeBlock (dev : DevAddr) (start : RegAddr) (bytes : List Byte) {s t : State}
    (h : exec (.writeBlock dev start bytes) s = .next t) :
    s.ChangesOnly ((Instr.writeBlock dev start bytes).targets s.params) t := by
  simp only [exec, execWriteBlock] at h
  split at h
  · cases h
  · split at h
    · cases h
    · split at h
      · cases h
      · cases h
        exact (changesOnly_busWrite s.initialized ⟨start, bytes⟩ s fun a hlo hhi => ⟨hlo, hhi⟩).trans (changesOnly_finish _)

/-- A rejected request gives its answer, or records the fault of the phase (R79, R125). -/
theorem exec_rejectOutOfRange_next {i : Int} {vel : Option Int} {s t : State} (h : exec (.rejectOutOfRange i vel) s = .next t) :
    (∃ r, t = s.answerWith r) ∨ ∃ f, t = s.recordFault f := by
  simp only [exec, execRejectOutOfRange] at h
  split at h
  · cases h
    unfold phaseGate
    split
    · exact .inr ⟨.afterBusError, rfl⟩
    · exact .inr ⟨.notInitialized, rfl⟩
    · exact .inl ⟨_, rfl⟩
  · cases h

/-- BASE_REGISTER gives an offset, or records its fault and gives none (R64, R65). -/
theorem exec_baseRegister_next {n : Int} {s t : State} (h : exec (.baseRegister n) s = .next t) :
    ∃ o, t = { s with call := { s.call with offset := o } } ∨
      ∃ f, t = { s.recordFault f with call := { (s.recordFault f).call with offset := o } } := by
  simp only [exec, execBaseRegister, Host.Outcome.next.injEq] at h
  subst h
  split
  · exact ⟨_, .inl rfl⟩
  · exact ⟨none, .inr ⟨.baseRegisterDomain, rfl⟩⟩

/-- Every row of the block but BASE_REGISTER, which gives the caller an offset. -/
theorem changesOnly_exec (i : Instr) {s t : State} (hline : i.isHostLine = false) (hbase : ¬ ∃ n, i = .baseRegister n)
    (h : exec i s = .next t) : s.ChangesOnly (i.targets s.params) t := by
  cases i with
  | initializeChip => exact changesOnly_initializeChip h
  | cmdRelease m => exact changesOnly_caseInstr m .release h
  | cmdBrake m => exact changesOnly_caseInstr m .brake h
  | cmdForward m v => exact changesOnly_caseInstr m (.forward v) h
  | cmdReverse m v => exact changesOnly_caseInstr m (.reverse v) h
  | rejectOutOfRange n vel =>
    obtain ⟨r, rfl⟩ | ⟨f, rfl⟩ := exec_rejectOutOfRange_next h
    · exact changesOnly_answerWith r s
    · exact changesOnly_recordFault f s
  | baseRegister n => exact absurd ⟨n, rfl⟩ hbase
  | writeBlock dev start bytes => exact changesOnly_writeBlock dev start bytes h
  | _ => cases hline

/-- Settles O58: the two rows without a transaction are read off their outcomes, the others' frame is that of their operations. -/
theorem blockRequestFrame : Obligations.BlockRequestFrame := by
  intro i s t hline h
  by_cases hbase : ∃ n, i = .baseRegister n
  · obtain ⟨n, rfl⟩ := hbase
    obtain ⟨o, rfl | ⟨f, rfl⟩⟩ := exec_baseRegister_next h
    · exact ⟨rfl, rfl, rfl, fun hne => absurd rfl (hne n), fun _ _ => rfl, fun _ => ⟨rfl, rfl, rfl, rfl⟩⟩
    · exact ⟨rfl, rfl, rfl, fun hne => absurd rfl (hne n), fun _ _ => rfl, fun _ => ⟨rfl, rfl, rfl, rfl⟩⟩
  · obtain ⟨hparams, hhost, hinbox, hoffset, hregs⟩ := changesOnly_exec i hline hbase h
    refine ⟨hparams, hhost, hinbox, fun _ => hoffset, hregs, ?_⟩
    rintro (⟨n, vel, rfl⟩ | hb)
    · obtain ⟨r, rfl⟩ | ⟨f, rfl⟩ := exec_rejectOutOfRange_next h
      · exact ⟨rfl, rfl, rfl, rfl⟩
      · exact ⟨rfl, rfl, rfl, rfl⟩
    · exact absurd hb hbase

end Sys2Proof.Machine

/-! PROOFS. The command (R77 to R88): the frame of each case under any `MAX_BLOCK`, the duty of a speed, the rejected request, and that
neither earlier requests nor the register image have a part in what a command sends and answers. -/

namespace Sys2Proof.Machine

/-! ### The four cases (R80 to R83) -/

/-- A command all of whose transactions answer Ok sends the chunks of its frame, one in each step, under any `MAX_BLOCK` (R85, R93). -/
theorem exec_caseInstr_sendsUpTo (m : Motor) (c : Case) (s : State) (hready : s.mon.phase = .ready)
    (hok : s.BusOk (s.commandSends m c.velocity)) :
    ∃ t, exec (caseInstr m c) s = .next t ∧ s.SendsUpTo (.frame m c) .caller t (s.commanded m c.velocity) := by
  have hcaller := settle_caller_command false m c s (.inl hready) hok.1.2
  refine ⟨command false m.val c.velocity s, by rw [← decodeCommand_case, exec_decodeCommand], fun j h1 hj => ?_, ?_⟩
  · rw [count_frame] at hj
    have hpart := command_part false .caller m c s j (.inl hready) (hok.mono (Nat.le_of_lt hj)) h1 hj
    rwa [hcaller] at hpart
  · have hlast := command_ok false .caller m c s (.inl hready) hok
    rwa [hcaller, ← count_frame] at hlast

/-- Settles O19: Release is the case with no velocity. -/
theorem cmdReleaseWritesItsFrame : Obligations.CmdReleaseWritesItsFrame := fun m => exec_caseInstr_sendsUpTo m .release

/-- Settles O20: Brake is the case of velocity 0. -/
theorem cmdBrakeWritesItsFrame : Obligations.CmdBrakeWritesItsFrame := fun m => exec_caseInstr_sendsUpTo m .brake

/-- Settles O21: Forward at a speed is the case of that velocity. -/
theorem cmdForwardWritesItsFrame : Obligations.CmdForwardWritesItsFrame := fun m v => exec_caseInstr_sendsUpTo m (.forward v)

/-- Settles O22: Reverse at a speed is the case of the negated velocity. -/
theorem cmdReverseWritesItsFrame : Obligations.CmdReverseWritesItsFrame := fun m v => exec_caseInstr_sendsUpTo m (.reverse v)

/-! ### The duty (R84) -/

/-- The duty pair of a speed holds 4095 - |v|, and its high byte a nibble (R52, R84). -/
theorem dutyBlock_dutyOfSpeed (v : Speed) :
    (dutyBlock (dutyOfSpeed v)).b0.toNat + 256 * (dutyBlock (dutyOfSpeed v)).b1.toNat = 4095 - v.val ∧
      (dutyBlock (dutyOfSpeed v)).b1.toNat ≤ 0x0F := by
  rw [dutyBlock_value, dutyBlock_high, dutyOfSpeed_toNat]
  omega

/-- Settles O30: both driving frames have the speed's duty block, and both others the block of duty 0. -/
theorem dutyIsInverted : Obligations.DutyIsInverted := by
  intro p v
  refine ⟨fun f hf => ?_, fun f hf => ?_⟩
  · have hblock : f.duty = dutyBlock (dutyOfSpeed v) := by rcases hf with rfl | rfl <;> rfl
    obtain ⟨hduty, hnibble⟩ := dutyBlock_dutyOfSpeed v
    have hpos := v.pos
    have hlt := v.lt
    rw [hblock, hduty]
    exact ⟨rfl, by omega, by omega, hnibble, by omega⟩
  · have hblock : f.duty = dutyBlock 0 := by rcases hf with rfl | rfl <;> rfl
    rw [hblock, dutyBlock_value]
    rfl

/-! ### The rejected request (R79) -/

/-- The index is checked first, so it is the offending operand whatever the velocity is (R79). -/
theorem validate_bad_index (i : Int) (vel : Option Int) (h : i < 0 ∨ 3 < i) : validate i vel = .error (.motorIndex i) := by
  rw [validate, selectMotor_rejected i h]

/-- Operands that validation rejects decode to the row of the rejected request, whose whole effect while `Ready` is its answer (R79). -/
theorem rejected_of_validate_error (p : Params) {i : Int} {vel : Option Int} {e : OutOfRangeInfo} {s : State}
    (hready : s.mon.phase = .ready) (hv : validate i vel = .error e) :
    decode p (.command i vel) = .ok (.rejectOutOfRange i vel) ∧
      exec (.rejectOutOfRange i vel) s = .next (s.answerWith (some (.outOfRange e))) := by
  have hdecode : decodeCommand i vel = .rejectOutOfRange i vel := decodeCommand_rejected i vel (by simp only [outOfRangeOperands, hv])
  refine ⟨congrArg Except.ok hdecode, ?_⟩
  rw [← hdecode, exec_decodeCommand, command_rejected i vel e s hready hv]

/-- Settles O27: validation names the index, or, where that is accepted, the velocity. -/
theorem rejectedRequestHasNoEffect : Obligations.RejectedRequestHasNoEffect := by
  intro p i vel s hready
  refine ⟨fun hi => rejected_of_validate_error p hready (validate_bad_index i vel hi), fun v hlo hhi hvel hv => ?_⟩
  obtain ⟨m, -, rfl⟩ := selectMotor_accepted i hlo hhi
  subst hvel
  exact rejected_of_validate_error p hready (validate_fast m v hv)

/-! ### Two blocks that send the same (R87, R88) -/

/-- `u` and `u'` have added the same records to the traces of `s` and `s'`, and agree in all that a command's next transaction and its
result depend on: the register image, the faults, the earlier results and the host have no part in it. -/
structure State.AddsSame (s s' u u' : State) : Prop where
  params : u.params = u'.params
  bus : u.bus = u'.bus
  phase : u.mon.phase = u'.mon.phase
  trace : ∃ r, u.mon.trace = s.mon.trace ++ r ∧ u'.mon.trace = s'.mon.trace ++ r

/-- They also agree in what the caller has received. -/
structure State.AnswersSame (s s' u u' : State) : Prop extends s.AddsSame s' u u' where
  answer : u.call.answer = u'.call.answer

section AddsSame

variable {s s' u u' : State}

theorem State.AddsSame.refl (hparams : s.params = s'.params) (hbus : s.bus = s'.bus) (hphase : s.mon.phase = s'.mon.phase) :
    s.AddsSame s' s s' :=
  ⟨hparams, hbus, hphase, [], (List.append_nil _).symm, (List.append_nil _).symm⟩

theorem State.AddsSame.answerWith (h : s.AddsSame s' u u') (r : Option Result) :
    s.AnswersSame s' (u.answerWith r) (u'.answerWith r) :=
  { h with answer := rfl }

theorem State.AddsSame.setPhase (h : s.AddsSame s' u u') (p : Phase) : s.AddsSame s' (u.setPhase p) (u'.setPhase p) :=
  { h with phase := rfl }

/-- The same change of the bus on both. -/
theorem State.AddsSame.withBus (h : s.AddsSame s' u u') (f : BusState → BusState) :
    s.AddsSame s' { u with bus := f u.bus } { u' with bus := f u'.bus } :=
  { h with bus := congrArg f h.bus }

/-- Both traces get the same record, whatever becomes of the registers. -/
theorem State.AddsSame.record (h : s.AddsSame s' u u') (t : Transaction) (m m' : Memory) :
    s.AddsSame s' { u with mon := { u.mon with regs := m, trace := u.mon.trace ++ [t] } }
      { u' with mon := { u'.mon with regs := m', trace := u'.mon.trace ++ [t] } } := by
  obtain ⟨r, hu, hu'⟩ := h.trace
  exact { h with trace := ⟨r ++ [t], by simp only [hu, List.append_assoc], by simp only [hu', List.append_assoc]⟩ }

theorem State.AddsSame.nextOutcome (h : s.AddsSame s' u u') : u.nextOutcome = u'.nextOutcome := by
  rw [State.nextOutcome, State.nextOutcome, h.bus]

/-- One transaction has the same outcome and the same record on both, also where R36 may be relied on in one of them alone (R139). -/
theorem State.AddsSame.afterWrite (h : s.AddsSame s' u u') (inc inc' : Bool) (b : Block) :
    (busWrite inc b u).1 = (busWrite inc' b u').1 ∧ s.AddsSame s' (busWrite inc b u).2 (busWrite inc' b u').2 := by
  have huse : s.AddsSame s' u.useOutcome u'.useOutcome := h.withBus fun b => { b with outcomes := b.outcomes.tail, draws := b.draws + 1 }
  unfold busWrite
  rw [← h.nextOutcome]
  cases u.nextOutcome with
  | ok =>
    refine ⟨rfl, ?_⟩
    simp only [State.recordOk_eq]
    exact huse.record _ _ _
  | err => exact ⟨rfl, huse.record _ _ _⟩
  | never => exact ⟨rfl, huse⟩

theorem State.AddsSame.afterFinish (h : s.AddsSame s' u u') (o : BusOutcome) : s.AnswersSame s' (finish (o, u)) (finish (o, u')) := by
  cases o with
  | ok => exact h.answerWith (some .ok)
  | err => exact (h.setPhase .dead).answerWith (some .busError)
  | never => exact (h.withBus fun b => { b with blocked := true }).answerWith none

/-- A command's transaction `j` gives the caller the same on both, whatever comes of it. -/
theorem State.AddsSame.afterSend (h : s.AddsSame s' u u') (m : Motor) (c : Case) (j : Nat) (hj : j < u.count (.frame m c)) :
    s.AnswersSame s' (sendFrom (.frame m c) j u) (sendFrom (.frame m c) j u') := by
  obtain ⟨b, hb⟩ := blocks_get (.frame m c) u hj
  obtain ⟨hout, hnext⟩ := h.afterWrite ((Sending.frame m c).relies u) ((Sending.frame m c).relies u') b
  rcases hw : busWrite ((Sending.frame m c).relies u) b u with ⟨o, t⟩
  rcases hw' : busWrite ((Sending.frame m c).relies u') b u' with ⟨o', t'⟩
  rw [hw, hw'] at hout hnext
  cases hout
  simp only [sendFrom, ← h.params, hb, hw, hw']
  cases o with
  | ok =>
    simp only
    split
    · exact (hnext.withBus fun b => { b with transfer := some ⟨.frame m c, j + 1, .caller⟩ }).answerWith none
    · exact hnext.afterFinish .ok
  | err => exact hnext.afterFinish .err
  | never => exact hnext.afterFinish .never

end AddsSame

/-- Of the bus, a transaction uses up an answer and changes nothing else. -/
theorem busWrite_bus (inc : Bool) (b : Block) (s : State) : (busWrite inc b s).2.bus = s.useOutcome.bus := by
  unfold busWrite
  split
  · rw [State.recordOk_eq]
  · rfl
  · rfl

/-- A transaction of a command on a free bus ends the request, or leaves its next transaction to the next step (R93, R94). -/
theorem sendFrom_frame_transfer (m : Motor) (c : Case) (j : Nat) {s : State} (hf : s.BusFree) :
    (sendFrom (.frame m c) j s).bus.transfer = none ∨
      (j + 1 < s.count (.frame m c) ∧ (sendFrom (.frame m c) j s).bus.blocked = false ∧
        (sendFrom (.frame m c) j s).bus.transfer = some ⟨.frame m c, j + 1, .caller⟩) := by
  unfold sendFrom
  split
  · exact .inl hf.2
  · next b _ =>
    have hbus := busWrite_bus ((Sending.frame m c).relies s) b s
    split
    · next t hw =>
      rw [hw] at hbus
      split
      · next hj => exact .inr ⟨hj, (congrArg BusState.blocked hbus).trans hf.1, rfl⟩
      · exact .inl ((congrArg BusState.transfer hbus).trans hf.2)
    · next t hw =>
      rw [hw] at hbus
      exact .inl ((congrArg BusState.transfer hbus).trans hf.2)
    · next t hw =>
      rw [hw] at hbus
      exact .inl ((congrArg BusState.transfer hbus).trans hf.2)

/-- The step that sends the next transaction of a request that was handed over directly. -/
theorem step_caller_transfer {s : State} {w : Sending} {j : Nat} (hb : s.bus.blocked = false)
    (ht : s.bus.transfer = some ⟨w, j, .caller⟩) : step s = .next (sendFrom w j (s.setTransfer none)) := by
  rw [step_transfer hb ht, continueTransfer, settle_caller_sendFrom w j (s.setTransfer none) rfl]

/-- A request begun on two blocks `s` and `s'` by the steps that left `t` and `t'` ends on both `k` steps later; until then, after each
step, they have added the same records and given the caller the same. -/
def EndsSameAfter (s s' t t' : State) (k : Nat) : Prop :=
  ∀ i, i ≤ k → ∃ u u', Sys2Proof.core.run i t = .next u ∧ Sys2Proof.core.run i t' = .next u' ∧ s.AnswersSame s' u u' ∧
    (u.bus.transfer = none ↔ i = k)

/-- A request that has ended in its own step. -/
theorem State.AnswersSame.ended {s s' t t' : State} (h : s.AnswersSame s' t t') (hend : t.bus.transfer = none) :
    EndsSameAfter s s' t t' 0 := by
  intro i hi
  obtain rfl := Nat.le_zero.mp hi
  exact ⟨t, t', rfl, rfl, h, by simp [hend]⟩

/-- A request that goes on for `k` steps after the next. -/
theorem State.AnswersSame.goesOn {s s' t t' v v' : State} {k : Nat} (h : s.AnswersSame s' t t') (hleft : t.bus.transfer ≠ none)
    (ht : step t = .next v) (ht' : step t' = .next v') (hk : EndsSameAfter s s' v v' k) : EndsSameAfter s s' t t' (k + 1) := by
  intro i hi
  cases i with
  | zero => exact ⟨t, t', rfl, rfl, h, by simp [hleft]⟩
  | succ i =>
    obtain ⟨u, u', hu, hu', hsame, hlast⟩ := hk i (Nat.le_of_succ_le_succ hi)
    exact ⟨u, u', (run_next i ht).trans hu, (run_next i ht').trans hu', hsame, hlast.trans Nat.succ_inj.symm⟩

/-- A command of which `n` transactions are left, from transaction `j` on, ends in the same step on both blocks. -/
theorem exists_endsSameAfter {s s' : State} (m : Motor) (c : Case) (n j : Nat) {u u' : State} (h : s.AddsSame s' u u')
    (hf : u.BusFree) (hj : j < u.count (.frame m c)) (hn : u.count (.frame m c) ≤ j + n) :
    ∃ k, EndsSameAfter s s' (sendFrom (.frame m c) j u) (sendFrom (.frame m c) j u') k := by
  induction n generalizing j u u' with
  | zero => omega
  | succ n ih =>
    have hsend := h.afterSend m c j hj
    obtain hend | ⟨hnext, hb, ht⟩ := sendFrom_frame_transfer m c j hf
    · exact ⟨0, hsend.ended hend⟩
    · have hcount : ((sendFrom (.frame m c) j u).setTransfer none).count (.frame m c) = u.count (.frame m c) :=
        congrArg (fun p => ((Sending.frame m c).blocks p).length) (changesOnly_sendFrom (.frame m c) j u).params
      obtain ⟨k, hk⟩ := ih (j + 1) (hsend.withBus fun b => { b with transfer := none }) ⟨hb, rfl⟩ (hcount ▸ hnext)
        (hcount.le.trans (by omega))
      exact ⟨k + 1, hsend.goesOn (by simp [ht]) (step_caller_transfer hb ht)
        (step_caller_transfer (hsend.bus ▸ hb) (hsend.bus ▸ ht)) hk⟩

/-- A request `Command(bus, i, vel)`, valid or not, ends in the same step on two Ready blocks with the same parameters and bus. -/
theorem exists_endsSameAfter_command (i : Int) (vel : Option Int) {s s' : State} (hready : s.mon.phase = .ready)
    (hready' : s'.mon.phase = .ready) (hparams : s.params = s'.params) (hbus : s.bus = s'.bus) (hf : s.BusFree) :
    ∃ k, EndsSameAfter s s' (command false i vel s) (command false i vel s') k := by
  have hsame : s.AddsSame s' s s' := .refl hparams hbus (hready.trans hready'.symm)
  cases hv : validate i vel with
  | error e =>
    rw [command_rejected i vel e s hready hv, command_rejected i vel e s' hready' hv]
    exact ⟨0, (hsame.answerWith _).ended hf.2⟩
  | ok mc =>
    obtain ⟨m, c⟩ := mc
    have hsends {s : State} (h : s.mon.phase = .ready) : command false i vel s = sendFrom (.frame m c) 0 s := by
      simp only [command, phaseGate, h, commandBody, hv, emit]
    rw [hsends hready, hsends hready']
    exact exists_endsSameAfter m c _ 0 hsame hf (by rw [count_frame]; exact commandSends_pos s m c.velocity) (Nat.le_add_left _ 0)

/-- Settles O31: a rejected request ends in its own step, and an accepted one sends its frame on the same answers of the bus. -/
theorem commandsIgnoreHistory : Obligations.CommandsIgnoreHistory := by
  intro i vel s s' hready hready' hparams hbus hf
  obtain ⟨k, hk⟩ := exists_endsSameAfter_command i vel hready hready' hparams hbus hf
  refine ⟨_, _, k, exec_decodeCommand i vel s, exec_decodeCommand i vel s', fun j hj => ?_⟩
  obtain ⟨u, u', hu, hu', hsame, hlast⟩ := hk j hj
  obtain ⟨r, hr, hr'⟩ := hsame.trace
  exact ⟨u, u', r, hu, hu', hr, hr', hsame.answer, hsame.phase, hsame.bus, hlast⟩

end Sys2Proof.Machine

/-! PROOFS. The bus framer (R90 to R95): what every step keeps of the trace and of the request being sent, how `Emit` splits its bytes,
and what a failed and an unreturned transaction do to a request. -/

namespace Sys2Proof.Machine

/-! ### The trace and the request being sent (R33, R90, R91, R93) -/

section InRange

variable {Q : Block → Bool → Prop} {s t : State}

/-- Whatever transaction a step sends has bytes (R90). -/
theorem Sent.bytes_ne_nil {call : Prop} {b : Block} {placed : Bool} (h : Sent call s b placed) : b.bytes ≠ [] := by
  rcases h with ⟨hi, -⟩ | ⟨-, ⟨hne, -⟩, -⟩
  · exact hi.range.1
  · exact hne

/-- A record of a block that has bytes, and a register for each, may join the trace. -/
theorem State.TraceInRange.snoc (hs : s.TraceInRange) {b : Block} (o : TxOutcome) (hne : b.bytes ≠ [])
    (hfit : b.start.toNat + b.bytes.length ≤ registerCount) (ht : t.mon.trace = s.mon.trace ++ [Block.record b o]) :
    t.TraceInRange := by
  intro x hx
  rw [ht, List.mem_append, List.mem_singleton] at hx
  rcases hx with hx | rfl
  · exact hs x hx
  · exact ⟨rfl, hne, hfit⟩

/-- A move whose transactions have bytes, and registers for them, keeps the trace in range. -/
theorem Move.keeps_traceInRange (hne : ∀ b placed, Q b placed → b.bytes ≠ [])
    (hfit : ∀ b placed, Q b placed → b.start.toNat + b.bytes.length ≤ registerCount) (h : Move Q s t)
    (hs : s.TraceInRange) : t.TraceInRange := by
  cases h with
  | transaction b o hq => exact hs.snoc o (hne b true hq) (hfit b true hq) rfl
  | unplaced b hq => exact hs.snoc .ok (hne b false hq) (hfit b false hq) rfl
  | _ => exact hs

/-- A request that is being sent after a move has transactions left, or was being sent, and as far, before it. -/
theorem Move.keeps_transferInRange (h : Move Q s t) (hs : s.TransferInRange) : t.TransferInRange := by
  cases h with
  | bus b ht =>
    intro x hx
    rcases ht x hx with hin | ⟨y, hy, hwhat, hsent⟩
    · exact hin
    · rw [Transfer.InRange, hwhat, hsent]
      exact hs y hy
  | _ => exact hs

end InRange

/-- Settles O54: a step is a chain of moves, each of which keeps both; its transactions are the block's own or a direct call's, and
these have bytes and registers for them. -/
theorem stepKeepsTraceInRange : Obligations.StepKeepsTraceInRange := by
  intro s t h
  have hm := moves_step s t h
  exact ⟨hm.keeps fun _ _ => Move.keeps_traceInRange (fun _ _ => Sent.bytes_ne_nil) fun _ _ => Sent.fits,
    hm.keeps fun _ _ => Move.keeps_transferInRange⟩

/-! ### How `Emit` splits its bytes (R93) -/

/-- Chunk `j` begins `j * size` bytes after the first and carries the next `size` bytes, as long as there are any. -/
theorem getElem?_chunksFrom (size fuel : Nat) (hsize : 1 ≤ size) (start : RegAddr) (bytes : List Byte)
    (hfuel : bytes.length ≤ fuel) (j : Nat) :
    (chunksFrom size fuel start bytes)[j]? =
      if j * size < bytes.length then some ⟨start + BitVec.ofNat 8 (j * size), (bytes.drop (j * size)).take size⟩ else none := by
  induction fuel generalizing start bytes j with
  | zero =>
    rw [if_neg (by omega)]
    rfl
  | succ fuel ih =>
    rw [chunksFrom]
    by_cases hempty : bytes = []
    · simp [hempty]
    · have hlen : 0 < bytes.length := List.length_pos_iff.mpr hempty
      rw [if_neg (by simpa using hempty)]
      cases j with
      | zero => simp [hlen]
      | succ j =>
        have hstart : start + BitVec.ofNat 8 size + BitVec.ofNat 8 (j * size) = start + BitVec.ofNat 8 ((j + 1) * size) := by
          rw [BitVec.add_assoc, ← BitVec.ofNat_add, Nat.succ_mul, Nat.add_comm size]
        have hdrop : (bytes.drop size).drop (j * size) = bytes.drop ((j + 1) * size) := by
          rw [List.drop_drop, Nat.succ_mul, Nat.add_comm size]
        have hmore : j * size < bytes.length - size ↔ (j + 1) * size < bytes.length := by
          rw [Nat.succ_mul]
          omega
        rw [List.getElem?_cons_succ, ih _ _ (by rw [List.length_drop]; omega), hstart, hdrop]
        simp only [List.length_drop, hmore]

/-- Settles O24: `Emit` gives the chunks fuel for one of them for each byte. -/
theorem emitSplitsByMaxBlock : Obligations.EmitSplitsByMaxBlock := fun p start bytes j =>
  getElem?_chunksFrom p.maxBlock bytes.length p.maxBlockPos start bytes (Nat.le_refl _) j

/-! ### A chunk of a command answers Err (R94, R95) -/

/-- Chunk `k` of a frame begins `k * MAX_BLOCK` registers into its bank. -/
theorem start_of_chunksOf {s : State} {m : Motor} {c : Case} {k : Nat} {b : Block} (hk : (s.chunksOf m c)[k]? = some b) :
    k * s.params.maxBlock < 12 ∧ b.start.toNat = 6 + 16 * m.val + k * s.params.maxBlock := by
  rw [State.chunksOf, emitSplitsByMaxBlock, Frame.length_bytes] at hk
  split at hk
  · next hlt =>
    cases hk
    exact ⟨hlt, by rw [chunk_start_toNat _ _ 12 (bank_fits m (frameOf s.params c)) hlt, bankStart_toNat]⟩
  · cases hk

/-- What a register reads as after chunk `k` of a frame answered Err, where R36 may be relied on: unknown in that chunk, new bytes in
those before it, and old ones in the rest (R94, R95). -/
theorem read_failedAt_frame (s : State) (m : Motor) (c : Case) {k : Nat} {b : Block} (a : Nat) (hi : s.initialized = true)
    (hk : (s.chunksOf m c)[k]? = some b) :
    Memory.read (s.failedAt (.frame m c) k b).mon.regs a =
      if b.start.toNat ≤ a ∧ a < b.start.toNat + b.bytes.length then none
      else if 6 + 16 * m.val ≤ a ∧ a < b.start.toNat then (frameOf s.params c).bytes[a - (6 + 16 * m.val)]?
      else Memory.read s.mon.regs a := by
  obtain ⟨hlt, hstart⟩ := start_of_chunksOf hk
  have hbefore := read_partWay_frame s m c .caller k a hi (Nat.le_of_lt hlt)
  rw [← hstart] at hbefore
  rw [← hbefore]
  exact Memory.read_forgetRange _ _ _ a

/-- Settles O25: the command ends with the failed chunk, in the step that sends it. -/
theorem commandBusErrorIsFatal : Obligations.CommandBusErrorIsFatal := by
  intro m c s k b hready hk herr
  have hrun := run_err .caller (.frame m c) s k b hk herr
  rw [settle_caller_sendFrom _ 0 s herr.1.2] at hrun
  have hexec : exec (caseInstr m c) s = .next (sendFrom (.frame m c) 0 s) := by
    rw [exec_caseInstr, phaseGate, hready]
    rfl
  exact ⟨_, _, hexec, hrun, herr.1.2, rfl, rfl, rfl,
    fun a => read_failedAt_frame s m c a (initialized_of_ready hready) hk⟩

/-! ### A transaction never returns (R95, R146) -/

/-- A blocked machine stays as it is for ever (R146). -/
theorem run_blocked {s : State} (h : s.bus.blocked = true) (n : Nat) : Sys2Proof.core.run n s = .next s :=
  run_still (by rw [step, nextStep, if_pos h]) n

/-- A request whose transaction `k` never returns hangs there, whoever waits for it. -/
theorem hangsAfter_sendFrom (wt : Waiting) (w : Sending) {s : State} {k : Nat} {b : Block} (hb : (w.blocks s.params)[k]? = some b)
    (hnever : s.BusNeverAfter k) :
    HangsAfter k (s.mon.sent (w.relies s) ((w.blocks s.params).take k)) (.next (settle wt (sendFrom w 0 s))) :=
  ⟨_, _, rfl, run_never wt w s k b hb hnever, rfl, rfl, run_blocked rfl⟩

/-- A command, or a shutdown attempt, that passes the phase check and whose chunk `k` never returns. -/
theorem hangsAfter_command (sh : Bool) (wt : Waiting) {m : Motor} {c : Case} {s : State} {k : Nat} {b : Block}
    (hphase : s.mon.phase = .ready ∨ (sh = true ∧ s.mon.phase = .dead)) (hk : (s.chunksOf m c)[k]? = some b)
    (hnever : s.BusNeverAfter k) :
    HangsAfter k (s.mon.sent s.initialized ((s.chunksOf m c).take k)) (.next (settle wt (command sh m.val c.velocity s))) := by
  rw [command_passes sh m c s hphase]
  exact hangsAfter_sendFrom wt (.frame m c) hk hnever

/-- The first request that is left of a line, no signal being there. -/
theorem hangsAfter_issueFirst {m : Motor} {c : Case} {s : State} {k : Nat} {b : Block} (hready : s.mon.phase = .ready)
    (hsignal : s.host.signalIn ≠ some 0) (hk : (s.chunksOf m c)[k]? = some b) (hnever : s.BusNeverAfter k)
    (rest : List (Int × Option Int)) :
    HangsAfter k (s.mon.sent s.initialized ((s.chunksOf m c).take k)) (.next (issueFirst (((m.val : Int), c.velocity) :: rest) s)) := by
  have hdue : s.signalDue = false := by simpa [State.signalDue] using hsignal
  simp only [issueFirst, hdue, Bool.false_eq_true, if_false]
  exact hangsAfter_command false .line (s := s.setPending rest) (.inl hready) hk hnever

/-- The first release that is left of a shutdown, no signal being there or none that matters. -/
theorem hangsAfter_shutdownNext {m : Motor} {s : State} {k : Nat} {b : Block} (hphase : s.mon.phase ≠ .fresh)
    (hsignal : s.host.signalIn ≠ some 0 ∨ s.params.signalShutdown = true) (hk : (s.chunksOf m .release)[k]? = some b)
    (hnever : s.BusNeverAfter k) (rest : List Int) (e : EndKind) :
    HangsAfter k (s.mon.sent s.initialized ((s.chunksOf m .release).take k)) (.next (shutdownNext ((m.val : Int) :: rest) e s)) := by
  rw [shutdownNext_eq m rest e s hsignal]
  exact hangsAfter_command true _ (passes_of_not_fresh hphase) hk hnever

/-- The host's startup sends the first of `InitTransactions` of a Fresh block (R101). -/
theorem step_startup {s : State} (hphase : s.mon.phase = .fresh) (hfree : s.BusFree) (hi : s.call.inbox = [])
    (hstage : s.host.stage = .startup) (hpending : s.host.pending = []) :
    step s = .next (settle .startup (sendFrom .modes 0 s)) := by
  have hrun : runItem .initRequest s = .next (sendFrom .modes 0 s) := exec_initializeChip_fresh hphase
  simp [step, nextStep, hfree.1, hfree.2, hi, hostStep, hstage, hpending, startupStep, hrun]

/-- A direct call of `write_block` that carries bytes to the chip: whether they have registers decides (R33, R91). -/
theorem exec_writeBlock_chip (start : RegAddr) (bytes : List Byte) (s : State) (hne : bytes ≠ []) :
    exec (.writeBlock 0x40 start bytes) s =
      if registerCount < start.toNat + bytes.length then .fault .noSuchRegister
      else .next (finish (busWrite s.initialized ⟨start, bytes⟩ s)) := by
  simp [exec, execWriteBlock, devAddr, hne]

/-- A direct call of `write_block` with operands in their ranges is one transaction (R90). -/
theorem exec_writeBlock (start : RegAddr) (bytes : List Byte) (s : State) (hne : bytes ≠ [])
    (hfit : start.toNat + bytes.length ≤ 256) :
    exec (.writeBlock 0x40 start bytes) s = .next (finish (busWrite s.initialized ⟨start, bytes⟩ s)) :=
  (exec_writeBlock_chip start bytes s hne).trans (if_neg (Nat.not_lt.mpr hfit))

/-- A direct call whose transaction never returns. -/
theorem hangsAfter_writeBlock (start : RegAddr) (bytes : List Byte) {s : State} (hne : bytes ≠ [])
    (hfit : start.toNat + bytes.length ≤ 256) (hnever : s.bus.outcomes.head? = some .never) :
    HangsAfter 0 s.mon (exec (.writeBlock 0x40 start bytes) s) := by
  rw [exec_writeBlock start bytes s hne hfit, busWrite, nextOutcome_of_head hnever]
  exact ⟨_, _, rfl, rfl, rfl, rfl, run_blocked rfl⟩

/-- Settles O26: every way to begin a request comes down to sending its transactions, and a request hangs at the one that never
returns. -/
theorem unreturnedWriteBlocksForEver : Obligations.UnreturnedWriteBlocksForEver := by
  refine ⟨fun m c s k b hk hnever => ⟨fun hready => ?ready, fun hphase hc hsignal => ?release⟩,
    fun s k w hfresh hw hnever => ?modes, fun start bytes _ => hangsAfter_writeBlock start bytes⟩
  case ready =>
    rw [← initialized_of_ready hready]
    refine ⟨?command, fun hrun hsignal => ⟨fun i xs hexp => ?line, fun rest hi hp => ?pending⟩⟩
    case command =>
      rw [← decodeCommand_case, exec_decodeCommand, ← settle_caller_command false m c s (.inl hready) hnever.1.2]
      exact hangsAfter_command false .caller (.inl hready) hk hnever
    case line =>
      rw [exec_requests i _ s hexp, issueLine, if_neg (by simp [hrun])]
      exact hangsAfter_issueFirst hready hsignal hk hnever _
    case pending =>
      rw [step_pending s _ rest hrun hi hp]
      exact hangsAfter_issueFirst hready hsignal hk hnever rest
  case release =>
    subst hc
    refine ⟨fun hm hrun => ?endOfStream, fun rest e hi hstage => ?stopping⟩
    case endOfStream =>
      subst hm
      rw [exec, execEndOfStream, if_neg (by simp [hrun])]
      exact hangsAfter_shutdownNext (m := 0) (s := s.setPending []) hphase hsignal hk hnever [1, 2, 3] .normal
    case stopping =>
      rw [step_stopping s _ e hnever.1 hi hstage]
      exact hangsAfter_shutdownNext hphase hsignal hk hnever rest e
  case modes =>
    have hb : (Sending.modes.blocks s.params)[k]? = some w.block := by
      rw [Sending.blocks, List.getElem?_map, hw, Option.map_some]
    rw [List.map_take]
    refine ⟨?request, fun hi hstage hp => ?startup⟩
    case request =>
      rw [exec_initializeChip_fresh hfresh, ← settle_caller_sendFrom .modes 0 s hnever.1.2]
      exact hangsAfter_sendFrom .caller .modes hb hnever
    case startup =>
      rw [step_startup hfresh hnever.1 hi hstage hp]
      exact hangsAfter_sendFrom .startup .modes hb hnever

/-! ### WRITE_BLOCK (R90) -/

/-- Settles O33: the call's one transaction answers Ok, and its block, which has bytes, lands as any block does. -/
theorem writeBlockSucceeds : Obligations.WriteBlockSucceeds := by
  intro start bytes s hne hfit hok
  have hlen : bytes.length ≤ 1 ↔ bytes.length = 1 := by
    have hpos := List.length_pos_iff.mpr hne
    omega
  rw [exec_writeBlock start bytes s hne hfit, busWrite, nextOutcome_of_head hok]
  simp only [finish, State.recordOk_eq, Block.land, hlen]
  rfl

/-- Settles O34: the call's one transaction answers Err, and the request ends with it. -/
theorem writeBlockFails : Obligations.WriteBlockFails := by
  intro start bytes s hne hfit herr
  rw [exec_writeBlock start bytes s hne hfit, busWrite, nextOutcome_of_head herr]
  rfl

/-- Settles O35: the meaning checks the device, then that there are bytes, then the last register. -/
theorem writeBlockStopsOutsideItsRanges : Obligations.WriteBlockStopsOutsideItsRanges := by
  refine fun dev start bytes s => ⟨fun hdev => ?device, ?empty, fun hne hpast => ?register⟩
  case device => exact if_pos hdev
  case empty => rfl
  case register => exact (exec_writeBlock_chip start bytes s hne).trans (if_pos hpast)

end Sys2Proof.Machine

/-! PROOFS. The text of a line (R103 to R105): what a numeric token is, where whitespace divides a line, and the form that its number of
tokens decides. -/

namespace Sys2Proof.Machine

/-! ### Numeric tokens (R104) -/

/-- An ASCII decimal digit (R104). -/
def IsDigit (b : Byte) : Prop := 0x30 ≤ b.toNat ∧ b.toNat ≤ 0x39

/-- The number that digits spell when they are read after a number `acc`. -/
def spelled (acc : Nat) (ds : List Byte) : Nat := ds.foldl (fun n d => 10 * n + (d.toNat - 0x30)) acc

theorem digitValue_of_isDigit {b : Byte} (h : IsDigit b) : digitValue b = some (b.toNat - 0x30) := if_pos h

theorem digitValue_of_not_isDigit {b : Byte} (h : ¬ IsDigit b) : digitValue b = none := if_neg h

/-- Digits have the number they spell as their value, and a run with another byte in it has none. -/
theorem digitsValue_eq_some {acc n : Nat} {ds : List Byte} :
    digitsValue acc ds = some n ↔ (∀ d ∈ ds, IsDigit d) ∧ n = spelled acc ds := by
  induction ds generalizing acc with
  | nil => simp [digitsValue, spelled, eq_comm]
  | cons b rest ih =>
    by_cases hb : IsDigit b
    · simp only [digitsValue, digitValue_of_isDigit hb, ih, List.forall_mem_cons, hb, true_and]
      rfl
    · simp [digitsValue, digitValue_of_not_isDigit hb, hb]

theorem naturalValue_eq_some {n : Nat} {ds : List Byte} :
    naturalValue ds = some n ↔ ds ≠ [] ∧ (∀ d ∈ ds, IsDigit d) ∧ n = spelled 0 ds := by
  cases ds with
  | nil => simp [naturalValue]
  | cons b rest => simp [naturalValue, digitsValue_eq_some]

/-- A text that begins with a digit has no sign. -/
theorem numericValue_of_isDigit {b : Byte} (hb : IsDigit b) (rest : List Byte) :
    numericValue (b :: rest) = (naturalValue (b :: rest)).map fun (n : Nat) => (n : Int) := by
  rw [numericValue, if_neg (digit_ne b _ hb (by decide)), if_neg (digit_ne b _ hb (by decide))]

/-- A text has a numeric value just where it is digits, with a sign before them or without one. -/
theorem numericValue_eq_some {text : List Byte} {v : Int} :
    numericValue text = some v ↔ ∃ (ds : List Byte) (n : Nat), naturalValue ds = some n ∧
      ((text = ds ∧ v = n) ∨ (text = 0x2B :: ds ∧ v = n) ∨ (text = 0x2D :: ds ∧ v = -(n : Int))) := by
  constructor
  · intro h
    unfold numericValue at h
    split at h
    · cases h
    · next b rest =>
      split at h
      · next hminus =>
        obtain ⟨n, hn, rfl⟩ := Option.map_eq_some_iff.mp h
        exact ⟨rest, n, hn, .inr (.inr ⟨by rw [hminus], rfl⟩)⟩
      · split at h
        · next hplus =>
          obtain ⟨n, hn, rfl⟩ := Option.map_eq_some_iff.mp h
          exact ⟨rest, n, hn, .inr (.inl ⟨by rw [hplus], rfl⟩)⟩
        · obtain ⟨n, hn, rfl⟩ := Option.map_eq_some_iff.mp h
          exact ⟨b :: rest, n, hn, .inl ⟨rfl, rfl⟩⟩
  · rintro ⟨ds, n, hn, ⟨rfl, rfl⟩ | ⟨rfl, rfl⟩ | ⟨rfl, rfl⟩⟩
    · obtain ⟨hne, hdigits, -⟩ := naturalValue_eq_some.mp hn
      obtain ⟨b, rest, rfl⟩ := List.exists_cons_of_ne_nil hne
      rw [numericValue_of_isDigit (hdigits b (List.mem_cons_self ..)), hn, Option.map_some]
    · simp [numericValue, hn]
    · simp [numericValue, hn]

theorem readToken_eq_num {text : List Byte} {v : Int} : readToken text = .num v ↔ numericValue text = some v := by
  unfold readToken
  cases numericValue text <;> simp

/-- Settles O8: a token is numeric where its text has a value, and the digits of that text spell it. -/
theorem numericTokenGrammar : Obligations.NumericTokenGrammar := by
  intro text v
  rw [readToken_eq_num, numericValue_eq_some]
  constructor
  · rintro ⟨ds, n, hn, htext⟩
    obtain ⟨hne, hdigits, rfl⟩ := naturalValue_eq_some.mp hn
    exact ⟨ds, hne, hdigits, htext⟩
  · rintro ⟨ds, hne, hdigits, htext⟩
    exact ⟨ds, spelled 0 ds, naturalValue_eq_some.mpr ⟨hne, hdigits, rfl⟩, htext⟩

/-! ### Whitespace (R103) -/

/-- The five whitespace characters. -/
theorem isSpace_iff (b : Byte) : isSpace b = true ↔ b ∈ [(0x20 : Byte), 0x09, 0x0B, 0x0C, 0x0D] := by
  simp [isSpace, or_assoc]

/-- A whitespace character ends the token being read, if there is one, and the next begins after it. -/
theorem splitFrom_space (cur before : List Byte) {w : Byte} (hw : isSpace w = true) (rest : List Byte) :
    splitFrom cur (before ++ w :: rest) = splitFrom cur before ++ splitFrom [] rest := by
  induction before generalizing cur with
  | nil =>
    simp only [List.nil_append, splitFrom, if_pos hw]
    split <;> rfl
  | cons b before ih =>
    simp only [List.cons_append, splitFrom]
    split
    · split
      · exact ih []
      · rw [ih [], List.cons_append]
    · exact ih (cur ++ [b])

/-- A run of characters that are not whitespace is one token. -/
theorem splitFrom_token {t : List Byte} (hne : t ≠ []) (h : ∀ b ∈ t, isSpace b = false) : splitFrom [] t = [t] := by
  have hrun := splitFrom_run [] t [] h
  rw [List.append_nil, List.nil_append] at hrun
  rw [hrun, splitFrom, if_neg (by simpa using hne)]

/-- Settles O9, from the two lemmas above. -/
theorem whitespaceSeparatesTokens : Obligations.WhitespaceSeparatesTokens := by
  refine ⟨rfl, fun t hne h => ?_, fun before w rest hw => ?_⟩
  · exact splitFrom_token hne fun b hb => Bool.eq_false_iff.mpr fun hspace => h b hb ((isSpace_iff b).mp hspace)
  · exact splitFrom_space [] before ((isSpace_iff w).mpr hw) rest

/-! ### The forms of a line (R105) -/

/-- Settles O7: the decoder matches the list of tokens. -/
theorem lineFormByTokenCount : Obligations.LineFormByTokenCount := by
  intro text
  refine ⟨fun h => ?_, fun t0 h => ?_, fun t0 t1 h => ?_, fun t0 t1 t2 t3 h => ?_, decodeLine_malformed text⟩
  · rw [decodeLine, h]
  · rw [decodeLine, h]
  · rw [decodeLine, h]
  · rw [decodeLine, h]

end Sys2Proof.Machine

/-! PROOFS. The lines of the host (R106 to R110): a line that is a `ParseError`, a line of one request, and a line whose requests are
performed in order, up to a signal (R116). -/

namespace Sys2Proof.Machine

/-! ### Lines that are a `ParseError` (R110, R112) -/

theorem parseError_eq {s : State} (h : s.hostStopped = false) : parseError s = s.parseFailed := by
  rw [parseError, if_neg (by simp [h])]
  rfl

/-- A line of 4 tokens that expands into no requests. -/
theorem exec_setAll_word {t0 t1 t2 t3 : Token} (s : State) (h : ∃ w, .word w ∈ [t0, t1, t2, t3]) :
    exec (.setAll t0 t1 t2 t3) s = .next (parseError s) := by
  obtain ⟨w, hw⟩ := h
  simp only [exec, execSetAll]
  split
  · simp at hw
  · rfl

/-- Settles O40: the line does not expand, so it is reported. -/
theorem setAllFailsAsAWhole : Obligations.SetAllFailsAsAWhole := by
  intro t0 t1 t2 t3 s hrun hword
  rw [exec_setAll_word s hword, parseError_eq hrun]

/-- Settles O41: the row does nothing but report the line. -/
theorem malformedLineIsReported : Obligations.MalformedLineIsReported := by
  intro ts s hrun
  rw [← parseError_eq hrun]
  rfl

/-! ### Requests that follow one another -/

/-- A request of `a` steps, begun by the step that ended in `t`, and the request of `b` steps that the next step begins. -/
theorem run_two {a b : Nat} {t u v w : State} (ha : 0 < a) (hb : 0 < b) (hfirst : Sys2Proof.core.run (a - 1) t = .next u)
    (hstep : step u = .next v) (hrest : Sys2Proof.core.run (b - 1) v = .next w) : Sys2Proof.core.run (a + b - 1) t = .next w := by
  rw [show a + b - 1 = (a - 1) + ((b - 1) + 1) by omega]
  exact (run_add _ _ hfirst).trans ((run_next _ hstep).trans hrest)

theorem requestSteps_congr {s t : State} (h : t.params = s.params) (x : Motor × Option Int) : t.requestSteps x = s.requestSteps x := by
  simp only [State.requestSteps, State.commandSends, State.sends, h]

theorem stepsFor_congr {s t : State} (h : t.params = s.params) (xs : List (Motor × Option Int)) : t.stepsFor xs = s.stepsFor xs := by
  simp only [State.stepsFor, requestSteps_congr h]

theorem stepsFor_cons (x : Motor × Option Int) (xs : List (Motor × Option Int)) (s : State) :
    s.stepsFor (x :: xs) = s.requestSteps x + (s.performed x).stepsFor xs := by
  obtain ⟨-, hparams, -⟩ := performed_frame x s
  rw [stepsFor_congr hparams]
  rfl

theorem stepsFor_pos {xs : List (Motor × Option Int)} (h : xs ≠ []) (s : State) : 0 < s.stepsFor xs := by
  obtain ⟨x, ys, rfl⟩ := List.exists_cons_of_ne_nil h
  rw [stepsFor_cons]
  exact Nat.add_pos_left (requestSteps_pos x s) _

/-! ### What the requests of a line leave of the host -/

theorem performedAll_pending (xs : List (Motor × Option Int)) (s : State) : (s.performedAll xs).host.pending = s.host.pending := by
  obtain ⟨-, -, -, -, -, hhost⟩ := performedAll_frame xs s
  rw [hhost]

theorem performedAll_signalIn (xs : List (Motor × Option Int)) (s : State) : (s.performedAll xs).host.signalIn = s.host.signalIn := by
  obtain ⟨-, -, -, -, -, hhost⟩ := performedAll_frame xs s
  rw [hhost]

/-- The host takes lines as before, whatever requests have been performed. -/
theorem performedAll_hostStopped (xs : List (Motor × Option Int)) (s : State) : (s.performedAll xs).hostStopped = s.hostStopped := by
  obtain ⟨-, -, -, hblocked, htransfer, hhost⟩ := performedAll_frame xs s
  rw [State.hostStopped, hblocked, htransfer, hhost]
  rfl

/-! ### A line of one request (R107, R108) -/

/-- Without a signal announced, a line of one request issues it, and leaves what was left already. -/
theorem exec_line_single {i : Instr} {n : Int} {vel : Option Int} {s : State} (hi : i.requests = some [(n, vel)]) (hrun : s.Running) :
    exec i s = .next (subCommand n vel s) := by
  obtain ⟨hstop, hsignal⟩ := hrun
  have hdue : s.signalDue = false := by simp [State.signalDue, hsignal]
  rw [exec_requests i _ s hi, issueLine, if_neg (by simp [hstop])]
  simp only [List.cons_append, issueFirst, hdue, Bool.false_eq_true, if_false]
  rfl

/-- A request of a line whose transactions all answer Ok, without a signal announced: its chunks are sent, one in each step. -/
theorem subCommand_sendsUpTo (m : Motor) (c : Case) {s : State} (hrun : s.Running) (hready : s.mon.phase = .ready)
    (hok : s.BusOk (s.commandSends m c.velocity)) :
    s.SendsUpTo (.frame m c) .line (subCommand m.val c.velocity s) (s.commanded m c.velocity) := by
  refine ⟨fun j h1 hj => ?_, ?_⟩
  · rw [count_frame] at hj
    exact command_part false .line m c s j (.inl hready) (hok.mono (Nat.le_of_lt hj)) h1 hj
  · have hlast := command_ok false .line m c s (.inl hready) hok
    rwa [← count_frame, react, tick_of_no_signal (s := s.commanded m c.velocity) hrun.2] at hlast

/-- A line of one request whose index is out of range: one diagnostic, and no other effect (R111). -/
theorem exec_line_bad_index {i : Instr} {n : Int} {vel : Option Int} {s : State} (hi : i.requests = some [(n, vel)]) (hrun : s.Running)
    (hready : s.mon.phase = .ready) (hn : n < 0 ∨ 3 < n) :
    exec i s = .next (s.rejectedWith (.motorIndex n) ⟨.outOfRangeMotorIndex, .line s.host.line, some n⟩) := by
  obtain ⟨hfree, -⟩ := hostStopped_false hrun.1
  rw [exec_line_single hi hrun, subCommand_rejected n vel _ s hfree hready (validate_bad_index n vel hn),
    tick_of_no_signal (s := s.rejectedWith _ _) hrun.2]
  rfl

/-- Settles O37: the line is one release, or it is reported. -/
theorem releaseOneReleasesItsMotor : Obligations.ReleaseOneReleasesItsMotor := by
  intro s hrun hready
  refine ⟨fun m hok => ⟨_, exec_line_single rfl hrun, subCommand_sendsUpTo m .release hrun hready hok⟩,
    fun n hn => exec_line_bad_index rfl hrun hready hn, fun w => ?_⟩
  rw [← parseError_eq hrun.1]
  rfl

/-- A numeric index makes a line of 2 tokens one request, whatever the second token is. -/
theorem requests_setOne (n : Int) (t1 : Token) : ∃ vel, (Instr.setOne (.num n) t1).requests = some [(n, vel)] := by
  cases t1 with
  | num v => exact ⟨some v, rfl⟩
  | word w => exact ⟨none, rfl⟩

/-- Settles O38: the line is one command, or one release, or it is reported. -/
theorem setOneSetsItsMotor : Obligations.SetOneSetsItsMotor := by
  intro s hrun hready hok
  refine ⟨fun m v => ⟨_, exec_line_single rfl hrun, ?set⟩,
    fun m w => ⟨_, exec_line_single rfl hrun, subCommand_sendsUpTo m .release hrun hready (hok.mono (commandSends_le s m none))⟩,
    fun n t1 hn => ?index, fun w t1 => ?word⟩
  case set =>
    have hlast := subCommand_performed (m, some v) s hready hok
    rwa [tick_of_no_signal (s := s.performed (m, some v)) ((performedAll_signalIn [(m, some v)] s).trans hrun.2)] at hlast
  case index =>
    obtain ⟨vel, hreq⟩ := requests_setOne n t1
    exact exec_line_bad_index hreq hrun hready hn
  case word =>
    rw [← parseError_eq hrun.1]
    rfl

/-! ### A line of several requests (R106, R109) -/

/-- The requests of a line, as the host issues them. -/
def requestsOf (xs : List (Motor × Option Int)) : List (Int × Option Int) := xs.map fun x => ((x.1.val : Int), x.2)

/-- A signal that comes nearer with each of several requests. -/
theorem signal_map_sub (signal : Option Nat) (j k : Nat) : (signal.map (· - j)).map (· - k) = signal.map (· - (j + k)) := by
  cases signal with
  | none => rfl
  | some n => simp [Nat.sub_sub]

/-- No signal is there before `n` requests have returned (R116). -/
def NoSignalBefore (n : Nat) (signal : Option Nat) : Prop := ∀ k, signal = some k → n ≤ k

theorem noSignalBefore_none (n : Nat) : NoSignalBefore n none := nofun

theorem noSignalBefore_some {n k : Nat} (h : n ≤ k) : NoSignalBefore n (some k) := fun _ hk => Option.some.inj hk ▸ h

theorem NoSignalBefore.ne_zero {n : Nat} {signal : Option Nat} (h : NoSignalBefore (n + 1) signal) : signal ≠ some 0 :=
  fun h0 => Nat.not_succ_le_zero n (h 0 h0)

theorem NoSignalBefore.afterOne {n : Nat} {signal : Option Nat} (h : NoSignalBefore (n + 1) signal) :
    NoSignalBefore n (signal.map (· - 1)) := by
  intro k hk
  obtain ⟨j, hj, rfl⟩ := Option.map_eq_some_iff.mp hk
  exact Nat.le_sub_one_of_lt (h j hj)

/-- The requests that are left are performed in order, as long as no signal is there before the last of them. Those after the first,
which are taken by steps of their own, need an empty inbox. -/
theorem run_issueFirst (x : Motor × Option Int) (xs : List (Motor × Option Int)) (rest old : List (Int × Option Int))
    (signal : Option Nat) (s : State) (hrun : s.hostStopped = false) (hready : s.mon.phase = .ready)
    (hok : s.BusOk (12 * (x :: xs).length)) (hsignal : NoSignalBefore (x :: xs).length signal)
    (hinbox : xs ≠ [] → s.call.inbox = []) :
    Sys2Proof.core.run (s.stepsFor (x :: xs) - 1) (issueFirst (requestsOf (x :: xs) ++ rest) (s.withWork old signal)) =
      .next ((s.performedAll (x :: xs)).withWork rest (signal.map (· - (x :: xs).length))) := by
  induction xs generalizing x old signal s with
  | nil => exact issueFirst_performed x rest old signal s hready hok hsignal.ne_zero
  | cons y ys ih =>
    simp only [List.length_cons] at hok hsignal
    obtain ⟨hphase, -, hinbox', -⟩ := performed_frame x s
    have hfirst := issueFirst_performed x (requestsOf (y :: ys) ++ rest) old signal s hready (hok.mono (by omega))
      hsignal.ne_zero
    have hi : (s.performed x).call.inbox = [] := hinbox'.trans (hinbox (List.cons_ne_nil y ys))
    have hrun' : (s.performed x).hostStopped = false := (performedAll_hostStopped [x] s).trans hrun
    have hstep := step_pending ((s.performed x).withWork (requestsOf (y :: ys) ++ rest) (signal.map (· - 1))) _ _ hrun' hi rfl
    have hrest := ih y (requestsOf (y :: ys) ++ rest) (signal.map (· - 1)) (s.performed x) hrun' (hphase.trans hready)
      (hok.performed x s _ _ (by simp only [List.length_cons]; omega)) hsignal.afterOne fun _ => hi
    rw [signal_map_sub, Nat.add_comm 1] at hrest
    rw [stepsFor_cons]
    exact run_two (requestSteps_pos x s) (stepsFor_pos (List.cons_ne_nil y ys) _) hfirst hstep hrest

/-- The requests of a line up to its `j`-th are performed in order, as long as no signal is there before that one; the others are left,
before what was left already. -/
theorem exec_line_performed {i : Instr} {xs : List (Motor × Option Int)} {j : Nat} {s : State} (hi : i.expandsTo xs) (h1 : 1 ≤ j)
    (hj : j ≤ xs.length) (hrun : s.hostStopped = false) (hready : s.mon.phase = .ready) (hok : s.BusOk 48)
    (hsignal : NoSignalBefore j s.host.signalIn) (hinbox : j ≠ 1 → s.call.inbox = []) :
    exec i s = .next (issueLine (requestsOf xs) s) ∧
    Sys2Proof.core.run (s.stepsFor (xs.take j) - 1) (issueLine (requestsOf xs) s) =
      .next ((s.performedAll (xs.take j)).withWork (requestsOf (xs.drop j) ++ s.host.pending) (s.host.signalIn.map (· - j))) := by
  refine ⟨exec_requests i _ s hi, ?_⟩
  obtain ⟨-, hfour⟩ := length_requests i _ hi
  rw [List.length_map] at hfour
  have hlen : (xs.take j).length = j := List.length_take_of_le hj
  have hline : issueLine (requestsOf xs) s =
      issueFirst (requestsOf (xs.take j) ++ (requestsOf (xs.drop j) ++ s.host.pending)) (s.withWork s.host.pending s.host.signalIn) := by
    rw [issueLine, if_neg (by simp [hrun]), ← List.append_assoc, requestsOf, requestsOf, requestsOf, ← List.map_append,
      List.take_append_drop]
    rfl
  obtain ⟨x, ys, hxs⟩ := List.exists_cons_of_length_pos (show 0 < (xs.take j).length by omega)
  rw [hline]
  rw [hxs] at hlen ⊢
  have hlast := run_issueFirst x ys (requestsOf (xs.drop j) ++ s.host.pending) s.host.pending s.host.signalIn s hrun hready
    (hok.mono (by omega)) (by rwa [hlen]) fun hys => hinbox fun hone => hys (List.eq_nil_of_length_eq_zero (by simpa [hone] using hlen))
  rwa [hlen] at hlast

/-- Without a signal announced, the state after the first `j` requests of a line is the one `afterRequests` gives. -/
theorem withWork_eq_afterRequests {s : State} (xs : List (Motor × Option Int)) (j : Nat) (h : s.host.signalIn = none) :
    (s.performedAll (xs.take j)).withWork (requestsOf (xs.drop j) ++ s.host.pending) (s.host.signalIn.map (· - j)) =
      s.afterRequests xs j := by
  have hsignal : s.host.signalIn.map (· - j) = (s.performedAll (xs.take j)).host.signalIn := by
    rw [performedAll_signalIn, h]
    rfl
  rw [hsignal]
  rfl

/-- After the last of its requests nothing of the line is left. -/
theorem afterRequests_all (xs : List (Motor × Option Int)) (s : State) : s.afterRequests xs xs.length = s.performedAll xs := by
  rw [State.afterRequests, List.take_length, List.drop_length, List.map_nil, List.nil_append, ← performedAll_pending xs s]

/-- A line whose requests are performed in order, without a signal announced. -/
theorem exec_line_inOrder {i : Instr} {x : Motor × Option Int} {xs : List (Motor × Option Int)} {s : State}
    (hi : i.expandsTo (x :: xs)) (hrun : s.Running) (hready : s.mon.phase = .ready) (hok : s.BusOk 48) :
    ∃ t, exec i s = .next t ∧
      Sys2Proof.core.run (s.requestSteps x - 1) t = .next (s.afterRequests (x :: xs) 1) ∧
      (s.call.inbox = [] → ∀ j, 1 ≤ j → j ≤ (x :: xs).length →
        Sys2Proof.core.run (s.stepsFor ((x :: xs).take j) - 1) t = .next (s.afterRequests (x :: xs) j)) ∧
      s.afterRequests (x :: xs) (x :: xs).length = s.performedAll (x :: xs) := by
  obtain ⟨hstop, hsignal⟩ := hrun
  have hrequests (j : Nat) (h1 : 1 ≤ j) (hj : j ≤ (x :: xs).length) (hinbox : j ≠ 1 → s.call.inbox = []) :=
    exec_line_performed hi h1 hj hstop hready hok (hsignal ▸ noSignalBefore_none j) hinbox
  simp only [withWork_eq_afterRequests _ _ hsignal] at hrequests
  obtain ⟨hexec, hfirst⟩ := hrequests 1 (Nat.le_refl 1) (Nat.succ_le_succ (Nat.zero_le _)) fun h => absurd rfl h
  exact ⟨_, hexec, hfirst, fun hinbox j h1 hj => (hrequests j h1 hj fun _ => hinbox).2, afterRequests_all (x :: xs) s⟩

/-- Settles O36: the line is the four releases. -/
theorem releaseAllReleasesInOrder : Obligations.ReleaseAllReleasesInOrder := fun _ hrun hready hok =>
  exec_line_inOrder (i := .releaseAll) (x := (0, none)) (xs := [(1, none), (2, none), (3, none)]) rfl hrun hready hok

/-- Settles O39: the line is the four velocities, each of which is set or rejected. -/
theorem setAllSetsInOrder : Obligations.SetAllSetsInOrder := fun v0 v1 v2 v3 _ hrun hready hok =>
  exec_line_inOrder (i := .setAll (.num v0) (.num v1) (.num v2) (.num v3)) (x := (0, some v0))
    (xs := [(1, some v1), (2, some v2), (3, some v3)]) rfl hrun hready hok

/-! ### A signal within a line (R116) -/

/-- A signal that is there is taken before the next request of a line. -/
theorem step_pending_signal {s : State} (hrun : s.hostStopped = false) (hi : s.call.inbox = []) (hp : s.host.pending ≠ [])
    (hsignal : s.host.signalIn = some 0) : step s = .next (takeSignal s) := by
  obtain ⟨x, rest, hx⟩ := List.exists_cons_of_ne_nil hp
  have hdue : s.signalDue = true := by simp [State.signalDue, hsignal]
  rw [step_pending s x rest hrun hi hx]
  simp only [issueFirst, hdue, if_true]

/-- What the taking of a signal leaves of the host (R116). -/
theorem takeSignal_eq (s : State) : takeSignal s = { s with
    host := { s.host with
      stage := if s.params.signalShutdown then .stopping [0, 1, 2, 3] .signalled else .ended .signalled
      pending := [] } } := by
  unfold takeSignal
  split <;> rfl

/-- Settles O47: after its first `k` requests the line has others left, and the signal is taken before these. -/
theorem signalAbandonsTheRestOfALine : Obligations.SignalAbandonsTheRestOfALine := by
  intro i xs k s hi h1 hk hrun hsignal hinbox hready hok
  obtain ⟨hexec, hperformed⟩ := exec_line_performed hi h1 hk.le hrun hready hok
    (hsignal ▸ noSignalBefore_some (Nat.le_refl k)) fun _ => hinbox
  rw [hsignal, Option.map_some, Nat.sub_self] at hperformed
  obtain ⟨-, hparams, hinbox', -⟩ := performedAll_frame (xs.take k) s
  have hperforms : xs.take k ≠ [] := by
    rw [ne_eq, List.take_eq_nil_iff, not_or, ← List.length_eq_zero_iff]
    omega
  have hleft : requestsOf (xs.drop k) ++ s.host.pending ≠ [] := by simp [requestsOf, hk]
  have hstep := step_pending_signal
    (s := (s.performedAll (xs.take k)).withWork (requestsOf (xs.drop k) ++ s.host.pending) (some 0))
    ((performedAll_hostStopped _ s).trans hrun) (hinbox'.trans hinbox) hleft rfl
  refine ⟨_, hexec, ?_⟩
  rw [← Nat.sub_add_cancel (stepsFor_pos hperforms s), ← hparams]
  exact (run_snoc _ hperformed).trans (hstep.trans (congrArg _ (takeSignal_eq _)))

end Sys2Proof.Machine

/-! PROOFS. The shutdown release-all (R113, R114, R116): its releases all answering Ok, what the motors read as after it, a block that is
Fresh, and a signal before it and within it. -/

namespace Sys2Proof.Machine

/-! ### What a release leaves in its bank (R24, R86, R139) -/

/-- Bytes that land nowhere known leave the register they begin at unknown: the chunk that begins there has several bytes, and no later
one reaches back to it (R93, R139). -/
theorem read_landBlocks_first (size fuel : Nat) (hsize : 2 ≤ size) (start : RegAddr) (bytes : List Byte) (hlen : 2 ≤ bytes.length)
    (hfit : start.toNat + bytes.length ≤ 256) (m : Memory) :
    Memory.read (landBlocks false m (chunksFrom size (fuel + 1) start bytes)) start.toNat = none := by
  have hne : ¬ bytes.isEmpty = true := by
    rw [List.isEmpty_iff_length_eq_zero]
    omega
  have htwo : 2 ≤ (bytes.take size).length := by
    rw [List.length_take]
    omega
  rw [chunksFrom, if_neg hne, landBlocks, List.foldl_cons, ← landBlocks, read_landBlocks_off]
  · rw [Block.land, if_neg fun h => h.elim Bool.false_ne_true (Nat.not_le.mpr htwo), Memory.read_forgetRange,
      if_pos ⟨Nat.le_refl _, Nat.lt_add_of_pos_right (Nat.lt_of_lt_of_le Nat.two_pos htwo)⟩]
  · rintro b hb ⟨hlo, -⟩
    by_cases hlast : bytes.length ≤ size
    · rw [List.drop_eq_nil_of_le hlast] at hb
      cases fuel <;> simp [chunksFrom] at hb
    · have hstart := chunk_start_toNat size start bytes.length hfit (by omega)
      have hdrop : (bytes.drop size).length = bytes.length - size := List.length_drop
      obtain ⟨-, hfirst, -⟩ := chunksFrom_inside size fuel (by omega) _ _ (by rw [hstart, hdrop]; omega) b hb
      omega

/-- A motor whose bank begins with an unknown register reads as unknown (R24). -/
theorem motor_unknown {s : State} {m : Motor} (h : Memory.read s.mon.regs (6 + 16 * m.val) = none) : s.motor m = .unknown := by
  have hbank : bankBytes s.mon.regs (bankStart m).toNat bankLen = none := by
    rw [bankStart_toNat, bankLen, bankBytes, h]
  simp only [State.motor, hbank]

/-- Where `initialize` never succeeded, a command's chunks land nowhere known, but single bytes (R139). -/
theorem commanded_regs_uninitialized (m : Motor) (c : Case) {s : State} (hi : s.initialized = false) :
    (s.commanded m c.velocity).mon.regs = landBlocks false s.mon.regs (splitBlock s.params (bankStart m) (frameOf s.params c).bytes) := by
  rw [commandBytes_case]
  simp only [State.commanded, State.accepted, hi, Bool.false_eq_true, if_false]
  rfl

/-- Chunks of one byte each land in any case, so the motor reads as its case (R139). -/
theorem motor_commanded_singles (m : Motor) (c : Case) {s : State} (hi : s.initialized = false) (hone : s.params.maxBlock = 1) :
    (s.commanded m c.velocity).motor m = .state c.logical := by
  have hsingle (b : Block) (hb : b ∈ splitBlock s.params (bankStart m) (frameOf s.params c).bytes) : b.bytes.length ≤ 1 := by
    obtain ⟨j, hj⟩ := List.mem_iff_getElem?.mp hb
    rw [emitSplitsByMaxBlock, hone] at hj
    split at hj
    · cases hj
      exact List.length_take_le _ _
    · cases hj
  refine motor_of_frame _ m c fun k hk => ?_
  rw [commanded_regs_uninitialized m c hi, landBlocks_singles _ _ _ hsingle, writeBlocks_splitBlock _ _ _ (bank_fits m _),
    Memory.read_writeBytes, bankStart_toNat, Frame.length_bytes, if_pos (by omega), Nat.add_sub_cancel_left]
  rfl

/-- A released motor reads as floating, or unknown where R36 may not be relied on (R139). -/
theorem motor_released (m : Motor) (s : State) : (s.commanded m none).motor m = s.releasedReading := by
  unfold State.releasedReading
  split
  · next h =>
    cases hi : s.initialized with
    | true => exact motor_commanded_same s m .release hi
    | false => exact motor_commanded_singles m .release hi (h.resolve_left (by simp [hi]))
  · next h =>
    obtain ⟨hi, hone⟩ := not_or.mp h
    have hpos := s.params.maxBlockPos
    refine motor_unknown ?_
    change Memory.read (s.commanded m Case.release.velocity).mon.regs _ = none
    rw [commanded_regs_uninitialized m .release (Bool.eq_false_iff.mpr hi), ← bankStart_toNat]
    exact read_landBlocks_first _ 11 (by omega) _ _ (by simp) (bank_fits m _) _

/-- The releases of other motors leave a motor's bank (R67). -/
theorem motor_performedAll_other {m : Motor} (ms : List Motor) (s : State) (h : m ∉ ms) :
    (s.performedAll (ms.map (·, none))).motor m = s.motor m := by
  induction ms generalizing s with
  | nil => rfl
  | cons m' ms ih =>
    obtain ⟨hne, hnot⟩ := not_or.mp (mt List.mem_cons.mpr h)
    exact (ih (s.commanded m' none) hnot).trans (motor_commanded_other s none hne)

/-- A motor that is among those released, in any order, reads as released. -/
theorem motor_performedAll_released {m : Motor} (ms : List Motor) (s : State) (h : m ∈ ms) :
    (s.performedAll (ms.map (·, none))).motor m = s.releasedReading := by
  induction ms generalizing s with
  | nil => cases h
  | cons m' ms ih =>
    by_cases hlater : m ∈ ms
    · exact ih (s.commanded m' none) hlater
    · obtain rfl := (List.mem_cons.mp h).resolve_right hlater
      exact (motor_performedAll_other ms (s.commanded m none) hlater).trans (motor_released m s)

/-- The motors, in the order of a release-all (R106, R113). -/
def motors : List Motor := [0, 1, 2, 3]

theorem mem_motors (m : Motor) : m ∈ motors := by
  revert m
  decide

theorem motor_of_released (s : State) (m : Motor) : s.released.motor m = s.releasedReading :=
  motor_performedAll_released motors s (mem_motors m)

/-! ### The releases of a shutdown, all answering Ok (R113) -/

/-- The motors still to be released, as the host holds them. -/
def indices (ms : List Motor) : List Int := ms.map fun m => (m.val : Int)

theorem indices_cons (m : Motor) (ms : List Motor) : indices (m :: ms) = (m.val : Int) :: indices ms := rfl

/-- Where the host is when the releases of `rest` are left of its shutdown. -/
def stageLeft (rest : List Int) (e : EndKind) : HostStage :=
  match rest with
  | [] => .ended e
  | _ :: _ => .stopping rest e

/-- The host at another stage, with no request left of a line, and another signal to come. -/
def State.atStage (stage : HostStage) (signal : Option Nat) (s : State) : State :=
  { s with host := { s.host with stage := stage, pending := [], signalIn := signal } }

/-- The host goes on to the releases that are left, or ends. -/
theorem shutdownLeft_atStage (rest : List Int) (e : EndKind) (stage : HostStage) (signal : Option Nat) (s : State) :
    (s.atStage stage signal).shutdownLeft rest e = s.atStage (stageLeft rest e) signal := by
  cases rest <;> rfl

/-- A release that succeeds, no signal being there or none that matters: it does not depend on where the host is. -/
theorem run_release (m : Motor) (rest : List Int) (e : EndKind) (stage : HostStage) (signal : Option Nat) {s : State}
    (hsignal : signal ≠ some 0 ∨ s.params.signalShutdown = true) (hphase : s.mon.phase ≠ .fresh) (hok : s.BusOk 12) :
    Sys2Proof.core.run (s.commandSends m none - 1) (shutdownNext ((m.val : Int) :: rest) e (s.atStage stage signal)) =
      .next ((s.commanded m none).atStage (stageLeft rest e) (signal.map (· - 1))) := by
  have hlast := shutdownNext_ok m rest e (s.atStage stage signal) hsignal hphase (hok.mono (commandSends_le s m none))
  exact hlast.trans (congrArg _ (shutdownLeft_atStage rest e stage _ (s.commanded m none)))

theorem stepsFor_release (m : Motor) (ms : List Motor) (s : State) :
    s.stepsFor ((m :: ms).map (·, none)) = s.commandSends m none + (s.commanded m none).stepsFor (ms.map (·, none)) :=
  stepsFor_cons (m, none) _ s

theorem performedAll_release (m : Motor) (ms : List Motor) (s : State) :
    s.performedAll ((m :: ms).map (·, none)) = (s.commanded m none).performedAll (ms.map (·, none)) := rfl

/-- Releases that succeed, one after the other, no signal being there before the last of them, or none that matters. -/
theorem run_releases (m : Motor) (ms : List Motor) (rest : List Int) (e : EndKind) (stage : HostStage) (signal : Option Nat) (s : State)
    (hsignal : s.params.signalShutdown = true ∨ NoSignalBefore (m :: ms).length signal) (hphase : s.mon.phase ≠ .fresh)
    (hok : s.BusOk (12 * (m :: ms).length)) (hinbox : ms ≠ [] → s.call.inbox = []) :
    Sys2Proof.core.run (s.stepsFor ((m :: ms).map (·, none)) - 1) (shutdownNext (indices (m :: ms) ++ rest) e (s.atStage stage signal)) =
      .next ((s.performedAll ((m :: ms).map (·, none))).atStage (stageLeft rest e) (signal.map (· - (m :: ms).length))) := by
  induction ms generalizing m stage signal s with
  | nil =>
    exact run_release m rest e stage signal (hsignal.symm.imp_left NoSignalBefore.ne_zero) hphase hok
  | cons m' ms ih =>
    simp only [List.length_cons] at hok hsignal
    have hinbox' : s.call.inbox = [] := hinbox (List.cons_ne_nil m' ms)
    have hok' := hok.commanded m none s _ (12 * (m' :: ms).length) (by simp only [List.length_cons]; omega)
    have hfirst := run_release m (indices (m' :: ms) ++ rest) e stage signal (hsignal.symm.imp_left NoSignalBefore.ne_zero) hphase
      (hok.mono (by omega))
    have hstep := step_stopping
      ((s.commanded m none).atStage (.stopping (indices (m' :: ms) ++ rest) e) (signal.map (· - 1))) _ e hok'.1 hinbox' rfl
    have hrest := ih m' (.stopping (indices (m' :: ms) ++ rest) e) (signal.map (· - 1)) (s.commanded m none)
      (hsignal.imp_right NoSignalBefore.afterOne) hphase hok' fun _ => hinbox'
    rw [signal_map_sub, Nat.add_comm 1] at hrest
    rw [stepsFor_release, performedAll_release, indices_cons m, List.cons_append]
    exact run_two (commandSends_pos s m none) (stepsFor_pos (xs := (m' :: ms).map (·, none)) (List.cons_ne_nil _ _) _) hfirst hstep
      hrest

theorem releases_take (n : Nat) : releases.take n = (motors.take n).map (·, none) := by
  rw [List.map_take]
  rfl

/-- Releases that succeed change nothing of the host. -/
theorem performedAll_releases_host (ms : List Motor) (s : State) : (s.performedAll (ms.map (·, none))).host = s.host := by
  induction ms generalizing s with
  | nil => rfl
  | cons m ms ih => exact ih (s.commanded m none)

/-- The shutdown's releases up to its `n`-th, all answering Ok, no signal being there before that one, or none that matters. -/
theorem run_shutdown {n : Nat} (h1 : 1 ≤ n) (hn : n ≤ 4) (e : EndKind) (stage : HostStage) (signal : Option Nat) (s : State)
    (hsignal : s.params.signalShutdown = true ∨ NoSignalBefore n signal) (hphase : s.mon.phase ≠ .fresh)
    (hok : s.BusOk 48) (hinbox : n ≠ 1 → s.call.inbox = []) :
    Sys2Proof.core.run (s.stepsFor (releases.take n) - 1) (shutdownNext [0, 1, 2, 3] e (s.atStage stage signal)) =
      .next ((s.performedAll (releases.take n)).atStage (stageLeft (indices (motors.drop n)) e)
        (signal.map (· - n))) := by
  have hlen : (motors.take n).length = n := List.length_take_of_le hn
  have hall : ([0, 1, 2, 3] : List Int) = indices (motors.take n) ++ indices (motors.drop n) := by
    rw [indices, indices, ← List.map_append, List.take_append_drop]
    rfl
  obtain ⟨m, ms, hms⟩ := List.exists_cons_of_length_pos (show 0 < (motors.take n).length by omega)
  rw [releases_take, hall]
  rw [hms] at hlen ⊢
  have hlast := run_releases m ms (indices (motors.drop n)) e stage signal s (by rwa [hlen]) hphase
    (hok.mono (by omega)) fun h => hinbox fun hone => h (List.eq_nil_of_length_eq_zero (by simpa [hone] using hlen))
  rwa [hlen] at hlast

/-- The whole shutdown, begun in a step of its own, with no signal announced or one there that does not stop it. -/
theorem run_stopping (e : EndKind) {s : State} (hstage : s.host.stage = .stopping [0, 1, 2, 3] e) (hpending : s.host.pending = [])
    (hsignal : s.host.signalIn = none ∨ s.host.signalIn = some 0 ∧ s.params.signalShutdown = true) (hphase : s.mon.phase ≠ .fresh)
    (hok : s.BusOk 48) (hinbox : s.call.inbox = []) :
    Sys2Proof.core.run (s.stepsFor releases) s = .next (s.released.atStage (.ended e) s.host.signalIn) := by
  have hself : s.atStage s.host.stage s.host.signalIn = s := by rw [State.atStage, ← hpending]
  have hpasses : s.params.signalShutdown = true ∨ NoSignalBefore 4 s.host.signalIn := by
    rcases hsignal with h | ⟨-, h⟩
    · exact .inr (h ▸ noSignalBefore_none 4)
    · exact .inl h
  have hstay : s.host.signalIn.map (· - 4) = s.host.signalIn := by
    rcases hsignal with h | ⟨h, -⟩
    · rw [h, Option.map_none]
    · rw [h, Option.map_some]
  have hlast := run_shutdown (n := 4) (by decide) (Nat.le_refl 4) e s.host.stage s.host.signalIn s hpasses hphase hok fun _ => hinbox
  rw [hself, hstay] at hlast
  rw [← Nat.sub_add_cancel (stepsFor_pos (xs := releases) (List.cons_ne_nil _ _) s),
    run_next _ (step_stopping s _ e hok.1 hinbox hstage)]
  exact hlast

/-! ### The end of the stream (R113) -/

/-- The end of the stream begins the shutdown. -/
theorem exec_endOfStream {s : State} (h : s.hostStopped = false) :
    exec .endOfStream s = .next (shutdownNext [0, 1, 2, 3] .normal (s.atStage s.host.stage s.host.signalIn)) := by
  rw [exec, execEndOfStream, if_neg (by simp [h])]
  rfl

/-- A release that a Fresh block refuses records its fault, and the shutdown goes on (R78, R124). -/
theorem shutdownNext_fresh (i : Int) (rest : List Int) (e : EndKind) (stage : HostStage) {signal : Option Nat} {s : State}
    (hfree : s.BusFree) (hphase : s.mon.phase = .fresh) (hsignal : signal = none) :
    shutdownNext (i :: rest) e (s.atStage stage signal) = (s.faulted .notInitialized).atStage (stageLeft rest e) signal := by
  subst hsignal
  have hcommand : command true i none (s.atStage stage none) = (s.faulted .notInitialized).atStage stage none := by
    simp only [command, phaseGate, State.atStage, hphase]
    rfl
  have hdue : (s.atStage stage none).signalDue = false := rfl
  simp only [shutdownNext, hdue, Bool.false_and, Bool.false_eq_true, if_false, hcommand]
  simp only [settle, State.atStage, State.faulted_bus, hfree.1, hfree.2, Bool.false_eq_true, if_false, react, afterRelease]
  cases rest <;> rfl

/-- The releases that a Fresh block has left fault one after the other, one in each step. -/
theorem run_fresh (rest : List Int) (e : EndKind) {signal : Option Nat} {s : State} (hfree : s.BusFree)
    (hphase : s.mon.phase = .fresh) (hsignal : signal = none) (hinbox : s.call.inbox = []) :
    Sys2Proof.core.run rest.length ((s.faulted .notInitialized).atStage (stageLeft rest e) signal) =
      .next ((s.faulted .notInitialized).atStage (.ended e) signal) := by
  induction rest with
  | nil => rfl
  | cons i rest ih =>
    have hstep := step_stopping ((s.faulted .notInitialized).atStage (stageLeft (i :: rest) e) signal) (i :: rest) e hfree hinbox rfl
    rw [shutdownNext_fresh i rest e _ (s := s.faulted .notInitialized) hfree hphase hsignal, faulted_twice] at hstep
    rw [List.length_cons, run_next _ hstep, ih]

/-- Settles O42: the end of the stream begins the shutdown, whose releases pass, or, on a Fresh block, fault. -/
theorem endOfStreamReleasesEveryMotor : Obligations.EndOfStreamReleasesEveryMotor := by
  intro s hrun hsignal
  obtain ⟨hfree, -⟩ := hostStopped_false hrun
  refine ⟨fun hphase hok => ?ok, fun hphase => ?fresh⟩
  case ok =>
    have hreleases (n : Nat) (h1 : 1 ≤ n) (hn : n ≤ 4) (hinbox : n ≠ 1 → s.call.inbox = []) :=
      run_shutdown h1 hn .normal s.host.stage s.host.signalIn s (.inr (hsignal ▸ noSignalBefore_none n)) hphase hok hinbox
    have hstay (n : Nat) : s.host.signalIn.map (· - n) = s.host.signalIn := by
      rw [hsignal]
      rfl
    simp only [hstay] at hreleases
    exact ⟨_, exec_endOfStream hrun, hreleases 1 (by decide) (by decide) fun h => absurd rfl h,
      fun hinbox => hreleases 4 (by decide) (by decide) fun _ => hinbox, motor_of_released s⟩
  case fresh =>
    refine ⟨_, rfl, ?_, run_fresh [1, 2, 3] .normal hfree hphase hsignal⟩
    rw [exec_endOfStream hrun, shutdownNext_fresh 0 [1, 2, 3] .normal s.host.stage hfree hphase hsignal]
    rfl

/-! ### A signal before the shutdown and within it (R116) -/

/-- A signal that is there is taken before the next line is read, and before the next request of a line. -/
theorem step_signal {s : State} (hrun : s.hostStopped = false) (hi : s.call.inbox = [])
    (hwork : s.host.stage = .reading ∨ s.host.pending ≠ []) (hsignal : s.host.signalIn = some 0) : step s = .next (takeSignal s) := by
  by_cases hp : s.host.pending = []
  · have hstage := hwork.resolve_right (not_not_intro hp)
    obtain ⟨⟨hb, ht⟩, -⟩ := hostStopped_false hrun
    simp [step, nextStep, hb, ht, hi, hostStep, hstage, hp, readingStep, State.signalDue, hsignal]
  · exact step_pending_signal hrun hi hp hsignal

/-- Settles O46: the signal ends the process, or begins a release-all that it does not stop. -/
theorem signalEndsLineProcessing : Obligations.SignalEndsLineProcessing := by
  intro s hrun hi hwork hsignal
  have hstep := step_signal hrun hi hwork hsignal
  rw [takeSignal_eq] at hstep
  refine ⟨fun hno => ?ends, fun hyes => ?begins⟩
  case ends =>
    rw [if_neg (by simp [hno])] at hstep
    exact hstep
  case begins =>
    rw [if_pos hyes] at hstep
    refine ⟨hstep, fun hphase hok => ?_⟩
    have hlast := run_stopping .signalled (s := s.atStage (.stopping [0, 1, 2, 3] .signalled) s.host.signalIn) rfl rfl
      (.inr ⟨hsignal, hyes⟩) hphase hok hi
    rw [Nat.add_comm, run_next _ hstep]
    exact hlast

/-- A release that finds a signal there is not attempted, unless `SIGNAL_SHUTDOWN`: the process ends. -/
theorem shutdownNext_signal (i : Int) (rest : List Int) (e : EndKind) (stage : HostStage) {s : State}
    (hno : s.params.signalShutdown = false) :
    shutdownNext (i :: rest) e (s.atStage stage (some 0)) = s.atStage (.ended .signalled) (some 0) := by
  have hdue : ((s.atStage stage (some 0)).signalDue && !s.params.signalShutdown) = true := by simp [State.signalDue, State.atStage, hno]
  rw [shutdownNext]
  exact if_pos hdue

/-- The shutdown with a signal there after its `k`-th release, which is not the last: the process ends. -/
theorem run_shutdown_signal {k : Nat} (hk : k ≤ 3) (e : EndKind) (stage : HostStage) {s : State}
    (hno : s.params.signalShutdown = false) (hphase : s.mon.phase ≠ .fresh) (hok : s.BusOk 48) (hinbox : s.call.inbox = []) :
    Sys2Proof.core.run (s.stepsFor (releases.take k)) (shutdownNext [0, 1, 2, 3] e (s.atStage stage (some k))) =
      .next ((s.performedAll (releases.take k)).atStage (.ended .signalled) (some 0)) := by
  obtain rfl | hpos := Nat.eq_zero_or_pos k
  · exact congrArg _ (shutdownNext_signal 0 [1, 2, 3] e stage hno)
  · have hreleased := run_shutdown hpos (by omega) e stage (some k) s (.inr (noSignalBefore_some (Nat.le_refl k))) hphase hok
      fun _ => hinbox
    obtain ⟨i, rest, hleft⟩ := List.exists_cons_of_length_pos
      (show 0 < (indices (motors.drop k)).length by simp [indices, motors]; omega)
    obtain ⟨-, hparams, hinbox', hblocked, htransfer, -⟩ := performedAll_frame (releases.take k) s
    rw [hleft, Option.map_some, Nat.sub_self] at hreleased
    have hstep := step_stopping ((s.performedAll (releases.take k)).atStage (.stopping (i :: rest) e) (some 0)) _ e
      ⟨hblocked.trans hok.1.1, htransfer.trans hok.1.2⟩ (hinbox'.trans hinbox) rfl
    rw [shutdownNext_signal i rest e _ (by rw [hparams, hno])] at hstep
    have hne : releases.take k ≠ [] := by simp [releases]; omega
    rw [← Nat.sub_add_cancel (stepsFor_pos hne s)]
    exact (run_snoc _ hreleased).trans hstep

/-- Settles O48: the signal is there for the release that follows the `k`-th, and ends the process or changes nothing. -/
theorem signalEndsTheShutdown : Obligations.SignalEndsTheShutdown := by
  intro k s hk hrun hsignal hi hphase hok
  refine ⟨_, exec_endOfStream hrun, fun hno => ?ends, fun hyes => ?goesOn⟩
  case ends =>
    have hlast := run_shutdown_signal hk .normal s.host.stage hno hphase hok hi
    rw [← hsignal] at hlast
    refine hlast.trans (congrArg _ ?_)
    rw [State.atStage, releases_take, performedAll_releases_host]
  case goesOn =>
    have hlast := run_shutdown (n := 4) (by decide) (by decide) .normal s.host.stage s.host.signalIn s (.inl hyes) hphase hok
      fun _ => hi
    have hgone : s.host.signalIn.map (· - 4) = some 0 := by
      rw [hsignal, Option.map_some, Nat.sub_eq_zero_of_le (by omega)]
    rw [hgone] at hlast
    exact hlast

end Sys2Proof.Machine

/-! PROOFS. A shutdown some of whose releases fail (R114): one attempt, by its outcome, and the attempts of a release-all under both
policies. -/

namespace Sys2Proof.Machine

/-! ### What the attempts so far have done -/

/-- The shutdown can begin its next release here: nothing else is being sent, handed over or announced, and the phase lets it pass. -/
structure State.CanRelease (s : State) : Prop where
  free : s.BusFree
  signal : s.host.signalIn = none
  inbox : s.call.inbox = []
  phase : s.mon.phase ≠ .fresh

/-- From `s` to `u` the transactions `ts` have been sent, and the host has written the diagnostics `ds`. -/
structure State.Attempted (s : State) (ts : List Transaction) (ds : List Diag) (u : State) : Prop where
  params : u.params = s.params
  can : u.CanRelease
  outcomes : s.bus.outcomes = ts.map Transaction.answer ++ u.bus.outcomes
  trace : u.mon.trace = s.mon.trace ++ ts
  configured : u.mon.configured = s.mon.configured
  regs : s.mon.configured = true → u.mon.regs = ts.foldl applyTransaction s.mon.regs
  diags : u.host.diags = s.host.diags ++ ds

section Attempted

variable {s u v : State} {ts ts' : List Transaction} {ds ds' : List Diag}

theorem State.Attempted.trans (h1 : s.Attempted ts ds u) (h2 : u.Attempted ts' ds' v) : s.Attempted (ts ++ ts') (ds ++ ds') v where
  params := h2.params.trans h1.params
  can := h2.can
  outcomes := by rw [h1.outcomes, h2.outcomes, List.map_append, List.append_assoc]
  trace := by rw [h2.trace, h1.trace, List.append_assoc]
  configured := h2.configured.trans h1.configured
  regs hc := by rw [h2.regs (h1.configured.trans hc), h1.regs hc, List.foldl_append]
  diags := by rw [h2.diags, h1.diags, List.append_assoc]

/-- Where the host goes next makes no difference. -/
theorem State.Attempted.setStage (h : s.Attempted ts ds u) (stage : HostStage) (pending : List (Int × Option Int)) :
    s.Attempted ts ds { u with host := { u.host with stage := stage, pending := pending } } :=
  { h with can := { h.can with } }

end Attempted

/-- Where the host is after a release that failed, under either policy (R114, D12). -/
def stageAfterFailure (policy : ShutdownPolicy) (rest : List Int) (e : EndKind) : HostStage :=
  match policy with
  | .bestEffort => stageLeft rest e
  | .stopAtFirstError => .ended e

theorem shutdownLeft_eq (rest : List Int) (e : EndKind) (s : State) :
    ∃ pending, s.shutdownLeft rest e = { s with host := { s.host with stage := stageLeft rest e, pending := pending } } := by
  cases rest with
  | nil => exact ⟨[], rfl⟩
  | cons i rest => exact ⟨s.host.pending, rfl⟩

/-- The host logs a failed release, and goes on as the policy says. -/
theorem afterRelease_busError (i : Int) (rest : List Int) (e : EndKind) {s : State} (h : s.call.answer = some .busError) :
    ∃ pending, afterRelease i rest e s = { s.addDiag ⟨.busError, .eos, some i⟩ with
      host := { (s.addDiag ⟨.busError, .eos, some i⟩).host with
        stage := stageAfterFailure s.params.shutdownPolicy rest e
        pending := pending } } := by
  rw [afterRelease, if_pos h]
  simp only [State.addDiag_params]
  cases s.params.shutdownPolicy with
  | bestEffort => exact shutdownLeft_eq rest e _
  | stopAtFirstError => exact ⟨[], rfl⟩

/-! ### One attempt -/

theorem commandSends_congr {s t : State} (h : t.params = s.params) (m : Motor) (vel : Option Int) :
    t.commandSends m vel = s.commandSends m vel := by
  simp only [State.commandSends, State.sends, h]

theorem attempts_congr {s t : State} (h : t.params = s.params) (ms : List Motor) (fails : Motor → Option Nat) :
    t.attempts ms fails = s.attempts ms fails := by
  simp only [State.attempts, State.attempt, State.chunksOf, h]

theorem attempts_cons (m : Motor) (ms : List Motor) (fails : Motor → Option Nat) (s : State) :
    s.attempts (m :: ms) fails = s.attempt m (fails m) ++ s.attempts ms fails := List.flatMap_cons

theorem length_chunksOf (m : Motor) (s : State) : (s.chunksOf m .release).length = s.commandSends m none := rfl

/-- The records of blocks that answered Ok, and what they do to the registers. -/
theorem foldl_applyTransaction_ok (m : Memory) (bs : List Block) :
    (bs.map (Block.record · .ok)).foldl applyTransaction m = writeBlocks m bs := by
  rw [List.foldl_map]
  rfl

theorem answers_ok (bs : List Block) : (bs.map (Block.record · .ok)).map Transaction.answer = List.replicate bs.length .ok := by
  rw [List.map_map]
  exact List.map_const' ..

/-- An attempt that succeeds: all the chunks of the frame. -/
theorem attempt_none (m : Motor) (s : State) : s.attempt m none = (s.chunksOf m .release).map (Block.record · .ok) := rfl

/-- An attempt that fails: the chunks before the failed one, and that one. -/
theorem attempt_some {m : Motor} {s : State} {k : Nat} {b : Block} (hk : (s.chunksOf m .release)[k]? = some b) :
    s.attempt m (some k) = ((s.chunksOf m .release).take k).map (Block.record · .ok) ++ [Block.record b .err] := by
  obtain ⟨hlt, hb⟩ := List.getElem?_eq_some_iff.mp hk
  have hdrop : ((s.chunksOf m .release).drop k).take 1 = [b] := by
    rw [List.drop_eq_getElem_cons hlt, hb]
    rfl
  rw [State.attempt, hdrop]
  rfl

theorem answers_attempt_none (m : Motor) (s : State) :
    (s.attempt m none).map Transaction.answer = List.replicate (s.commandSends m none) .ok := by
  rw [attempt_none, answers_ok, length_chunksOf]

theorem answers_attempt_some {m : Motor} {k : Nat} {s : State} (hk : k < s.commandSends m none) :
    (s.attempt m (some k)).map Transaction.answer = List.replicate k .ok ++ [.err] := by
  rw [← length_chunksOf] at hk
  rw [attempt_some (List.getElem?_eq_getElem hk), List.map_append, answers_ok, List.length_take_of_le hk.le]
  rfl

theorem length_attempt_none (m : Motor) (s : State) : (s.attempt m none).length = s.commandSends m none := by
  rw [← List.length_map Transaction.answer, answers_attempt_none, List.length_replicate]

theorem length_attempt_some {m : Motor} {k : Nat} {s : State} (hk : k < s.commandSends m none) :
    (s.attempt m (some k)).length = k + 1 := by
  rw [← List.length_map Transaction.answer, answers_attempt_some hk, List.length_append, List.length_replicate, List.length_singleton]

/-- A shutdown's release all of whose chunks answer Ok. -/
theorem run_attempt_ok (m : Motor) (rest : List Int) (e : EndKind) {os : List BusOutcome} {s : State} (hs : s.CanRelease)
    (hout : s.bus.outcomes = (s.attempt m none).map Transaction.answer ++ os) :
    ∃ u, Sys2Proof.core.run ((s.attempt m none).length - 1) (shutdownNext ((m.val : Int) :: rest) e s) = .next u ∧
      s.Attempted (s.attempt m none) [] u ∧ u.host.stage = stageLeft rest e := by
  rw [answers_attempt_none] at hout
  have hok : s.BusOk (s.commandSends m none) := ⟨hs.free, by rw [hout, List.take_left' (List.length_replicate ..)]⟩
  have hlast := shutdownNext_ok m rest e s (.inl (by simp [hs.signal])) hs.phase hok
  rw [tick_of_no_signal (s := s.commanded m none) hs.signal] at hlast
  obtain ⟨pending, hleft⟩ := shutdownLeft_eq rest e (s.commanded m none)
  rw [hleft, ← length_attempt_none] at hlast
  refine ⟨_, hlast, State.Attempted.setStage (u := s.commanded m none) ?_ _ pending, rfl⟩
  exact
    { params := rfl
      can := ⟨hs.free, hs.signal, hs.inbox, hs.phase⟩
      outcomes := by
        rw [answers_attempt_none, ← hok.2]
        exact (List.take_append_drop _ _).symm
      trace := rfl
      configured := rfl
      regs := fun hc => by
        have hi : s.initialized = true := by simp [State.initialized, hc]
        rw [attempt_none, foldl_applyTransaction_ok, State.chunksOf, writeBlocks_splitBlock _ _ _ (bank_fits m _)]
        exact if_pos hi
      diags := (List.append_nil _).symm }

/-- After `k` transactions of a request that answered Ok, the next, `b`, has answered Err, and has ended the request (R94, R95). -/
def State.errorAt (w : Sending) (k : Nat) (b : Block) (s : State) : State :=
  ((s.failedAt w k b).setPhase .dead).answerWith (some .busError)

/-- A shutdown's release whose chunk `k` answers Err: the failure is logged, and the policy decides what follows (R114). -/
theorem run_attempt_err (m : Motor) (k : Nat) (rest : List Int) (e : EndKind) {os : List BusOutcome} {s : State} (hs : s.CanRelease)
    (hk : k < s.commandSends m none) (hout : s.bus.outcomes = (s.attempt m (some k)).map Transaction.answer ++ os) :
    ∃ u, Sys2Proof.core.run ((s.attempt m (some k)).length - 1) (shutdownNext ((m.val : Int) :: rest) e s) = .next u ∧
      s.Attempted (s.attempt m (some k)) [⟨.busError, .eos, some (m.val : Int)⟩] u ∧ u.mon.phase = .dead ∧
      u.host.stage = stageAfterFailure s.params.shutdownPolicy rest e := by
  obtain ⟨b, hb⟩ : ∃ b, (s.chunksOf m .release)[k]? = some b := ⟨_, List.getElem?_eq_getElem hk⟩
  rw [answers_attempt_some hk] at hout
  have herr : s.BusErrAfter k := ⟨hs.free, by rw [hout, List.take_left' (by simp)]⟩
  have hlast := run_err (.shutdown m.val rest e) (.frame m .release) s k b hb herr
  obtain ⟨pending, hreact⟩ := afterRelease_busError m.val rest e (s := s.errorAt (.frame m .release) k b) rfl
  rw [← command_passes true m .release s (passes_of_not_fresh hs.phase), ← shutdownNext_eq m rest e s (.inl (by simp [hs.signal])),
    ← State.errorAt, react, tick_of_no_signal (s := s.errorAt _ _ _) hs.signal, hreact] at hlast
  rw [length_attempt_some hk]
  refine ⟨_, hlast, State.Attempted.setStage (u := State.addDiag _ _) ?_ _ pending, rfl, rfl⟩
  exact
    { params := rfl
      can := ⟨hs.free, hs.signal, hs.inbox, nofun⟩
      outcomes := by
        rw [answers_attempt_some hk, ← herr.2]
        exact (List.take_append_drop _ _).symm
      trace := by
        rw [attempt_some hb, ← List.append_assoc]
        rfl
      configured := rfl
      regs := fun hc => by
        have hi : s.initialized = true := by simp [State.initialized, hc]
        rw [attempt_some hb, List.foldl_append, foldl_applyTransaction_ok, ← landBlocks_true, ← hi]
        rfl
      diags := rfl }

/-! ### The attempts of a release-all (R114) -/

/-- The diagnostics of a release-all whose releases fail so. -/
def failureDiags (ms : List Motor) (fails : Motor → Option Nat) : List Diag :=
  (ms.filter fun m => (fails m).isSome).map fun m => ⟨.busError, .eos, some (m.val : Int)⟩

theorem failureDiags_cons (m : Motor) (ms : List Motor) (fails : Motor → Option Nat) :
    failureDiags (m :: ms) fails = failureDiags [m] fails ++ failureDiags ms fails := by
  rw [failureDiags, failureDiags, failureDiags, ← List.map_append, ← List.filter_append]
  rfl

/-- A failure under `best_effort`, on a chunk that there is. -/
def State.Tolerates (s : State) (m : Motor) (fails : Option Nat) : Prop :=
  ∀ k, fails = some k → k < s.commandSends m none ∧ s.params.shutdownPolicy = .bestEffort

theorem State.Tolerates.congr {s t : State} {m : Motor} {fails : Option Nat} (h : s.Tolerates m fails) (hp : t.params = s.params) :
    t.Tolerates m fails := by
  intro k hk
  rw [commandSends_congr hp, hp]
  exact h k hk

/-- An attempt after which the shutdown goes on: one that succeeds, or any under `best_effort`. -/
theorem run_attempt (m : Motor) (rest : List Int) (e : EndKind) (fails : Motor → Option Nat) {os : List BusOutcome} {s : State}
    (hs : s.CanRelease) (hfails : s.Tolerates m (fails m))
    (hout : s.bus.outcomes = (s.attempt m (fails m)).map Transaction.answer ++ os) :
    ∃ u, 0 < (s.attempt m (fails m)).length ∧
      Sys2Proof.core.run ((s.attempt m (fails m)).length - 1) (shutdownNext ((m.val : Int) :: rest) e s) = .next u ∧
      s.Attempted (s.attempt m (fails m)) (failureDiags [m] fails) u ∧ u.host.stage = stageLeft rest e := by
  cases hf : fails m with
  | none =>
    rw [hf] at hout
    obtain ⟨u, hrun, hdone, hstage⟩ := run_attempt_ok m rest e hs hout
    refine ⟨u, ?_, hrun, by simpa [failureDiags, hf] using hdone, hstage⟩
    rw [length_attempt_none]
    exact commandSends_pos s m none
  | some k =>
    rw [hf] at hout
    obtain ⟨hk, hpolicy⟩ := hfails k hf
    obtain ⟨u, hrun, hdone, -, hstage⟩ := run_attempt_err m k rest e hs hk hout
    rw [hpolicy] at hstage
    refine ⟨u, ?_, hrun, by simpa [failureDiags, hf] using hdone, hstage⟩
    rw [length_attempt_some hk]
    exact Nat.succ_pos k

/-- Attempts after each of which the shutdown goes on. -/
theorem run_attempts (m : Motor) (ms : List Motor) (rest : List Int) (e : EndKind) (fails : Motor → Option Nat)
    {os : List BusOutcome} {s : State} (hs : s.CanRelease) (hfails : ∀ x ∈ m :: ms, s.Tolerates x (fails x))
    (hout : s.bus.outcomes = (s.attempts (m :: ms) fails).map Transaction.answer ++ os) :
    ∃ u, 0 < (s.attempts (m :: ms) fails).length ∧
      Sys2Proof.core.run ((s.attempts (m :: ms) fails).length - 1)
        (shutdownNext (indices (m :: ms) ++ rest) e s) = .next u ∧
      s.Attempted (s.attempts (m :: ms) fails) (failureDiags (m :: ms) fails) u ∧ u.host.stage = stageLeft rest e := by
  induction ms generalizing m s with
  | nil =>
    have hone : s.attempts [m] fails = s.attempt m (fails m) := List.append_nil _
    rw [hone] at hout ⊢
    exact run_attempt m rest e fails hs (hfails m (List.mem_cons_self ..)) hout
  | cons m' ms ih =>
    rw [attempts_cons] at hout ⊢
    rw [List.map_append, List.append_assoc] at hout
    obtain ⟨u, hpos, hrun, hdone, hstage⟩ := run_attempt m (indices (m' :: ms) ++ rest) e fails hs
      (hfails m (List.mem_cons_self ..)) hout
    rw [← attempts_congr hdone.params] at hout ⊢
    obtain ⟨v, hpos', hrun', hdone', hstage'⟩ := ih m' hdone.can
      (fun x hx => (hfails x (List.mem_cons_of_mem m hx)).congr hdone.params) (List.append_cancel_left (hdone.outcomes.symm.trans hout))
    have hstep := step_stopping u _ e hdone.can.free hdone.can.inbox hstage
    refine ⟨v, ?_, ?_, failureDiags_cons m (m' :: ms) fails ▸ hdone.trans hdone', hstage'⟩
    · rw [List.length_append]
      exact Nat.add_pos_left hpos _
    · rw [List.length_append]
      exact run_two hpos hpos' hrun hstep hrun'

/-- The end of the stream, or a step of a shutdown that is to begin, is the first release. -/
theorem shutdown_begins {s : State} {e : EndKind} {r : Host.Outcome State Fault Refusal} (hs : s.CanRelease)
    (hr : (s.hostStopped = false ∧ e = .normal ∧ r = exec .endOfStream s) ∨
      (s.host.stage = .stopping [0, 1, 2, 3] e ∧ r = step s)) :
    ∃ pending, r = .next (shutdownNext [0, 1, 2, 3] e (s.setPending pending)) := by
  rcases hr with ⟨hrun, rfl, rfl⟩ | ⟨hstage, rfl⟩
  · exact ⟨[], exec_endOfStream hrun⟩
  · exact ⟨s.host.pending, step_stopping s _ e hs.free hs.inbox hstage⟩

theorem State.CanRelease.setPending {s : State} (h : s.CanRelease) (pending : List (Int × Option Int)) :
    (s.setPending pending).CanRelease := { h with }

/-- Settles O43: under `best_effort` the shutdown goes on after every attempt. -/
theorem bestEffortShutdownTriesEveryMotor : Obligations.BestEffortShutdownTriesEveryMotor := by
  intro s fails os e r hfree hsignal hinbox hphase hpolicy hchunks hout hr
  have hs : s.CanRelease := ⟨hfree, hsignal, hinbox, hphase⟩
  obtain ⟨pending, rfl⟩ := shutdown_begins hs hr
  obtain ⟨u, -, hrun, hdone, hstage⟩ := run_attempts 0 [1, 2, 3] [] e fails (hs.setPending pending)
    (fun x _ k hk => ⟨hchunks x k hk, hpolicy⟩) hout
  exact ⟨_, u, rfl, hrun, hstage, hdone.trace, hdone.regs, hdone.diags⟩

/-- Attempts that succeed, and one on motor `k` whose chunk `j` fails, under `stop_at_first_error`: it is the last. -/
theorem run_attempts_err (ms : List Motor) (k : Motor) (j : Nat) (rest : List Int) (e : EndKind) {os : List BusOutcome} {s : State}
    (hs : s.CanRelease) (hpolicy : s.params.shutdownPolicy = .stopAtFirstError) (hj : j < s.commandSends k none)
    (hout : s.bus.outcomes = (s.attempts ms (fun _ => none) ++ s.attempt k (some j)).map Transaction.answer ++ os) :
    ∃ u, Sys2Proof.core.run ((s.attempts ms (fun _ => none) ++ s.attempt k (some j)).length - 1)
        (shutdownNext (indices ms ++ (k.val : Int) :: rest) e s) = .next u ∧
      s.Attempted (s.attempts ms (fun _ => none) ++ s.attempt k (some j)) [⟨.busError, .eos, some (k.val : Int)⟩] u ∧
      u.mon.phase = .dead ∧ u.host.stage = .ended e := by
  cases ms with
  | nil =>
    obtain ⟨u, hrun, hdone, hdead, hstage⟩ := run_attempt_err k j rest e hs hj hout
    rw [hpolicy] at hstage
    exact ⟨u, hrun, hdone, hdead, hstage⟩
  | cons m ms =>
    rw [List.map_append, List.append_assoc] at hout
    obtain ⟨u, hpos, hrun, hdone, hstage⟩ := run_attempts m ms ((k.val : Int) :: rest) e (fun _ => none) hs
      (fun _ _ _ hnone => nomatch hnone) hout
    have hsame : u.attempt k (some j) = s.attempt k (some j) := by simp only [State.attempt, State.chunksOf, hdone.params]
    rw [← hsame] at hout ⊢
    rw [← commandSends_congr hdone.params] at hj
    obtain ⟨v, hrun', hdone', hdead, hstage'⟩ := run_attempt_err k j rest e hdone.can hj
      (List.append_cancel_left (hdone.outcomes.symm.trans hout))
    rw [hdone.params, hpolicy] at hstage'
    have hsilent : failureDiags (m :: ms) (fun _ => none) = [] := by simp [failureDiags]
    have hstep := step_stopping u _ e hdone.can.free hdone.can.inbox hstage
    refine ⟨v, ?_, ?_, hdead, hstage'⟩
    · rw [List.length_append]
      exact run_two hpos (by rw [length_attempt_some hj]; exact Nat.succ_pos j) hrun hstep hrun'
    · rw [hsilent] at hdone
      exact hdone.trans hdone'

/-- Attempts on several motors that all succeed take as many answers as their releases do steps. -/
theorem answers_attempts_ok (ms : List Motor) (s : State) :
    (s.attempts ms fun _ => none).map Transaction.answer = List.replicate (s.stepsFor (ms.map (·, none))) .ok := by
  induction ms with
  | nil => rfl
  | cons m ms ih =>
    have hsteps : s.stepsFor ((m :: ms).map (·, none)) = s.commandSends m none + s.stepsFor (ms.map (·, none)) := rfl
    rw [attempts_cons, List.map_append, answers_attempt_none, ih, hsteps, List.replicate_append_replicate]

/-- A release-all, divided at one of its motors. -/
theorem release_indices_split (k : Motor) : ([0, 1, 2, 3] : List Int) =
    indices (motors.take k.val) ++ (k.val : Int) :: indices (motors.drop (k.val + 1)) := by
  revert k
  decide

/-- Settles O44: the releases before motor `k`'s succeed, and after its own the policy ends the shutdown. -/
theorem stoppingShutdownStopsAtTheFirstError : Obligations.StoppingShutdownStopsAtTheFirstError := by
  intro s k j e r hsignal hinbox hphase hpolicy hj herr hr
  have hs : s.CanRelease := ⟨herr.1, hsignal, hinbox, hphase⟩
  obtain ⟨pending, rfl⟩ := shutdown_begins hs hr
  have hanswers : (s.attempts (motors.take k.val) (fun _ => none) ++ s.attempt k (some j)).map Transaction.answer =
      List.replicate (s.stepsFor (releases.take k.val) + j) .ok ++ [.err] := by
    rw [List.map_append, answers_attempts_ok, answers_attempt_some hj, ← List.append_assoc, List.replicate_append_replicate,
      releases_take]
  have hlen : (s.attempts (motors.take k.val) (fun _ => none) ++ s.attempt k (some j)).length - 1 =
      s.stepsFor (releases.take k.val) + j := by
    rw [← List.length_map Transaction.answer, hanswers, List.length_append, List.length_replicate, List.length_singleton,
      Nat.add_sub_cancel]
  have hout : s.bus.outcomes = (s.attempts (motors.take k.val) (fun _ => none) ++ s.attempt k (some j)).map Transaction.answer ++
      s.bus.outcomes.drop (s.stepsFor (releases.take k.val) + j + 1) := by
    rw [hanswers, ← herr.2, List.take_append_drop]
  rw [release_indices_split k]
  obtain ⟨u, hrun, hdone, hdead, hstage⟩ := run_attempts_err (motors.take k.val) k j _ e (hs.setPending pending) hpolicy hj hout
  rw [← hlen]
  refine ⟨_, u, rfl, hrun, hstage, hdead, ?_, hdone.regs, hdone.diags⟩
  rw [List.append_assoc]
  exact hdone.trace

end Sys2Proof.Machine

/-! PROOFS. The host's own step: which instruction it runs (R48, R93, R97, R102, R113), its startup (R101), and a `BusError` on a request
of a line (R115). -/

namespace Sys2Proof.Machine

/-! ### The instruction a step runs -/

/-- A signal that is not there does not stop the host. -/
theorem signalDue_eq_false {s : State} (h : s.host.signalIn ≠ some 0) : s.signalDue = false := by
  simpa [State.signalDue] using h

/-- A step that takes the oldest item of the inbox runs it. -/
theorem step_inbox {s : State} {it : Item} {rest : List Item} (hfree : s.BusFree) (hi : s.call.inbox = it :: rest) :
    step s = runItem it (s.setInbox rest) := by
  simp [step, nextStep, hfree.1, hfree.2, hi]

/-- A host that reads, with no request left of a line and no signal there, runs what it reads. -/
theorem step_reading {s : State} {it : Item} {rest : List Byte} (hfree : s.BusFree) (hi : s.call.inbox = [])
    (hstage : s.host.stage = .reading) (hp : s.host.pending = []) (hsignal : s.host.signalIn ≠ some 0)
    (hnext : nextInput s.host = some (it, rest)) : step s = runItem it (s.setStream rest) := by
  simp [step, nextStep, hfree.1, hfree.2, hi, hostStep, hstage, hp, readingStep, signalDue_eq_false hsignal, hnext]

/-- Without a newline left, and at the end of the input, the host reads the text that is left, and then the end of the stream (R113). -/
theorem nextInput_atEnd {h : HostState} (hline : takeLine h.stream = none) (hend : h.inputEnded = true) :
    nextInput h = if h.stream = [] then some (.streamEnd, []) else some (.line h.stream, []) := by
  simp only [nextInput, hline, hend, if_true, List.isEmpty_iff]

theorem nextInput_line {h : HostState} {line rest : List Byte} (hline : takeLine h.stream = some (line, rest)) :
    nextInput h = some (.line line, rest) := by
  simp only [nextInput, hline]

/-- An item that is an instruction is run as that instruction, a line after it has been counted. -/
theorem runItem_ok {it : Item} {s : State} {i : Instr} (h : decode s.params it = .ok i) : runItem it s = exec i (countLine it s) := by
  rw [runItem, h]

theorem runItem_error {it : Item} {s : State} {e : DecodeError} (h : decode s.params it = .error e) :
    runItem it s = .refused (.undecodable e) := by
  rw [runItem, h]

/-- Settles O50: the order of `nextStep`, case by case. -/
theorem stepRunsTheDecodedInstruction : Obligations.StepRunsTheDecodedInstruction := by
  refine fun s hb => ⟨fun x hx => step_transfer hb hx, fun ht => ⟨?inbox, ?undecodable, ?pending, ?line, ?lastLine⟩⟩
  case inbox =>
    intro it rest i hi hd
    rw [step_inbox ⟨hb, ht⟩ hi, runItem_ok (s := s.setInbox rest) hd]
    rfl
  case undecodable =>
    intro it rest e hi hd
    rw [step_inbox ⟨hb, ht⟩ hi, runItem_error (s := s.setInbox rest) hd]
  case pending =>
    intro i vel rest hi hrun hp hsignal
    refine ⟨_, exec_decodeCommand i vel (s.setPending rest), ?_⟩
    rw [step_pending s _ rest hrun hi hp]
    simp only [issueFirst, signalDue_eq_false hsignal, Bool.false_eq_true, if_false]
    rfl
  case line =>
    intro line rest hi hstage hp hsignal hline
    exact step_reading ⟨hb, ht⟩ hi hstage hp hsignal (nextInput_line hline)
  case lastLine =>
    intro hi hstage hp hsignal hline hend
    have hnext := nextInput_atEnd hline hend
    by_cases hempty : s.host.stream = []
    · rw [if_pos hempty] at hnext ⊢
      exact step_reading ⟨hb, ht⟩ hi hstage hp hsignal hnext
    · rw [if_neg hempty] at hnext ⊢
      exact step_reading ⟨hb, ht⟩ hi hstage hp hsignal hnext

/-! ### The host's end (R152) -/

/-- An ended host does nothing more. -/
theorem run_ended {s : State} {e : EndKind} (hfree : s.BusFree) (hi : s.call.inbox = []) (hstage : s.host.stage = .ended e) (n : Nat) :
    Sys2Proof.core.run n s = .next s :=
  run_still (by simp [step, nextStep, hfree.1, hfree.2, hi, hostStep, hstage]) n

/-! ### The startup (R101) -/

/-- Settles O49: the host makes of a successful `initialize` that it reads, and of a failed one that it ends. -/
theorem startupInitializesFirst : Obligations.StartupInitializesFirst := by
  intro s hfree hi hstage hp hphase
  have hstep := step_startup hphase hfree hi hstage hp
  refine ⟨fun hok => ?reads, fun k w hw herr => ?ends⟩
  case reads => exact ⟨_, _, hstep, run_initialize .startup hphase hok, rfl, rfl, rfl, rfl⟩
  case ends =>
    exact ⟨_, _, hstep, run_initialize_err .startup hw herr, rfl, rfl, rfl, failedAt_modes_trace s k w, run_ended hfree hi rfl⟩

/-! ### A `BusError` on a request of a line (R115) -/

/-- What a fatal `BusError` leaves of the host (R115). -/
theorem fatalBusError_eq (s : State) : fatalBusError s = { s with
    host := { s.host with
      stage := if s.params.shutdownAfterBusError then .stopping [0, 1, 2, 3] .fatalBusError else .ended .fatalBusError
      pending := [] } } := by
  unfold fatalBusError
  split <;> rfl

/-- A request of a line begins in the step that runs its line, or in a step of its own. -/
theorem request_begins {s : State} {x : Motor × Option Int} {r : Host.Outcome State Fault Refusal} (hrun : s.hostStopped = false)
    (hr : (∃ i xs, i.expandsTo (x :: xs) ∧ r = exec i s) ∨
      (s.call.inbox = [] ∧ (∃ rest, s.host.pending = ((x.1.val : Int), x.2) :: rest) ∧ r = step s)) :
    ∃ rest, r = .next (issueFirst (((x.1.val : Int), x.2) :: rest) s) := by
  rcases hr with ⟨i, xs, hi, rfl⟩ | ⟨hi, ⟨rest, hp⟩, rfl⟩
  · refine ⟨requestsOf xs ++ s.host.pending, ?_⟩
    rw [exec_requests i _ s hi, issueLine, if_neg (by simp [hrun])]
    rfl
  · exact ⟨rest, step_pending s _ rest hrun hi hp⟩

/-- After `k` transactions of a line's request that answered Ok, the next, `b`, has answered Err, and the host has ended its line (R115). -/
def State.fatalAt (w : Sending) (k : Nat) (b : Block) (s : State) : State :=
  { s.failedAt w k b with
    mon := { (s.failedAt w k b).mon with phase := .dead }
    call := { s.call with answer := some .busError }
    host := { s.host with
      stage := if s.params.shutdownAfterBusError then .stopping [0, 1, 2, 3] .fatalBusError else .ended .fatalBusError
      pending := []
      signalIn := s.host.signalIn.map (· - 1) } }

/-- A request of a line whose chunk `k` answers Err is fatal in the step that sends it. -/
theorem run_issueFirst_err {m : Motor} {c : Case} {k : Nat} {b : Block} {s : State} (hsignal : s.host.signalIn ≠ some 0)
    (hready : s.mon.phase = .ready) (hk : (s.chunksOf m c)[k]? = some b) (herr : s.BusErrAfter k) (rest : List (Int × Option Int)) :
    Sys2Proof.core.run k (issueFirst (((m.val : Int), c.velocity) :: rest) s) = .next (s.fatalAt (.frame m c) k b) := by
  have hlast := run_err .line (.frame m c) (s.setPending rest) k b hk herr
  rw [← command_passes false m c (s.setPending rest) (.inl hready)] at hlast
  simp only [issueFirst, signalDue_eq_false hsignal, Bool.false_eq_true, if_false]
  exact hlast.trans (congrArg _ (fatalBusError_eq _))

/-- The records of a frame whose chunk `k` answers Err (R20, R94). -/
theorem fatalAt_trace (m : Motor) (c : Case) (k : Nat) (b : Block) (s : State) :
    (s.fatalAt (.frame m c) k b).mon.trace =
      s.mon.trace ++ ((s.chunksOf m c).take k).map (fun x => ⟨0x40, x.start, x.bytes, .ok⟩) ++ [⟨0x40, b.start, b.bytes, .err⟩] := rfl

/-- Settles O45: the failed chunk ends the request, and the host makes of it the end of the process or the release-all. -/
theorem busErrorEndsTheProcess : Obligations.BusErrorEndsTheProcess := by
  intro s m c k b r hrun hsignal hready hk herr hr
  obtain ⟨rest, rfl⟩ := request_begins (x := (m, c.velocity)) hrun hr
  refine ⟨_, _, rfl, run_issueFirst_err hsignal hready hk herr rest, rfl, rfl, rfl, fatalAt_trace m c k b s, fun hno => ?ends,
    fun hyes => ?releases⟩
  case ends =>
    have hstage : (s.fatalAt (.frame m c) k b).host.stage = .ended .fatalBusError := if_neg (by simp [hno])
    exact ⟨hstage, fun hi => run_ended herr.1 hi hstage⟩
  case releases =>
    have hstage : (s.fatalAt (.frame m c) k b).host.stage = .stopping [0, 1, 2, 3] .fatalBusError := if_pos hyes
    refine ⟨hstage, fun hi hnone hok => ⟨?_, fun j => ⟨motor_of_released _ j, fun hc => ?_⟩⟩⟩
    · have hsignal' : (s.fatalAt (.frame m c) k b).host.signalIn = none := congrArg (Option.map (· - 1)) hnone
      exact run_stopping .fatalBusError hstage rfl (.inl hsignal') nofun hok hi
    · have hinit : (s.fatalAt (.frame m c) k b).initialized = true := by
        simp only [State.initialized, Bool.or_eq_true]
        exact .inl hc
      rw [motor_of_released, State.releasedReading, if_pos (.inl hinit)]

end Sys2Proof.Machine

/-! PROOFS. The frame of a host line, of a request of the host, and of a request's later transactions (R36, R48, R93, R117): what they
leave unchanged, for every outcome of the bus. -/

namespace Sys2Proof.Machine

/-! ### What the host's operations leave unchanged -/

/-- `t` differs from `s` in the monitor, the bus, the answer, and the host's stage, requests, diagnostics and signal alone, and in no
register outside `T`. -/
structure State.HostFrame (s : State) (T : Nat → Prop) (t : State) : Prop where
  params : t.params = s.params
  inbox : t.call.inbox = s.call.inbox
  offset : t.call.offset = s.call.offset
  stream : t.host.stream = s.host.stream
  inputEnded : t.host.inputEnded = s.host.inputEnded
  line : t.host.line = s.host.line
  regs : ∀ a, ¬ T a → Memory.read t.mon.regs a = Memory.read s.mon.regs a

section HostFrame

variable {T : Nat → Prop} {s t u : State}

theorem State.HostFrame.refl (s : State) : s.HostFrame T s := ⟨rfl, rfl, rfl, rfl, rfl, rfl, fun _ _ => rfl⟩

theorem State.HostFrame.trans (h1 : s.HostFrame T t) (h2 : t.HostFrame T u) : s.HostFrame T u where
  params := h2.params.trans h1.params
  inbox := h2.inbox.trans h1.inbox
  offset := h2.offset.trans h1.offset
  stream := h2.stream.trans h1.stream
  inputEnded := h2.inputEnded.trans h1.inputEnded
  line := h2.line.trans h1.line
  regs a ha := (h2.regs a ha).trans (h1.regs a ha)

theorem State.HostFrame.mono {T' : Nat → Prop} (h : s.HostFrame T t) (hT : ∀ a, T a → T' a) : s.HostFrame T' t :=
  { h with regs := fun a ha => h.regs a fun hin => ha (hT a hin) }

/-- An operation of the block leaves the whole host. -/
theorem State.ChangesOnly.hostFrame (h : s.ChangesOnly T t) : s.HostFrame T t where
  params := h.params
  inbox := h.inbox
  offset := h.offset
  stream := congrArg HostState.stream h.host
  inputEnded := congrArg HostState.inputEnded h.host
  line := congrArg HostState.line h.host
  regs := h.regs

/-- A change of the host's stage, requests, diagnostics or signal. -/
theorem hostFrame_host (s : State) (stage : HostStage) (pending : List (Int × Option Int)) (diags : List Diag) (signal : Option Nat) :
    s.HostFrame T { s with
      host := { s.host with stage := stage, pending := pending, diags := diags, signalIn := signal } } :=
  ⟨rfl, rfl, rfl, rfl, rfl, rfl, fun _ _ => rfl⟩

theorem hostFrame_setTransfer (x : Option Transfer) (s : State) : s.HostFrame T (s.setTransfer x) :=
  ⟨rfl, rfl, rfl, rfl, rfl, rfl, fun _ _ => rfl⟩

theorem hostFrame_takeSignal (s : State) : s.HostFrame T (takeSignal s) := by
  rw [takeSignal_eq]
  exact hostFrame_host s _ _ _ _

theorem hostFrame_afterRelease (i : Int) (rest : List Int) (e : EndKind) (s : State) : s.HostFrame T (afterRelease i rest e s) := by
  by_cases h : s.call.answer = some .busError
  · obtain ⟨pending, hp⟩ := afterRelease_busError i rest e h
    rw [hp]
    exact hostFrame_host s _ _ _ _
  · obtain ⟨pending, hp⟩ := shutdownLeft_eq rest e s
    rw [afterRelease, if_neg h, hp]
    exact hostFrame_host s _ _ _ _

theorem hostFrame_reactTo (s : State) : s.HostFrame T (reactTo s) := by
  unfold reactTo
  split
  · exact hostFrame_host s _ _ _ _
  · rw [fatalBusError_eq]
    exact hostFrame_host s _ _ _ _
  · exact .refl s
  · exact .refl s

theorem hostFrame_afterStartup (s : State) : s.HostFrame T (afterStartup s) := by
  unfold afterStartup
  split
  · exact hostFrame_host s _ _ _ _
  · exact hostFrame_host s _ _ _ _

/-- Whoever waits for a request's result, nothing but the host changes. -/
theorem hostFrame_react (w : Waiting) (s : State) : s.HostFrame T (react w s) := by
  have htick : s.HostFrame T s.tick := hostFrame_host s _ _ _ _
  cases w with
  | caller => exact .refl s
  | startup => exact hostFrame_afterStartup s
  | line => exact htick.trans (hostFrame_reactTo s.tick)
  | shutdown i rest e => exact htick.trans (hostFrame_afterRelease i rest e s.tick)

theorem hostFrame_settle (w : Waiting) (s : State) : s.HostFrame T (settle w s) := by
  unfold settle
  split
  · exact .refl s
  · split
    · exact hostFrame_setTransfer _ s
    · exact hostFrame_react w s

/-- A direct caller's result is nothing to the host. -/
theorem settle_caller_host (s : State) : (settle .caller s).host = s.host := by
  unfold settle
  split
  · rfl
  · split <;> rfl

end HostFrame

/-! ### The host's requests -/

/-- The registers of the bank that an index names, if it names one (R64). -/
def bankOf (i : Int) (a : Nat) : Prop := ∃ m : Motor, i = m.val ∧ 6 + 16 * m.val ≤ a ∧ a < 6 + 16 * m.val + 12

/-- Operands that validation accepts name their motor (R77). -/
theorem index_of_validate {i : Int} {vel : Option Int} {m : Motor} {c : Case} (h : validate i vel = .ok (m, c)) : i = m.val := by
  by_cases hi : 0 ≤ i ∧ i ≤ 3
  · obtain ⟨m', hm', rfl⟩ := selectMotor_accepted i hi.1 hi.2
    simp only [validate, hm'] at h
    split at h
    · cases h
    · cases h
      rfl
  · rw [validate_bad_index i vel (by omega)] at h
    cases h

/-- A command changes no register outside the bank of its index, whatever its operands are. -/
theorem changesOnly_command (sh : Bool) (i : Int) (vel : Option Int) (s : State) : s.ChangesOnly (bankOf i) (command sh i vel s) := by
  refine changesOnly_phaseGate sh _ s ?_
  unfold commandBody
  split
  · exact changesOnly_answerWith _ s
  · next m c hv =>
    have hsend := changesOnly_sendFrom (.frame m c) 0 s
    exact { hsend with regs := fun a ha => hsend.regs a fun hin => ha ⟨m, index_of_validate hv, hin⟩ }

theorem hostFrame_issueFirst (i : Int) (vel : Option Int) (rest : List (Int × Option Int)) (s : State) :
    s.HostFrame (bankOf i) (issueFirst ((i, vel) :: rest) s) := by
  unfold issueFirst
  simp only
  split
  · exact hostFrame_takeSignal s
  · have hpending : s.HostFrame (bankOf i) (s.setPending rest) := hostFrame_host s _ _ _ _
    exact (hpending.trans (changesOnly_command false i vel _).hostFrame).trans (hostFrame_settle .line _)

theorem hostFrame_shutdownNext (i : Int) (rest : List Int) (e : EndKind) (s : State) :
    s.HostFrame (bankOf i) (shutdownNext (i :: rest) e s) := by
  simp only [shutdownNext]
  split
  · exact hostFrame_host s _ _ _ _
  · exact (changesOnly_command true i none s).hostFrame.trans (hostFrame_settle _ _)

/-! ### The lines -/

theorem hostFrame_parseError (T : Nat → Prop) (s : State) : s.HostFrame T (parseError s) := by
  unfold parseError
  split
  · exact .refl s
  · exact hostFrame_host s _ _ _ _

/-- A line issues its first request alone (R48). -/
theorem hostFrame_issueLine (i : Int) (vel : Option Int) (rest : List (Int × Option Int)) (s : State) :
    s.HostFrame (bankOf i) (issueLine ((i, vel) :: rest) s) := by
  unfold issueLine
  split
  · exact .refl s
  · exact hostFrame_issueFirst i vel (rest ++ s.host.pending) s

theorem hostFrame_endOfStream (s : State) :
    s.HostFrame (bankOf 0) (if s.hostStopped then s else shutdownNext [0, 1, 2, 3] .normal (s.setPending [])) := by
  have hpending : s.HostFrame (bankOf 0) (s.setPending []) := hostFrame_host s _ _ _ _
  split
  · exact .refl s
  · exact hpending.trans (hostFrame_shutdownNext 0 [1, 2, 3] .normal _)

/-- The bank of index 0 (R64). -/
theorem bankOf_zero {a : Nat} (h : bankOf 0 a) : 6 ≤ a ∧ a < 18 := by
  obtain ⟨m, hm, hlo, hhi⟩ := h
  omega

theorem bankOf_token {i : Int} {a : Nat} (h : bankOf i a) :
    ∃ m : Motor, Token.num i = .num m.val ∧ 6 + 16 * m.val ≤ a ∧ a < 6 + 16 * m.val + 12 := by
  obtain ⟨m, hm, hin⟩ := h
  exact ⟨m, congrArg Token.num hm, hin⟩

/-- A host line, or the end of the stream. -/
theorem hostFrame_exec (i : Instr) {s t : State} (hline : i.isHostLine = true) (h : exec i s = .next t) :
    s.HostFrame (i.targets s.params) t := by
  cases i with
  | releaseAll =>
    cases h
    exact (hostFrame_issueLine 0 none _ s).mono fun _ => bankOf_zero
  | releaseOne t0 =>
    cases t0 with
    | num i =>
      cases h
      exact (hostFrame_issueLine i none _ s).mono fun _ => bankOf_token
    | word w =>
      cases h
      exact hostFrame_parseError _ s
  | setOne t0 t1 =>
    cases t0 with
    | num i =>
      cases t1 with
      | num v =>
        cases h
        exact (hostFrame_issueLine i (some v) _ s).mono fun _ => bankOf_token
      | word w =>
        cases h
        exact (hostFrame_issueLine i none _ s).mono fun _ => bankOf_token
    | word w =>
      cases h
      exact hostFrame_parseError _ s
  | setAll t0 t1 t2 t3 =>
    simp only [exec, execSetAll, Host.Outcome.next.injEq] at h
    subst h
    split
    · exact (hostFrame_issueLine 0 _ _ s).mono fun _ => bankOf_zero
    · exact hostFrame_parseError _ s
  | malformed ts =>
    cases h
    exact hostFrame_parseError _ s
  | endOfStream =>
    cases h
    exact (hostFrame_endOfStream s).mono fun _ => bankOf_zero
  | _ => cases hline

/-! ### The steps -/

theorem step_blocked {s : State} (h : s.bus.blocked = true) : step s = .next s := by
  rw [step, nextStep, if_pos h]

/-- A step that issues a later request of a line, or a release of the shutdown. -/
theorem hostFrame_request {s t : State} {i : Int} (ht : s.bus.transfer = none) (hi : s.call.inbox = [])
    (hr : s.hostStopped = false ∧ (∃ vel rest, s.host.pending = (i, vel) :: rest) ∨ ∃ rest e, s.host.stage = .stopping (i :: rest) e)
    (h : step s = .next t) : s.HostFrame (bankOf i) t := by
  rcases hr with ⟨hrun, vel, rest, hp⟩ | ⟨rest, e, hstage⟩
  · rw [step_pending s _ rest hrun hi hp] at h
    cases h
    exact hostFrame_issueFirst i vel rest s
  · cases hb : s.bus.blocked with
    | true =>
      rw [step_blocked hb] at h
      cases h
      exact .refl s
    | false =>
      rw [step_stopping s _ e ⟨hb, ht⟩ hi hstage] at h
      cases h
      exact hostFrame_shutdownNext i rest e s

/-- A step that sends the next transaction of a request. -/
theorem hostFrame_transfer {s t : State} {x : Transfer} (hx : s.bus.transfer = some x) (h : step s = .next t) :
    s.HostFrame (x.what.targets s.params) t ∧ (x.waiting = .caller → t.host = s.host) := by
  cases hb : s.bus.blocked with
  | true =>
    rw [step_blocked hb] at h
    cases h
    exact ⟨.refl s, fun _ => rfl⟩
  | false =>
    rw [step_transfer hb hx] at h
    cases h
    have hsend := changesOnly_sendFrom x.what x.sent (s.setTransfer none)
    refine ⟨((hostFrame_setTransfer none s).trans hsend.hostFrame).trans (hostFrame_settle _ _), fun hcaller => ?_⟩
    rw [continueTransfer, hcaller, settle_caller_host, hsend.host]
    rfl

/-- Settles O59: each of the three kinds of step is a chain of the block's operations, whose frame is known, and the host's own. -/
theorem hostLineFrame : Obligations.HostLineFrame := by
  refine ⟨fun i s t hline h => ?line, fun s t i ht hi hr h => ?request, fun s t x hx h => ?transfer⟩
  case line =>
    obtain ⟨hparams, hinbox, hoffset, hstream, hended, hcount, hregs⟩ := hostFrame_exec i hline h
    exact ⟨hparams, hinbox, hoffset, hstream, hended, hcount, hregs⟩
  case request =>
    obtain ⟨hparams, hinbox, hoffset, hstream, hended, hcount, hregs⟩ := hostFrame_request ht hi hr h
    exact ⟨hparams, hinbox, hoffset, hstream, hended, hcount, fun a ha => hregs a fun ⟨m, hm, hin⟩ => ha m hm hin⟩
  case transfer =>
    obtain ⟨⟨hparams, hinbox, hoffset, hstream, hended, hcount, hregs⟩, hhost⟩ := hostFrame_transfer hx h
    exact ⟨hparams, hinbox, hoffset, hstream, hended, hcount, hhost, hregs⟩

end Sys2Proof.Machine

/-! PROOFS. Exceptions and waiting: what no step takes back (R8, R20, R112, R124); the model faults of the block's rows (R124, R128); and
the states that wait for ever or for the environment (R136, R146, R152). -/

namespace Sys2Proof.Machine

/-! ### What no step takes back (R8, R20, R112, R124) -/

/-- A recorded fault stays recorded when another one is added (R124). -/
theorem mem_addFault_of_mem {f : ModelFault} (g : ModelFault) {fs : List ModelFault} (h : f ∈ fs) : f ∈ addFault g fs := by
  refine List.mem_filter.mpr ⟨?_, by simp [h]⟩
  cases f <;> decide

/-- `t` has every fault of `s`, and its records and diagnostics begin with those of `s`. -/
structure State.AddsToHistory (s t : State) : Prop where
  faults : s.mon.faults ⊆ t.mon.faults
  trace : s.mon.trace <+: t.mon.trace
  diags : s.host.diags <+: t.host.diags

theorem State.AddsToHistory.refl (s : State) : s.AddsToHistory s :=
  ⟨List.Subset.refl _, List.prefix_refl _, List.prefix_refl _⟩

theorem State.AddsToHistory.trans {s t u : State} (h1 : s.AddsToHistory t) (h2 : t.AddsToHistory u) : s.AddsToHistory u where
  faults := List.Subset.trans h1.faults h2.faults
  trace := h1.trace.trans h2.trace
  diags := h1.diags.trans h2.diags

/-- A move adds a fault, a record or diagnostics, or leaves all three as they are. -/
theorem Move.addsToHistory {Q : Block → Bool → Prop} {s t : State} (h : Move Q s t) : s.AddsToHistory t := by
  cases h with
  | host h hd => exact { State.AddsToHistory.refl s with diags := hd }
  | fault f => exact { State.AddsToHistory.refl s with faults := fun _ => mem_addFault_of_mem f }
  | transaction b o _ => exact { State.AddsToHistory.refl s with trace := List.prefix_append _ _ }
  | unplaced b _ => exact { State.AddsToHistory.refl s with trace := List.prefix_append _ _ }
  | _ => exact ⟨List.Subset.refl _, List.prefix_refl _, List.prefix_refl _⟩

theorem Moves.addsToHistory {Q : Block → Bool → Prop} {s t : State} (h : Moves Q s t) : s.AddsToHistory t :=
  h.lift .refl (fun _ _ _ => .trans) fun _ _ => Move.addsToHistory

/-- Settles O56: a step is a chain of moves, each of which only adds to the history. -/
theorem stepOnlyAddsToHistory : Obligations.StepOnlyAddsToHistory := by
  intro s t h
  have hm := moves_step s t h
  obtain ⟨faults, trace, diags⟩ := hm.addsToHistory
  exact ⟨fun _ hf => faults hf, trace, diags, hm.params_eq⟩

/-! ### The faults of the block's rows (R124, R128) -/

/-- A transaction records no fault, whatever its outcome (R95). -/
@[simp] theorem busWrite_faults (inc : Bool) (b : Block) (s : State) : (busWrite inc b s).2.mon.faults = s.mon.faults := by
  unfold busWrite
  split
  · rw [State.recordOk_eq]
    rfl
  · rfl
  · rfl

@[simp] theorem State.configure_faults (s : State) : s.configure.mon.faults = s.mon.faults := by
  unfold State.configure
  split <;> rfl

@[simp] theorem finish_faults (r : BusOutcome × State) : (finish r).mon.faults = r.2.mon.faults := by
  obtain ⟨o, s⟩ := r
  cases o <;> rfl

@[simp] theorem conclude_faults (w : Sending) (r : BusOutcome × State) : (conclude w r).mon.faults = r.2.mon.faults := by
  obtain ⟨o, s⟩ := r
  cases o with
  | ok =>
    cases w with
    | modes => exact s.configure_faults
    | frame m c => rfl
  | err => rfl
  | never => rfl

/-- Sending a request's transaction records no fault: a `BusError` is a result (R95, R124). -/
@[simp] theorem sendFrom_faults (w : Sending) (j : Nat) (s : State) : (sendFrom w j s).mon.faults = s.mon.faults := by
  unfold sendFrom
  split
  · rfl
  · next b _ =>
    have hwrite := busWrite_faults (w.relies s) b s
    split
    · next t ht =>
      rw [ht] at hwrite
      split
      · exact hwrite
      · rw [conclude_faults, hwrite]
    · next t ht => rw [conclude_faults, ← hwrite, ht]
    · next t ht => rw [conclude_faults, ← hwrite, ht]

/-- `t` has the faults of `s`; or a recorded fault is all that sets its monitor apart from that of `s`, and the bus is that of `s`
(R128). -/
def State.FaultsPrecisely (s t : State) : Prop :=
  t.mon.faults = s.mon.faults ∨ ∃ f, t.mon = (s.recordFault f).mon ∧ t.bus = s.bus

theorem faultsPrecisely_recordFault (f : ModelFault) (s : State) : s.FaultsPrecisely (s.recordFault f) := .inr ⟨f, rfl, rfl⟩

/-- The phase check records a fault instead of the rest of the request, never beside it (R78, R125). -/
theorem faultsPrecisely_phaseGate (sh : Bool) (k : State → State) (s : State) (hk : (k s).mon.faults = s.mon.faults) :
    s.FaultsPrecisely (phaseGate sh k s) := by
  unfold phaseGate
  split
  · split
    · exact .inl hk
    · exact faultsPrecisely_recordFault _ s
  · exact faultsPrecisely_recordFault _ s
  · exact .inl hk

theorem faultsPrecisely_caseInstr (m : Motor) (c : Case) {s t : State} (h : exec (caseInstr m c) s = .next t) :
    s.FaultsPrecisely t := by
  rw [exec_caseInstr] at h
  cases h
  exact faultsPrecisely_phaseGate false _ s (sendFrom_faults (.frame m c) 0 s)

theorem faultsPrecisely_initializeChip {s t : State} (h : exec .initializeChip s = .next t) : s.FaultsPrecisely t := by
  simp only [exec, execInitializeChip, Host.Outcome.next.injEq] at h
  subst h
  split
  · exact faultsPrecisely_recordFault _ s
  · exact faultsPrecisely_recordFault _ s
  · exact .inl (sendFrom_faults .modes 0 s)

/-- A direct call records no fault (R90): operands outside its ranges stop the machine instead (assumption log 12). -/
theorem exec_writeBlock_faults {dev : DevAddr} {start : RegAddr} {bytes : List Byte} {s t : State}
    (h : exec (.writeBlock dev start bytes) s = .next t) : t.mon.faults = s.mon.faults := by
  simp only [exec, execWriteBlock] at h
  split at h
  · cases h
  · split at h
    · cases h
    · split at h
      · cases h
      · cases h
        rw [finish_faults, busWrite_faults]

/-- Every row of the block. -/
theorem faultsPrecisely_exec (i : Instr) {s t : State} (hline : i.isHostLine = false) (h : exec i s = .next t) :
    s.FaultsPrecisely t := by
  cases i with
  | initializeChip => exact faultsPrecisely_initializeChip h
  | cmdRelease m => exact faultsPrecisely_caseInstr m .release h
  | cmdBrake m => exact faultsPrecisely_caseInstr m .brake h
  | cmdForward m v => exact faultsPrecisely_caseInstr m (.forward v) h
  | cmdReverse m v => exact faultsPrecisely_caseInstr m (.reverse v) h
  | rejectOutOfRange n vel =>
    obtain ⟨r, rfl⟩ | ⟨f, rfl⟩ := exec_rejectOutOfRange_next h
    · exact .inl rfl
    · exact faultsPrecisely_recordFault f s
  | baseRegister n =>
    obtain ⟨o, rfl | ⟨f, rfl⟩⟩ := exec_baseRegister_next h
    · exact .inl rfl
    · exact .inr ⟨f, rfl, rfl⟩
  | writeBlock dev start bytes => exact .inl (exec_writeBlock_faults h)
  | _ => cases hline

/-- Settles O60: a row that records a fault does nothing else to the monitor, and nothing to the bus. -/
theorem faultsArePrecise : Obligations.FaultsArePrecise := by
  intro i s t hline h hnew
  obtain hsame | ⟨f, hmon, hbus⟩ := faultsPrecisely_exec i hline h
  · exact absurd hsame hnew
  · rw [hmon]
    exact ⟨rfl, rfl, rfl, hbus⟩

/-! ### The states that wait (R136, R146, R152) -/

/-- With no request handed over or being sent, a machine that is not blocked does what its host does. -/
theorem step_host {s : State} (hfree : s.BusFree) (hi : s.call.inbox = []) : step s = hostStep s := by
  simp [step, nextStep, hfree.1, hfree.2, hi]

/-- An ended host does nothing more (R152). -/
theorem hostStep_ended {s : State} {e : EndKind} (hstage : s.host.stage = .ended e) : hostStep s = .next s := by
  simp [hostStep, hstage]

/-- Neither a whole line nor the end of the input is there (R136). -/
theorem nextInput_waiting {h : HostState} (hline : takeLine h.stream = none) (hopen : h.inputEnded = false) : nextInput h = none := by
  simp [nextInput, hline, hopen]

/-- The blocking read: a host that reads and has neither a signal nor input waits (R136). -/
theorem hostStep_waiting {s : State} (hstage : s.host.stage = .reading) (hp : s.host.pending = [])
    (hsignal : s.host.signalIn ≠ some 0) (hnext : nextInput s.host = none) : hostStep s = .next s := by
  simp [hostStep, hstage, hp, readingStep, signalDue_eq_false hsignal, hnext]

/-- A machine that is blocked, or whose host has nothing to do, stays as it is. -/
theorem step_still {s : State} (ht : s.bus.transfer = none) (hi : s.call.inbox = []) (hhost : hostStep s = .next s) :
    step s = .next s := by
  cases hb : s.bus.blocked with
  | true => exact step_blocked hb
  | false => rw [step_host ⟨hb, ht⟩ hi, hhost]

/-- Settles O51: a blocked machine's step is nothing, and the two others' is what a host with nothing to do does. -/
theorem waitingMachineStays : Obligations.WaitingMachineStays := by
  intro s
  refine ⟨step_blocked, fun e ht hstage hi => step_still ht hi (hostStep_ended hstage), ?waiting⟩
  case waiting =>
    intro ht hstage hp hi hsignal hopen hline
    exact step_still ht hi (hostStep_waiting hstage hp hsignal (nextInput_waiting hline hopen))

end Sys2Proof.Machine

/-! PROOFS. Commands and lines before `initialize` (R78, R141): the Fresh phase refuses each of them with `NotInitialized`. -/

namespace Sys2Proof.Machine

/-- The fault of a command on a block that is not initialized (R78, R141). -/
theorem commandFault_fresh {s : State} (hfresh : s.mon.phase = .fresh) : s.mon.phase.commandFault = some .notInitialized := by
  rw [hfresh, Phase.commandFault]

/-- Settles O28: a command that a Fresh block refuses records its fault, and so does each request of a line, one in each step. -/
theorem uninitializedCommandIsAFault : Obligations.UninitializedCommandIsAFault := by
  refine ⟨fun i vel s hfresh => ?command, fun i requests s hreq hfresh hrun => ?line⟩
  case command => rw [exec_decodeCommand, command_faulted i vel (commandFault_fresh hfresh)]
  case line => exact ⟨_, rfl, line_faulted i requests hreq (commandFault_fresh hfresh) hrun⟩

end Sys2Proof.Machine
